-- ==== Sys2Proof/Word.lean ====
section
/-! DEFINITION. The words of the block and their plainest arithmetic (spec/00_scope.md rules R4, R5). -/

namespace Sys2Proof

/-- A host word, a counter or a weight: 32 bits (rule R4). -/
abbrev Word := BitVec 32

/-- A byte of a byte memory, and a Symbol, "a byte value in [0,255]" (rule R8). -/
abbrev Byte := BitVec 8

/-- An index into the node arena NODE (rule R31). -/
abbrev NodeIx := BitVec 9

/-- A byte address of the host port: 22 bits (rule R43). -/
abbrev Addr := BitVec 22

/-- NIL, "the node index that names no node" (rule R4). -/
def nilIx : NodeIx := 0x1FF#9

end Sys2Proof
end

