-- ==== Sys2Proof/Syntax.lean ====
section
/-! DEFINITION. The sixteen commands of spec/30_encoding.md rule R65, one constructor per row of
spec/opcode_table.json. -/

namespace Sys2Proof

/-- A command with its operands (rules R63 to R65): format S carries SYM = w[15:8], format W carries
WIDTH = w[13:8], format N carries nothing. -/
inductive Instr where
  | nop
  | clear
  | bwinit
  | wrbits (width : BitVec 6)
  | putsym (sym : Byte)
  | finish
  | brinit
  | rdbit
  | fclr
  | fadd (sym : Byte)
  | fcount
  | build
  | tcheck
  | codes
  | encode
  | decode
deriving DecidableEq, Repr

end Sys2Proof
end

