-- ==== Sys2Proof/WellFormed.lean ====
section
/-! DEFINITION. Which instructions have an encoding the block accepts (spec/30_encoding.md rules R66, R67). -/

namespace Sys2Proof

/-- WRBITS_WMAX, the bound of a single WRBITS (rules R4, R67). -/
def wrbitsMax : Nat := 32

/-- The one check on operands: WRBITS takes WIDTH in [0, 32]; widths 33 to 63 "are encodable in the
6-bit field and are illegal" (rule R67). Every symbol is legal. -/
def Instr.WellFormed : Instr → Prop
  | .wrbits w => w.toNat ≤ wrbitsMax
  | .nop | .clear | .bwinit | .putsym _ | .finish | .brinit | .rdbit | .fclr | .fadd _
  | .fcount | .build | .tcheck | .codes | .encode | .decode => True

/-- The same check as a Bool, for tests and the assembler. -/
def Instr.wellFormed : Instr → Bool
  | .wrbits w => decide (w.toNat ≤ wrbitsMax)
  | .nop | .clear | .bwinit | .putsym _ | .finish | .brinit | .rdbit | .fclr | .fadd _
  | .fcount | .build | .tcheck | .codes | .encode | .decode => true

end Sys2Proof
end

