-- ==== Sys2Proof/Decode.lean ====
section
/-! DEFINITION. The decoder of spec/30_encoding.md rule R66, total on every 32-bit word and rejecting by
name; after it the encoder, from the formats of rule R64 and the opcode map of rule R65. -/

namespace Sys2Proof

/-- Why a word is no command: the three ILLEGAL details of rules R66 and R137. -/
inductive Illegal where
  | badOpcode
  | reservedSet
  | badWidth
deriving DecidableEq, Repr

/-- The DETAIL code of a rejection (rule R137). -/
def Illegal.detail : Illegal → Byte
  | .badOpcode => 0x01#8
  | .reservedSet => 0x02#8
  | .badWidth => 0x03#8

/-- What an opcode of the map is followed by: the three formats of rule R64. -/
inductive Shape where
  | n (i : Instr)
  | s (make : Byte → Instr)
  | w (make : BitVec 6 → Instr)

/-- The opcode map of rule R65: the command and format of an OP value, none for the 240 illegal ones. -/
def shapeOf (op : Byte) : Option Shape :=
  match op.toNat with
  | 0x00 => some (.n .nop)
  | 0x01 => some (.n .clear)
  | 0x10 => some (.n .bwinit)
  | 0x11 => some (.w .wrbits)
  | 0x12 => some (.s .putsym)
  | 0x13 => some (.n .finish)
  | 0x20 => some (.n .brinit)
  | 0x21 => some (.n .rdbit)
  | 0x30 => some (.n .fclr)
  | 0x31 => some (.s .fadd)
  | 0x32 => some (.n .fcount)
  | 0x33 => some (.n .build)
  | 0x40 => some (.n .tcheck)
  | 0x41 => some (.n .codes)
  | 0x50 => some (.n .encode)
  | 0x60 => some (.n .decode)
  | _ => none

/-- The field OP = w[7:0] of a command word (rule R64); STATUS.LASTOP takes it even of an illegal word. -/
def opField (w : Word) : Byte := w.extractLsb' 0 8

/-- `Decode(w)` of rule R66, its checks in the order written. -/
def decode (w : Word) : Except Illegal Instr :=
  match shapeOf (opField w) with
  | none => .error .badOpcode
  | some (.n i) =>
    if w.extractLsb' 8 24 ≠ 0 then .error .reservedSet else .ok i
  | some (.s make) =>
    if w.extractLsb' 16 16 ≠ 0 then .error .reservedSet else .ok (make (w.extractLsb' 8 8))
  | some (.w make) =>
    if w.extractLsb' 14 18 ≠ 0 then .error .reservedSet
    else if wrbitsMax < (w.extractLsb' 8 6).toNat then .error .badWidth
    else .ok (make (w.extractLsb' 8 6))

/-- The OP value of a command (rule R65). -/
def Instr.opcode : Instr → Byte
  | .nop => 0x00#8
  | .clear => 0x01#8
  | .bwinit => 0x10#8
  | .wrbits _ => 0x11#8
  | .putsym _ => 0x12#8
  | .finish => 0x13#8
  | .brinit => 0x20#8
  | .rdbit => 0x21#8
  | .fclr => 0x30#8
  | .fadd _ => 0x31#8
  | .fcount => 0x32#8
  | .build => 0x33#8
  | .tcheck => 0x40#8
  | .codes => 0x41#8
  | .encode => 0x50#8
  | .decode => 0x60#8

/-- Format N: OP in [7:0], zeros above (rule R64). -/
def formatN (op : Byte) : Word := 0#24 ++ op

/-- Format S: SYM in [15:8] (rule R64). -/
def formatS (sym op : Byte) : Word := (0#16 ++ sym) ++ op

/-- Format W: WIDTH in [13:8] (rule R64). -/
def formatW (width : BitVec 6) (op : Byte) : Word := (0#18 ++ width) ++ op

/-- The command word of an instruction (rules R64, R65). -/
def encode : Instr → Word
  | .wrbits width => formatW width 0x11#8
  | .putsym sym => formatS sym 0x12#8
  | .fadd sym => formatS sym 0x31#8
  | .nop => formatN 0x00#8
  | .clear => formatN 0x01#8
  | .bwinit => formatN 0x10#8
  | .finish => formatN 0x13#8
  | .brinit => formatN 0x20#8
  | .rdbit => formatN 0x21#8
  | .fclr => formatN 0x30#8
  | .fcount => formatN 0x32#8
  | .build => formatN 0x33#8
  | .tcheck => formatN 0x40#8
  | .codes => formatN 0x41#8
  | .encode => formatN 0x50#8
  | .decode => formatN 0x60#8

/-- The command word whose low `nbits` bits are `w`, numbered as spec/opcode_table.json numbers them, and
whose other bits are 0. Every command is one 32-bit word (rule R63), so no bytes are laid out. -/
def tableWord (nbits w : Nat) : Word := BitVec.ofNat 32 (w % 2 ^ nbits)

/-- The instruction the decoder reads from a word of spec/opcode_table.json. -/
def decodeTableWord (nbits w : Nat) : Option Instr :=
  match decode (tableWord nbits w) with
  | .ok i => some i
  | .error _ => none

end Sys2Proof
end

