-- ==== Sys2Proof/Config.lean ====
section
/-! DEFINITION. What an instance of the block fixes (the parameters of spec/00_scope.md rule R4) and the
free values, the `any` of rule R6: opaque constants without a body, of which nothing can be proved. -/

namespace Sys2Proof

/-- The alphabet: 256 symbols (rule R4). -/
def Config.alphabet : Nat := 256

/-- NODE_MAX: node entries 0..510 (rule R4). -/
def Config.nodeMax : Nat := 511

/-- The largest SYM_CAP or PACK_CAP (rule R4). -/
def Config.capMax : Nat := 262144

/-- The parameter SYM_CAP less one: OPEN, so any value of its range (rule R4; log 1). -/
opaque Config.symCapLessOne : Fin 262144

/-- The parameter PACK_CAP less one: OPEN, so any value of its range (rule R4; log 1). -/
opaque Config.packCapLessOne : Fin 262144

/-- The parameter SYM_CAP of this instance, in [1, 262144] (rule R4). -/
def Config.symCap : Nat := Config.symCapLessOne.val + 1

/-- The parameter PACK_CAP of this instance, in [1, 262144] (rule R4). -/
def Config.packCap : Nat := Config.packCapLessOne.val + 1

/- The draws. Each takes the number of the command or host access that draws (State.draws), for a memory the
entry's index, and where a command reads one entry more than once the number of that read, so that no two
reads share a law (rules R6, R42; log 2, log 3). -/

/-- FREQ[i] read while unwritten (rule R42). -/
opaque Config.anyFreq (draw read i : Nat) : Word

/-- Word 0 of NODE[i] read while unwritten, as the window word of rule R47 (rule R42). -/
opaque Config.anyNodeWord (draw read i : Nat) : Word

/-- WEIGHT of NODE[i] read while unwritten (rule R42). -/
opaque Config.anyNodeWeight (draw i : Nat) : Word

/-- CODE_LEN[s] read while unwritten (rules R33, R42). -/
opaque Config.anyCodeLen (draw s : Nat) : Byte

/-- CODE_PAT[s] read while unwritten (rules R34, R42). -/
opaque Config.anyCodePat (draw s : Nat) : BitVec 255

/-- SYM_IN[i] read while unwritten (rule R42). -/
opaque Config.anySymIn (draw read i : Nat) : Byte

/-- PACK[i] read while unwritten (rule R42). -/
opaque Config.anyPack (draw i : Nat) : Byte

/-- SYM_OUT[i] read while unwritten (rule R42). -/
opaque Config.anySymOut (draw i : Nat) : Byte

/-- What a host read returns while BUSY = 1 (rule R52). -/
opaque Config.anyBusyRead (draw : Nat) : Word

/-- SYM_OUT[i] left by a DECODE that raised (rule R133). -/
opaque Config.anyFailedOut (draw i : Nat) : Byte

/-- BR_POS left by a DECODE that raised (rule R133). -/
opaque Config.anyBrPos (draw : Nat) : Word

/-- BR_STATE.BIT left by a DECODE that raised (rule R133). -/
opaque Config.anyBrBit (draw : Nat) : BitVec 3

/-- BR_STATE.CURSOR left by a DECODE that raised (rule R133). -/
opaque Config.anyBrCursor (draw : Nat) : NodeIx

/-- FREQ[i] after FADD's increment has read 0xFFFFFFFF in an unwritten counter: the spec states no result
there (rule R106; log 22). -/
opaque Config.anyCounter (draw i : Nat) : Word

/-- WEIGHT of an Internal node whose sum does not fit 32 bits: the spec states no result there (rule R112;
log 22). -/
opaque Config.anyMergeWeight (draw i : Nat) : Word

/-- CODE_LEN less one of a root that Walk re-reads as a Leaf: "every valid code length is in [1,255]"
(spec/90_conflicts.md C6), and the spec states no more of it (log 24). -/
opaque Config.anyRootLenLessOne (draw : Nat) : Fin 255

/-- The bits CODE_PAT of such a root is cut from (log 24). -/
opaque Config.anyRootPat (draw : Nat) : BitVec 255

/-- TOTAL_BITS after one more bit than 0xFFFFFFFF, at the packer position `pos` of the command: the spec
states no result there (rule R26; log 5). -/
opaque Config.anyTotalBits (draw pos : Nat) : Word

end Sys2Proof
end

