-- ==== Sys2Proof/Machine/State.lean ====
section
/-! DEFINITION. The state of the block (spec/10_state.md), its reset value (spec/70_reset_and_hazards.md
rule R157) and the reasons a step can stop. -/

namespace Sys2Proof.Machine

/-- The register block of rule R11, one name per register. -/
inductive Reg where
  | id | version | cmd | arg | status | inLen | root | nodeCnt | packLen | trail | symCnt
  | outLen | totalBits | bwState | brPos | brState | symCap | packCap
deriving DecidableEq, Repr

/-- One access of the host, or what it leaves to the engine (rules R43, R155, R170; log 6). -/
inductive HostOp where
  /-- `MemWrite(addr, 4, value)`. -/
  | write (addr : Addr) (value : Word)
  /-- `MemRead(addr, 4)`; the value goes to `State.readLog`. -/
  | read (addr : Addr)
  /-- POLL (rule R69): read STATUS until BUSY = 0. `busyReads` of its reads find BUSY = 1 before the engine
  completes; rule R167 leaves that number open. -/
  | poll (busyReads : Nat)
  /-- CHECK and CHECKOK (rule R70): read, and "stop the program as failed" unless the bits of the value
  selected by `mask` are those of `value`; a stopped program makes none of its later accesses. -/
  | check (addr : Addr) (mask value : Word)
  /-- The host makes no access; the engine performs the latched command, if there is one. -/
  | idle
  /-- Hardware reset is asserted (rule R155). -/
  | reset
deriving DecidableEq, Repr

/-- The result codes of rule R136. "Codes 0x0B to 0xFF are never produced." -/
inductive Result where
  | ok
  | illegal
  | noCode
  | packOvf
  | malformed
  | lenRange
  | freqOvf
  | weightOvf
  | endOfStream
  | outOvf
  | sequence
deriving DecidableEq, Repr

/-- Word 0 of a node entry: the fields INTERNAL, SYM, LEFT and RIGHT of rule R31. WEIGHT is word 1 and is
written separately (rule R47), so it is a memory of its own (log 11). -/
structure NodeLink where
  internal : Bool
  sym : Byte
  left : NodeIx
  right : NodeIx
deriving DecidableEq, Repr

/-- An engine memory as (index, entry) pairs with rising indices. An unlisted entry is one that nothing has
written since reset: it has no value, and a read of it is a draw (rule R42). For a byte memory this is a list
of `Host.Cell`. -/
abbrev Memory (α : Type) := List (Nat × α)

/-- Everything the block holds. -/
structure State where
  /-- ARG, the operand register (rule R17). -/
  arg : Word
  /-- IN_LEN (rule R19). -/
  inLen : Word
  /-- ROOT (rule R20). -/
  root : NodeIx
  /-- NODE_CNT (rule R21). -/
  nodeCnt : BitVec 10
  /-- PACK_LEN (rule R22). -/
  packLen : Word
  /-- TRAIL (rule R23). -/
  trail : BitVec 3
  /-- SYM_CNT (rule R24). -/
  symCnt : Word
  /-- OUT_LEN (rule R25). -/
  outLen : Word
  /-- TOTAL_BITS (rule R26). -/
  totalBits : Word
  /-- BW_STATE.CUR, the partial byte (rule R27). -/
  bwCur : Byte
  /-- BW_STATE.FREE, its free low-order slots, 1..8 (rule R27). -/
  bwFree : BitVec 4
  /-- BW_STATE.FIN (rule R27). -/
  bwFin : Bool
  /-- BR_POS (rule R28). -/
  brPos : Word
  /-- BR_STATE.BIT (rule R29). -/
  brBit : BitVec 3
  /-- BR_STATE.CURSOR (rule R29). -/
  brCursor : NodeIx
  /-- STATUS.BUSY (rules R18, R38). -/
  busy : Bool
  /-- STATUS.TRUNC (rule R18). -/
  trunc : Bool
  /-- STATUS.RESULT (rules R18, R136). -/
  result : Result
  /-- STATUS.DETAIL (rules R18, R137). -/
  detail : Byte
  /-- STATUS.LASTOP (rule R18). -/
  lastop : Byte
  /-- The command latch (rule R38). -/
  latch : Option Word
  /-- SYM_CAP, a parameter of the instance (rules R4, R14); nothing writes it. -/
  symCap : Nat
  /-- PACK_CAP, a parameter of the instance (rules R4, R15); nothing writes it. -/
  packCap : Nat
  /-- FREQ[0..255] (rule R30). -/
  freq : Memory Word
  /-- NODE[0..510], word 0 (rules R31, R47). -/
  nodeLink : Memory NodeLink
  /-- NODE[0..510].WEIGHT, word 1 (rules R31, R47). -/
  nodeWeight : Memory Word
  /-- CODE_VALID: bit s is CODE_VALID[s] (rule R32). -/
  codeValid : BitVec 256
  /-- CODE_LEN[0..255] (rule R33). -/
  codeLen : Memory Byte
  /-- CODE_PAT[0..255] (rule R34). -/
  codePat : Memory (BitVec 255)
  /-- SYM_IN[0..SYM_CAP−1] (rule R35). -/
  symIn : Memory Byte
  /-- PACK[0..PACK_CAP−1] (rule R36). -/
  pack : Memory Byte
  /-- SYM_OUT[0..SYM_CAP−1] (rule R37). -/
  symOut : Memory Byte
  /-- The MODEL's own: what the host does next, oldest first (rules R57, R169; log 6). -/
  port : List HostOp
  /-- The MODEL's own: the values the host has read, oldest first (rule R169; log 6). -/
  readLog : List Word
  /-- The MODEL's own: the number of the next draw of a free value (rule R6; log 2). -/
  draws : Nat
deriving DecidableEq, Repr

/-- The reset state of rule R157 of a block with the given parameters. No memory entry is written. -/
def State.resetOf (symCap packCap : Nat) : State where
  arg := 0#32
  inLen := 0#32
  root := nilIx
  nodeCnt := 0#10
  packLen := 0#32
  trail := 0#3
  symCnt := 0#32
  outLen := 0#32
  totalBits := 0#32
  bwCur := 0#8
  bwFree := 8#4
  bwFin := false
  brPos := 0#32
  brBit := 7#3
  brCursor := nilIx
  busy := false
  trunc := false
  result := .ok
  detail := 0#8
  lastop := 0#8
  latch := none
  symCap := symCap
  packCap := packCap
  freq := []
  nodeLink := []
  nodeWeight := []
  codeValid := 0#256
  codeLen := []
  codePat := []
  symIn := []
  pack := []
  symOut := []
  port := []
  readLog := []
  draws := 0

/-- The machine right after hardware reset (rule R157), its capacities the OPEN parameters of rule R4. -/
def State.reset : State := State.resetOf Config.symCap Config.packCap

/-- Why the machine stops with a fault: never. "Every 32-bit command word has a meaning ... and every host
access completes" (spec/93_implementation_defined.md section 3), so there is no constructor. -/
inductive Fault where
deriving DecidableEq, Repr

/-- Why the model gives a command no meaning. -/
inductive Refusal where
  /-- Raised by an arm of `exec` whose instruction has no meaning yet, and by nothing else; no arm raises it.
  Safe: the machine stops where the block would go on. -/
  | notModelled (mnemonic : String)
deriving DecidableEq, Repr

end Sys2Proof.Machine
end

