-- ==== Sys2Proof/Machine/Ops.lean ====
section
/-! DEFINITION. The named operations over the engine memories and registers, the completion of a command,
and raising a result, the block's one way to report an error (spec/40_control.md rules R82, R83;
spec/60_exceptions.md rule R135). The block has no trap and no return from one (rules R141, R142). -/

namespace Sys2Proof.Machine

/-! ### Memories -/

/-- The entry written at `k`, none where nothing has been written since reset. -/
def Memory.look {α : Type} : Memory α → Nat → Option α
  | [], _ => none
  | (k', v) :: m, k => if k = k' then some v else Memory.look m k

/-- Write `v` at `k`, keeping the indices rising. -/
def Memory.put {α : Type} : Memory α → Nat → α → Memory α
  | [], k, v => [(k, v)]
  | (k', v') :: m, k, v =>
    if k < k' then (k, v) :: (k', v') :: m
    else if k = k' then (k, v) :: m
    else (k', v') :: Memory.put m k v

/-- Entries 0..n−1 all written, entry `i` with `f i`. -/
def Memory.tabulate {α : Type} (n : Nat) (f : Nat → α) : Memory α :=
  (List.range n).map fun i => (i, f i)

/-- The canonical form of a memory of `bound` entries: rising indices, all below `bound`. -/
abbrev Memory.wf {α : Type} (bound : Nat) (m : Memory α) : Prop :=
  (m.map Prod.fst).Pairwise (· < ·) ∧ ∀ k ∈ m.map Prod.fst, k < bound

/-! ### Node entries as window words -/

/-- The fields of a word written to word 0 of a node entry; bits [30:26] are ignored (rule R47). -/
def NodeLink.ofWord (w : Word) : NodeLink where
  internal := w.getLsbD 31
  sym := w.extractLsb' 18 8
  left := w.extractLsb' 0 9
  right := w.extractLsb' 9 9

/-- Word 0 of a node entry as the host reads it (rule R47). -/
def NodeLink.toWord (e : NodeLink) : Word :=
  (((BitVec.ofBool e.internal ++ 0#5) ++ e.sym) ++ e.right) ++ e.left

/-- A Leaf as BUILD makes it (rules R31, R110). -/
def NodeLink.leaf (sym : Byte) : NodeLink where
  internal := false
  sym := sym
  left := nilIx
  right := nilIx

/-- An Internal node as BUILD makes it (rules R109, R110). -/
def NodeLink.inner (left right : NodeIx) : NodeLink where
  internal := true
  sym := 0#8
  left := left
  right := right

/-! ### Reading an entry

The value of an entry: what was last written, else "`any` value of the entry's width, drawn freshly at each
read" (rule R42). `State.draws` moves on at the end of each command and host read, so any two of them see
unrelated values. Where one command reads an entry, or a field of it, more than once, `read` tells its reads
apart (log 3). -/

/-- FREQ[i], at the read of that number. -/
def State.freqAt (s : State) (read i : Nat) : Word :=
  (s.freq.look i).getD (Config.anyFreq s.draws read i)

/-- Word 0 of NODE[i], at the read of that number. -/
def State.linkAt (s : State) (read i : Nat) : NodeLink :=
  (s.nodeLink.look i).getD (NodeLink.ofWord (Config.anyNodeWord s.draws read i))

/-- NODE[i].WEIGHT. -/
def State.weightAt (s : State) (i : Nat) : Word :=
  (s.nodeWeight.look i).getD (Config.anyNodeWeight s.draws i)

/-- CODE_VALID[c]. -/
def State.validAt (s : State) (c : Byte) : Bool := s.codeValid.getLsbD c.toNat

/-- CODE_LEN[c]. -/
def State.codeLenAt (s : State) (c : Byte) : Byte :=
  (s.codeLen.look c.toNat).getD (Config.anyCodeLen s.draws c.toNat)

/-- CODE_PAT[c]. -/
def State.codePatAt (s : State) (c : Byte) : BitVec 255 :=
  (s.codePat.look c.toNat).getD (Config.anyCodePat s.draws c.toNat)

/-- SYM_IN[i], at the read of that number. -/
def State.symInAt (s : State) (read i : Nat) : Byte :=
  (s.symIn.look i).getD (Config.anySymIn s.draws read i)

/-- PACK[i]. -/
def State.packAt (s : State) (i : Nat) : Byte :=
  (s.pack.look i).getD (Config.anyPack s.draws i)

/-- SYM_OUT[i]. -/
def State.symOutAt (s : State) (i : Nat) : Byte :=
  (s.symOut.look i).getD (Config.anySymOut s.draws i)

/-! ### Writing an entry

A memory has the entries its rule gives it; an index at or above them names no entry, and a write there
stores nothing. No command writes one in a state that satisfies `State.Inv` (log 12). -/

/-- FREQ[c] <- v. -/
def State.writeFreq (s : State) (c : Byte) (v : Word) : State :=
  { s with freq := s.freq.put c.toNat v }

/-- Every FREQ[c] <- 0 (the first loop of rules R105, R111, R125). -/
def State.clearFreq (s : State) : State :=
  { s with freq := Memory.tabulate Config.alphabet fun _ => 0#32 }

/-- Word 0 of NODE[i] <- e. -/
def State.writeLink (s : State) (i : Nat) (e : NodeLink) : State :=
  if i < Config.nodeMax then { s with nodeLink := s.nodeLink.put i e } else s

/-- NODE[i].WEIGHT <- v. -/
def State.writeWeight (s : State) (i : Nat) (v : Word) : State :=
  if i < Config.nodeMax then { s with nodeWeight := s.nodeWeight.put i v } else s

/-- NODE[i] <- the node with fields `e` and weight `v`. -/
def State.writeNode (s : State) (i : Nat) (e : NodeLink) (v : Word) : State :=
  (s.writeLink i e).writeWeight i v

/-- Every CODE_VALID[c] <- 0 (rules R85, R112, R118). -/
def State.invalidateCodes (s : State) : State := { s with codeValid := 0#256 }

/-- Every CODE_VALID[c], CODE_LEN[c], CODE_PAT[c] <- 0 (rule R118). -/
def State.clearCodes (s : State) : State :=
  { s with
    codeValid := 0#256
    codeLen := Memory.tabulate Config.alphabet fun _ => 0#8
    codePat := Memory.tabulate Config.alphabet fun _ => 0#255 }

/-- CODE_PAT[c] <- p, CODE_LEN[c] <- l, CODE_VALID[c] <- 1 (rules R119, R120). -/
def State.writeCode (s : State) (c : Byte) (p l : Nat) : State :=
  { s with
    codeValid := s.codeValid ||| BitVec.twoPow 256 c.toNat
    codeLen := s.codeLen.put c.toNat (BitVec.ofNat 8 l)
    codePat := s.codePat.put c.toNat (BitVec.ofNat 255 p) }

/-- SYM_IN[i] <- v. -/
def State.writeSymIn (s : State) (i : Nat) (v : Byte) : State :=
  if i < s.symCap then { s with symIn := s.symIn.put i v } else s

/-- PACK[i] <- v. -/
def State.writePack (s : State) (i : Nat) (v : Byte) : State :=
  if i < s.packCap then { s with pack := s.pack.put i v } else s

/-- SYM_OUT[i] <- v. -/
def State.writeSymOut (s : State) (i : Nat) (v : Byte) : State :=
  if i < s.symCap then { s with symOut := s.symOut.put i v } else s

/-! ### Ending a command -/

/-- How a command's pseudocode ended: the state it leaves, its result and detail, and `trunc`. -/
structure Ended where
  left : State
  result : Result
  detail : Byte
  trunc : Bool

/-- The pseudocode ran to its end (rule R83). -/
def Ended.done (s : State) : Ended := ⟨s, .ok, 0x00#8, false⟩

/-- `raise Result(code, detail)` (rules R6, R135), leaving the state `s`: the state before the command
unless the command's rule says otherwise. -/
def Ended.raise (s : State) (code : Result) (detail : Byte) : Ended := ⟨s, code, detail, false⟩

/-- `complete(w, code, detail, trunc)` of rule R82, `op` being w[7:0]. The draws of the command are used up
(log 2). -/
def State.complete (s : State) (op : Byte) (code : Result) (detail : Byte) (trunc : Bool) : State :=
  { s with
    result := code
    detail := detail
    lastop := op
    trunc := trunc
    latch := none
    busy := false
    draws := s.draws + 1 }

/-- The state a command leaves (rule R83). -/
def Ended.completed (e : Ended) (op : Byte) : State := e.left.complete op e.result e.detail e.trunc

/-- "Every accepted command completes" (rule R82): a next state, whatever the result. -/
def conclude (op : Byte) (e : Ended) : Host.Outcome State Fault Refusal := .next (e.completed op)

/-! ### The DETAIL codes of rule R137 -/

def Detail.endsMidCode : Byte := 0x01#8
def Detail.badRoot : Byte := 0x02#8
def Detail.badChild : Byte := 0x03#8
def Detail.sharedOrCycle : Byte := 0x04#8
def Detail.degenOneBit : Byte := 0x05#8
def Detail.degenCount : Byte := 0x06#8
def Detail.trailNoData : Byte := 0x07#8
def Detail.dupSymbol : Byte := 0x08#8
def Detail.inLenRange : Byte := 0x01#8
def Detail.packLenRange : Byte := 0x02#8
def Detail.writerFinished : Byte := 0x01#8
def Detail.none : Byte := 0x00#8

end Sys2Proof.Machine
end

