-- ==== Sys2Proof/Machine/BitReader.lean ====
section
/-! DEFINITION. The bit-unpacker: the significant bits, the bit step, and the commands BRINIT and RDBIT
(spec/42_bitreader.md; the bit step is spec/46_decoder.md rule R128). -/

namespace Sys2Proof.Machine

/-- `Significant(pos, bit)` at the reader's position (rule R100). -/
def significant (s : State) : Bool :=
  let pos := s.brPos.toNat
  let len := s.packLen.toNat
  if len = 0 then false
  else if pos < len - 1 then true
  else if pos = len - 1 then decide (s.trail.toNat ≤ s.brBit.toNat)
  else false

/-- The bit at the reader's position, `PACK[BR_POS][BR_STATE.BIT]` (rules R102, R128). -/
def currentBit (s : State) : Bool := (s.packAt s.brPos.toNat).getLsbD s.brBit.toNat

/-- The reader moved to the next bit (rules R102, R128). -/
def advanceReader (s : State) : State :=
  if s.brBit = 0#3 then { s with brBit := 7#3, brPos := s.brPos + 1#32 }
  else { s with brBit := s.brBit - 1#3 }

/-- The pseudocode of BRINIT (rule R101): "reads no memory and checks nothing". -/
def readerInit (s : State) : State :=
  { s with brPos := 0#32, brBit := 7#3, brCursor := s.root, outLen := 0#32 }

/-- BRINIT (rule R101). -/
def execBrinit (s : State) : Host.Outcome State Fault Refusal :=
  conclude (Instr.opcode .brinit) (.done (readerInit s))

/-- The pseudocode of RDBIT (rule R102). -/
def rdbitBody (s : State) : Ended :=
  if s.packCap < s.packLen.toNat then .raise s .lenRange Detail.packLenRange
  else if !significant s then .raise s .endOfStream Detail.none
  else .done { advanceReader s with arg := (BitVec.ofBool (currentBit s)).setWidth 32 }

/-- RDBIT (rule R102). -/
def execRdbit (s : State) : Host.Outcome State Fault Refusal :=
  conclude (Instr.opcode .rdbit) (rdbitBody s)

end Sys2Proof.Machine
end

