-- ==== Sys2Proof/Machine/Flags.lean ====
section
/-! DEFINITION. The flags and the register views made of fields: STATUS, BW_STATE and BR_STATE
(spec/10_state.md rules R18, R27, R29). -/

namespace Sys2Proof.Machine

/-- The code of a result (rule R136). -/
def Result.code : Result → Byte
  | .ok => 0x00#8
  | .illegal => 0x01#8
  | .noCode => 0x02#8
  | .packOvf => 0x03#8
  | .malformed => 0x04#8
  | .lenRange => 0x05#8
  | .freqOvf => 0x06#8
  | .weightOvf => 0x07#8
  | .endOfStream => 0x08#8
  | .outOvf => 0x09#8
  | .sequence => 0x0A#8

/-- STATUS.ERR: "live: 1 exactly when RESULT ≠ 0x00" (rule R18). -/
def State.err (s : State) : Bool := decide (s.result ≠ .ok)

/-- STATUS.EMPTY: "live: 1 exactly when ROOT = NIL" (rule R18). -/
def State.empty (s : State) : Bool := decide (s.root = nilIx)

/-- The flag WRBITS sets: 1 if (ARG >> w) ≠ 0 (rule R96). -/
def truncFlag (s : State) (width : Nat) : Bool := decide (s.arg >>> width ≠ 0#32)

/-- STATUS while BUSY = 0 (rule R18). -/
def State.statusWord (s : State) : Word :=
  ((((((s.lastop ++ s.detail) ++ s.result.code) ++ 0#4) ++ BitVec.ofBool s.trunc) ++
    BitVec.ofBool s.empty) ++ BitVec.ofBool s.err) ++ BitVec.ofBool s.busy

/-- BW_STATE (rule R27). -/
def State.bwStateWord (s : State) : Word :=
  (((0#15 ++ BitVec.ofBool s.bwFin) ++ 0#4) ++ s.bwFree) ++ s.bwCur

/-- BR_STATE (rule R29). -/
def State.brStateWord (s : State) : Word :=
  ((0#7 ++ s.brCursor) ++ 0#13) ++ s.brBit

end Sys2Proof.Machine
end

