-- ==== Sys2Proof/Machine/Operands.lean ====
section
/-! DEFINITION. The operand forms: SYM and WIDTH stand in the instruction (spec/30_encoding.md rule R64);
here are the operands read from state, ARG under a width, a symbol's code and the buffered input, as the bit
and symbol sequences the commands take them as. -/

namespace Sys2Proof.Machine

/-- `[v[len−1], ..., v[0]]`: the low `len` bits, the most significant first. -/
def msbFirst {n : Nat} (v : BitVec n) (len : Nat) : List Bool :=
  (List.range len).map fun j => v.getLsbD (len - 1 - j)

/-- `mask(w)` = 2^w − 1 (spec/00_scope.md rule R5). -/
def maskWord (w : Nat) : Word := BitVec.ofNat 32 (2 ^ w - 1)

/-- The bits WRBITS appends: the low WIDTH bits of ARG (rule R96). -/
def argBits (s : State) (width : Nat) : List Bool := msbFirst (s.arg &&& maskWord width) width

/-- The bits PUTSYM appends: `[P[L−1], ..., P[0]]` of the symbol's code (rule R97). -/
def codeBits (s : State) (c : Byte) : List Bool := msbFirst (s.codePatAt c) (s.codeLenAt c).toNat

/-- SYM_IN[0..IN_LEN−1], in order, as one pass over the input reads it: read 0 is the counting, read 1 the packing
of ENCODE (rules R42, R111, R125; log 3). -/
def inputSymbols (s : State) (read : Nat) : List Byte := (List.range s.inLen.toNat).map (s.symInAt read)

end Sys2Proof.Machine
end

