-- ==== Sys2Proof/Machine/BitWriter.lean ====
section
/-! DEFINITION. The bit-packer: the append laws and the commands BWINIT, WRBITS, PUTSYM and FINISH
(spec/41_bitwriter.md). -/

namespace Sys2Proof.Machine

/-! ### Appending -/

/-- `NewBytes(n)`: how many bytes appending `n` bits flushes (rule R93). -/
def newBytes (s : State) (n : Nat) : Nat := (8 - s.bwFree.toNat + n) / 8

/-- A byte with bit `i` replaced by `b`. -/
def setBit (v : Byte) (i : Nat) (b : Bool) : Byte :=
  (v &&& ~~~(BitVec.twoPow 8 i)) ||| (if b then BitVec.twoPow 8 i else 0#8)

/-- TOTAL_BITS + 1; past the register's width the spec states no result, so a free value (log 5). -/
def nextTotalBits (s : State) : Word :=
  if s.totalBits = BitVec.allOnes 32 then
    Config.anyTotalBits s.draws (8 * s.packLen.toNat + (8 - s.bwFree.toNat))
  else s.totalBits + 1#32

/-- The first three lines of AppendBit: the bit into slot FREE−1 (rule R92). -/
def fillSlot (s : State) (b : Bool) : State :=
  { s with
    bwCur := setBit s.bwCur (s.bwFree.toNat - 1) b
    bwFree := s.bwFree - 1#4
    totalBits := nextTotalBits s }

/-- CUR to PACK[PACK_LEN], PACK_LEN + 1, a fresh empty byte (rules R92, R98). -/
def flushByte (s : State) : State :=
  { s.writePack s.packLen.toNat s.bwCur with
    packLen := s.packLen + 1#32
    bwCur := 0#8
    bwFree := 8#4 }

/-- `AppendBit(b)` (rule R92). -/
def appendBit (s : State) (b : Bool) : State :=
  let t := fillSlot s b
  if t.bwFree = 0#4 then flushByte t else t

/-- The loop of AppendBits (rule R94). -/
def pushBits (s : State) (bits : List Bool) : State := bits.foldl appendBit s

/-- The admission of a multi-bit append, "computed as exact integers (no 32-bit wrap)" (rule R93). -/
def fits (s : State) (n : Nat) : Bool := decide (s.packLen.toNat + newBytes s n ≤ s.packCap)

/-- `AppendBits(bits)` (rule R94): all of them, or PACK_OVF and nothing. -/
def appendBits (s : State) (bits : List Bool) : Ended :=
  if fits s bits.length then .done (pushBits s bits) else .raise s .packOvf Detail.none

/-! ### The commands -/

/-- The pseudocode of BWINIT (rule R91): a fresh packer; PACK keeps its contents. -/
def packerInit (s : State) : State :=
  { s with
    packLen := 0#32
    bwCur := 0#8
    bwFree := 8#4
    bwFin := false
    totalBits := 0#32
    trail := 0#3 }

/-- BWINIT (rule R91). -/
def execBwinit (s : State) : Host.Outcome State Fault Refusal :=
  conclude (Instr.opcode .bwinit) (.done (packerInit s))

/-- The pseudocode of WRBITS (rule R96). A width above 32 is illegal (rules R66, R67); no word decodes to one
(log 9). -/
def wrbitsBody (width : Nat) (s : State) : Ended :=
  if wrbitsMax < width then .raise s .illegal Illegal.badWidth.detail
  else if s.bwFin then .raise s .sequence Detail.writerFinished
  else
    let e := appendBits s (argBits s width)
    if e.result = .ok then { e with trunc := truncFlag s width } else e

/-- WRBITS (rule R96). -/
def execWrbits (width : BitVec 6) (s : State) : Host.Outcome State Fault Refusal :=
  conclude (Instr.opcode (.wrbits width)) (wrbitsBody width.toNat s)

/-- The pseudocode of PUTSYM (rule R97). -/
def putsymBody (c : Byte) (s : State) : Ended :=
  if s.bwFin then .raise s .sequence Detail.writerFinished
  else if !s.validAt c then .raise s .noCode Detail.none
  else appendBits s (codeBits s c)

/-- PUTSYM (rule R97). -/
def execPutsym (sym : Byte) (s : State) : Host.Outcome State Fault Refusal :=
  conclude (Instr.opcode (.putsym sym)) (putsymBody sym s)

/-- The writes of FINISH once no check has raised (rule R98): the padded byte and its TRAIL, or nothing
partial and TRAIL 0. -/
def finishStream (s : State) : State :=
  if s.bwFree.toNat < 8 then
    { flushByte s with trail := s.bwFree.setWidth 3, bwFin := true }
  else
    { s with trail := 0#3, bwCur := 0#8, bwFree := 8#4, bwFin := true }

/-- The pseudocode of FINISH (rule R98). -/
def finishBody (s : State) : Ended :=
  if s.bwFin then .raise s .sequence Detail.writerFinished
  else if s.bwFree.toNat < 8 ∧ s.packCap < s.packLen.toNat + 1 then .raise s .packOvf Detail.none
  else .done (finishStream s)

/-- FINISH (rule R98). -/
def execFinish (s : State) : Host.Outcome State Fault Refusal :=
  conclude (Instr.opcode .finish) (finishBody s)

end Sys2Proof.Machine
end

