-- ==== Sys2Proof/Machine/CodeTable.lean ====
section
/-! DEFINITION. The tree check and the code-table builder: the commands TCHECK and CODES
(spec/44_code_table.md). -/

namespace Sys2Proof.Machine

/-! ### ValidTree -/

/-- The sets `visited` and `seen` of rule R116. -/
structure Visited where
  nodes : List Nat
  syms : List Byte
deriving DecidableEq, Repr

/-- More than any path of distinct nodes is long: a path below NODE_CNT ≤ 511 cannot use it up (log 10). -/
def visitFuel : Nat := 512

/-- `Visit(n)` of rule R116, "pre-order, child0 before child1": the sets after a visit without defect, else
the DETAIL of the first defect. A node is visited once without defect, and of its fields only SYM is read
twice, by the check of `seen` (read 0) and by its growth (read 1). -/
def visit (s : State) : Nat → NodeIx → Visited → Except Byte Visited
  | 0, _, _ => .error Detail.sharedOrCycle
  | fuel + 1, n, v =>
    let e := s.linkAt 0 n.toNat
    if n.toNat ∈ v.nodes then .error Detail.sharedOrCycle
    else if e.internal then
      if s.nodeCnt.toNat ≤ e.left.toNat then .error Detail.badChild
      else
        match visit s fuel e.left { v with nodes := n.toNat :: v.nodes } with
        | .error d => .error d
        | .ok v' =>
          if s.nodeCnt.toNat ≤ e.right.toNat then .error Detail.badChild
          else visit s fuel e.right v'
    else if e.sym ∈ v.syms then .error Detail.dupSymbol
    else .ok { nodes := n.toNat :: v.nodes, syms := (s.linkAt 1 n.toNat).sym :: v.syms }

/-- `ValidTree()` of rule R116: 0 when the tree is valid, else the DETAIL of the first defect. -/
def validTree (s : State) : Byte :=
  if s.root = nilIx then Detail.none
  else if Config.nodeMax < s.nodeCnt.toNat ∨ s.nodeCnt.toNat ≤ s.root.toNat then Detail.badRoot
  else
    match visit s visitFuel s.root ⟨[], []⟩ with
    | .error d => d
    | .ok _ => Detail.none

/-- The pseudocode of TCHECK (rule R117). -/
def tcheckBody (s : State) : Ended :=
  if validTree s ≠ Detail.none then .raise s .malformed (validTree s) else .done s

/-- TCHECK (rule R117). -/
def execTcheck (s : State) : Host.Outcome State Fault Refusal :=
  conclude (Instr.opcode .tcheck) (tcheckBody s)

/-! ### CODES -/

/-- The read of NODE[ROOT] that tells a single Leaf, after ValidTree's (rules R118, R129). -/
def rootRead : Nat := 2

/-- The read of a node by the call of Walk with pattern `p` and length `l`: each call has its own (rule R119). -/
def walkRead (p l : Nat) : Nat := rootRead + 2 ^ l + p

/-- "Every l reached is at most 255" (rule R119): that many lengths (log 10). -/
def walkDepth : Nat := 256

/-- The pattern and length of the code of a Leaf that Walk meets with pattern `p` and length `l`: these (rule R119).
At `l` = 0 the Leaf is an unwritten root that CODES has just read as Internal (rule R42). No code has length 0
(rules R33 and R121, C6), and the spec states no other for it, so the code is a free one of the lengths and patterns
rule R121 (a) allows (log 24). -/
def leafCode (tree : State) (p l : Nat) : Nat × Nat :=
  if l = 0 then
    let len := (Config.anyRootLenLessOne tree.draws).val + 1
    ((Config.anyRootPat tree.draws).toNat % 2 ^ len, len)
  else (p, l)

/-- `Walk(n, p, l)` of rule R119 over the tree of `tree`, writing the codes into the state walked with. DESIGN
CHOICE, of an unwritten tree, whose nodes each call reads anew (rule R42): below length 255 no code is given, and an
index that names no entry is read as a draw (log 10). -/
def walk (tree : State) : Nat → NodeIx → Nat → Nat → State → State
  | 0, _, _, _, s => s
  | fuel + 1, n, p, l, s =>
    let e := tree.linkAt (walkRead p l) n.toNat
    if e.internal then
      walk tree fuel e.right (2 * p + 1) (l + 1) (walk tree fuel e.left (2 * p) (l + 1) s)
    else
      let code := leafCode tree p l
      s.writeCode e.sym code.1 code.2

/-- The body of CODES once the tree is valid (rules R118 to R120): the table cleared, then no code for the
empty tree, the one-bit code 0 for a single Leaf, the walk otherwise. -/
def buildCodes (s : State) : State :=
  let t := s.clearCodes
  let e := s.linkAt rootRead s.root.toNat
  if s.root = nilIx then t
  else if e.internal then walk s walkDepth s.root 0 0 t
  else t.writeCode e.sym 0 1

/-- The pseudocode of CODES (rule R118). -/
def codesBody (s : State) : Ended :=
  if validTree s ≠ Detail.none then .raise s .malformed (validTree s) else .done (buildCodes s)

/-- CODES (rule R118). -/
def execCodes (s : State) : Host.Outcome State Fault Refusal :=
  conclude (Instr.opcode .codes) (codesBody s)

end Sys2Proof.Machine
end

