-- ==== Sys2Proof/Machine/Control.lean ====
section
/-! DEFINITION. The control commands NOP and CLEAR (spec/40_control.md rules R84, R85). -/

namespace Sys2Proof.Machine

/-- NOP (rule R84): nothing but the completion. -/
def execNop (s : State) : Host.Outcome State Fault Refusal :=
  conclude (Instr.opcode .nop) (.done s)

/-- The pseudocode of CLEAR (rule R85): registers and CODE_VALID to their reset values; "FREQ, NODE,
CODE_LEN, CODE_PAT, SYM_IN, PACK and SYM_OUT keep their contents". -/
def clearBody (s : State) : State :=
  { s with
    arg := 0#32
    inLen := 0#32
    root := nilIx
    nodeCnt := 0#10
    packLen := 0#32
    trail := 0#3
    symCnt := 0#32
    outLen := 0#32
    totalBits := 0#32
    bwCur := 0#8
    bwFree := 8#4
    bwFin := false
    brPos := 0#32
    brBit := 7#3
    brCursor := nilIx
    codeValid := 0#256 }

/-- CLEAR (rule R85). -/
def execClear (s : State) : Host.Outcome State Fault Refusal :=
  conclude (Instr.opcode .clear) (.done (clearBody s))

end Sys2Proof.Machine
end

