-- ==== Sys2Proof/Machine/Decoder.lean ====
section
/-! DEFINITION. The decoder: the command DECODE (spec/46_decoder.md). -/

namespace Sys2Proof.Machine

/-- The result and detail a part of DECODE raises. -/
abbrev Raised := Result × Byte

/-- The reads of nodes at the reader's position: the child of the cursor, then INTERNAL and SYM of that child,
each field once (rule R130). -/
def bitRead (s : State) : Nat := rootRead + 1 + 8 * s.brPos.toNat + (7 - s.brBit.toNat)

/-- The child of `cur` the reader's bit selects: "child0 on a 0 bit, child1 on a 1 bit" (rule R130). -/
def followBit (s : State) (cur : NodeIx) : NodeIx :=
  let e := s.linkAt (bitRead s) cur.toNat
  if currentBit s then e.right else e.left

/-- NextBit() and the cursor moved to `n` (rules R128, R130). -/
def moveCursor (s : State) (n : NodeIx) : State := { advanceReader s with brCursor := n }

/-- SYM_OUT[out] <- c and the cursor "reset to the root on every completed symbol" (rule R130). -/
def emitSymbol (s : State) (out : Nat) (c : Byte) : State :=
  { s.writeSymOut out c with brCursor := s.root }

/-- The end of the stream: the cursor must be at the root (rule R130). -/
def endGeneral (cur : NodeIx) (out : Nat) (s : State) : Except Raised (State × Nat) :=
  if cur ≠ s.root then .error (.malformed, Detail.endsMidCode) else .ok (s, out)

/-- `DecodeGeneral()` of rule R130 from cursor `cur` with `out` symbols written: the state and count it ends
with. `fuel` bounds the bits read; there are at most 8×PACK_LEN (rule R82; log 10). Of a written tree "every child
followed is in range". DESIGN CHOICE, of an unwritten one, whose nodes each bit reads anew (rule R42): a child at or
above NODE_CNT is followed to the entry there, and at index 511, which names no entry (rule R4), a draw is read
(log 10). -/
def decodeGeneral : Nat → NodeIx → Nat → State → Except Raised (State × Nat)
  | 0, cur, out, s => endGeneral cur out s
  | fuel + 1, cur, out, s =>
    if significant s then
      let n := followBit s cur
      let e := s.linkAt (bitRead s) n.toNat
      if e.internal then decodeGeneral fuel n out (moveCursor s n)
      else if out = s.symCap then .error (.outOvf, Detail.none)
      else decodeGeneral fuel s.root (out + 1) (emitSymbol (moveCursor s n) out e.sym)
    else endGeneral cur out s

/-- The end of the stream: the count must be the one persisted (rule R131). -/
def endDegenerate (out : Nat) (s : State) : Except Raised (State × Nat) :=
  if out ≠ s.symCnt.toNat then .error (.malformed, Detail.degenCount) else .ok (s, out)

/-- `DecodeDegenerate()` of rule R131 for the single Leaf's symbol `c`. -/
def decodeDegenerate (c : Byte) : Nat → Nat → State → Except Raised (State × Nat)
  | 0, out, s => endDegenerate out s
  | fuel + 1, out, s =>
    if significant s then
      if currentBit s then .error (.malformed, Detail.degenOneBit)
      else if out = s.symCap then .error (.outOvf, Detail.none)
      else decodeDegenerate c fuel (out + 1) ((advanceReader s).writeSymOut out c)
    else endDegenerate out s

/-- The branch on the root's kind (rule R129). -/
def decodeStream (s : State) : Except Raised (State × Nat) :=
  let e := s.linkAt rootRead s.root.toNat
  let fuel := 8 * s.packLen.toNat
  if e.internal then decodeGeneral fuel s.root 0 s else decodeDegenerate e.sym fuel 0 s

/-- What a DECODE that raises leaves (rule R133): OUT_LEN 0; BR_POS, BR_STATE and every entry of SYM_OUT
`any`, drawn here and held (log 4). -/
def decodeFailed (s : State) : State :=
  { s with
    outLen := 0#32
    brPos := Config.anyBrPos s.draws
    brBit := Config.anyBrBit s.draws
    brCursor := Config.anyBrCursor s.draws
    symOut := Memory.tabulate s.symCap (Config.anyFailedOut s.draws) }

/-- The pseudocode of DECODE (rule R129), each raise with the effects of rule R133. -/
def decodeBody (s : State) : Ended :=
  if s.packCap < s.packLen.toNat then .raise (decodeFailed s) .lenRange Detail.packLenRange
  else if s.packLen = 0#32 ∧ s.trail ≠ 0#3 then .raise (decodeFailed s) .malformed Detail.trailNoData
  else
    let t := readerInit s
    if s.root = nilIx then .done t
    else if validTree s ≠ Detail.none then .raise (decodeFailed s) .malformed (validTree s)
    else
      match decodeStream t with
      | .error (code, detail) => .raise (decodeFailed s) code detail
      | .ok (u, out) => .done { u with outLen := BitVec.ofNat 32 out }

/-- DECODE (rule R129). -/
def execDecode (s : State) : Host.Outcome State Fault Refusal :=
  conclude (Instr.opcode .decode) (decodeBody s)

end Sys2Proof.Machine
end

