-- ==== Sys2Proof/Machine/TreeBuilder.lean ====
section
/-! DEFINITION. The frequency table and the tree builder: the commands FCLR, FADD, FCOUNT and BUILD
(spec/43_tree_builder.md). -/

namespace Sys2Proof.Machine

/-! ### The frequency table -/

/-- FCLR (rule R105). -/
def execFclr (s : State) : Host.Outcome State Fault Refusal :=
  conclude (Instr.opcode .fclr) (.done s.clearFreq)

/-- `FREQ[s] + 1` of FADD, FREQ[s] read anew after the check. "The counter does not wrap": a written one is below
its maximum here, and where the new read of an unwritten one gives the maximum, the spec states no result, so a
free value (log 22). -/
def incremented (s : State) (c : Byte) : Word :=
  if s.freqAt 1 c.toNat = BitVec.allOnes 32 then Config.anyCounter s.draws c.toNat
  else s.freqAt 1 c.toNat + 1#32

/-- The pseudocode of FADD (rule R106): "the counter does not wrap or saturate; it is left unchanged". The
counter is read by the check and again by the increment. -/
def faddBody (c : Byte) (s : State) : Ended :=
  if s.freqAt 0 c.toNat = BitVec.allOnes 32 then .raise s .freqOvf Detail.none
  else .done (s.writeFreq c (incremented s c))

/-- FADD (rule R106). -/
def execFadd (sym : Byte) (s : State) : Host.Outcome State Fault Refusal :=
  conclude (Instr.opcode (.fadd sym)) (faddBody sym s)

/-- `FREQ[c] <- FREQ[c] + 1` of the counting loops, which run on counters just cleared (rules R111, R125). -/
def countSymbol (s : State) (c : Byte) : State := s.writeFreq c (s.freqAt 0 c.toNat + 1#32)

/-- The two loops of FCOUNT: FREQ cleared, then one count per buffered symbol (rule R111). -/
def countInput (s : State) : State := (inputSymbols s 0).foldl countSymbol s.clearFreq

/-- The pseudocode of FCOUNT (rule R111). -/
def fcountBody (s : State) : Ended :=
  if s.symCap < s.inLen.toNat then .raise s .lenRange Detail.inLenRange
  else .done (countInput s)

/-- FCOUNT (rule R111). -/
def execFcount (s : State) : Host.Outcome State Fault Refusal :=
  conclude (Instr.opcode .fcount) (fcountBody s)

/-! ### The priority queue -/

/-- A queue entry `(weight, key, index)` (rule R107); weights are exact integers. -/
structure QEntry where
  weight : Nat
  key : Nat
  index : Nat
deriving DecidableEq, Repr

/-- The order of removeMin: "smaller weight first, and among equal weights the smaller key" (rule R107). -/
def QEntry.before (a b : QEntry) : Bool :=
  decide (a.weight < b.weight) || (decide (a.weight = b.weight) && decide (a.key < b.key))

/-- Insert into the queue, which is held in the order of removeMin, so that its head is the least entry
(rules R39, R107; log 14). -/
def enqueue (e : QEntry) : List QEntry → List QEntry
  | [] => [e]
  | x :: q => if e.before x then e :: x :: q else x :: enqueue e q

/-! ### BUILD

The rule reads FREQ[s] for the total, for `leaves`, for the Leaf's WEIGHT and for the queue: the reads 0 to 3. -/

/-- `leaves`: the symbols with FREQ[s] > 0, ascending (rule R112). -/
def leafSymbols (s : State) : List Nat :=
  (List.range Config.alphabet).filter fun c => decide (s.freqAt 1 c ≠ 0#32)

/-- `total`: the exact sum of FREQ (rule R112). -/
def totalWeight (s : State) : Nat :=
  ((List.range Config.alphabet).map fun c => (s.freqAt 0 c).toNat).sum

/-- NODE[j] <- the Leaf of the j-th leaf symbol (rule R110). -/
def placeLeaf (freq : Nat → Word) (s : State) (leaf : Nat × Nat) : State :=
  s.writeNode leaf.2 (NodeLink.leaf (BitVec.ofNat 8 leaf.1)) (freq leaf.1)

/-- The queue once all leaves are in (rule R112). -/
def leafQueue (s : State) : List QEntry :=
  (leafSymbols s).zipIdx.foldl (fun q leaf => enqueue ⟨(s.freqAt 3 leaf.1).toNat, leaf.1, leaf.2⟩ q) []

/-- The WEIGHT of the Internal node at `next`. "No weight sum can exceed 32 bits once the total fits" when every
FREQ entry has been written; a larger sum of unwritten ones has no stated result, so a free value (log 22). -/
def mergedWeight (s : State) (next sum : Nat) : Word :=
  if sum < 2 ^ 32 then BitVec.ofNat 32 sum else Config.anyMergeWeight s.draws next

/-- The merge loop of rule R112: the first entry removed becomes LEFT, the second RIGHT (rule R109); `next`
is the node written, `m` the number of the merge. The queue shrinks by one per merge, so its length bounds
the loop (rule R114; log 10). -/
def mergeLoop : Nat → List QEntry → Nat → Nat → State → State
  | fuel + 1, x :: y :: q, next, m, s =>
    mergeLoop fuel (enqueue ⟨x.weight + y.weight, Config.alphabet + m, next⟩ q) (next + 1) (m + 1)
      (s.writeNode next (NodeLink.inner (BitVec.ofNat 9 x.index) (BitVec.ofNat 9 y.index))
        (mergedWeight s next (x.weight + y.weight)))
  | _, _, _, _, s => s

/-- The body of BUILD once the total fits (rules R110, R112): codes invalidated, leaves placed, merges done. -/
def buildTree (s : State) : State :=
  let leaves := leafSymbols s
  let k := leaves.length
  let t := s.invalidateCodes
  if k = 0 then { t with root := nilIx, nodeCnt := 0#10, symCnt := 0#32 }
  else
    { mergeLoop k (leafQueue s) k 0 (leaves.zipIdx.foldl (placeLeaf (s.freqAt 2)) t) with
      root := BitVec.ofNat 9 (2 * k - 2)
      nodeCnt := BitVec.ofNat 10 (2 * k - 1)
      symCnt := BitVec.ofNat 32 (totalWeight s) }

/-- The pseudocode of BUILD (rule R112). -/
def buildBody (s : State) : Ended :=
  if 2 ^ 32 ≤ totalWeight s then .raise s .weightOvf Detail.none
  else .done (buildTree s)

/-- BUILD (rule R112). -/
def execBuild (s : State) : Host.Outcome State Fault Refusal :=
  conclude (Instr.opcode .build) (buildBody s)

end Sys2Proof.Machine
end

