-- ==== Sys2Proof/Machine/Encoder.lean ====
section
/-! DEFINITION. The encoder: the command ENCODE, made of the bodies of FCOUNT, BUILD, BWINIT, CODES, PUTSYM
and FINISH (spec/45_encoder.md rules R123 to R125). -/

namespace Sys2Proof.Machine

/-- `total_bits`: the sum of FREQ[s] × CODE_LEN[s] over the symbols with a code (rule R125). -/
def encodedBits (s : State) : Nat :=
  ((List.range Config.alphabet).map fun c =>
    if s.validAt (BitVec.ofNat 8 c) then
      (s.freqAt 0 c).toNat * (s.codeLenAt (BitVec.ofNat 8 c)).toNat
    else 0).sum

/-- Step 4 for one input byte: its code appended (rule R125). -/
def putCode (s : State) (c : Byte) : State := pushBits s (codeBits s c)

/-- Steps 4 and 5: the codes of the symbols in order, then the body of FINISH, each with the check of its own
rule (rules R94, R98, R125). -/
def packSymbols : List Byte → State → Ended
  | [], s => finishBody s
  | c :: cs, s =>
    if fits s (codeBits s c).length then packSymbols cs (putCode s c) else .raise s .packOvf Detail.none

/-- The state before packing: FREQ counted, the tree built, the packer fresh (rule R125, steps 1, 3, 4). -/
def encodeTree (s : State) : State := packerInit (buildTree (countInput s))

/-- The pseudocode of ENCODE (rule R125). On PACK_OVF "the frequency table, tree and code table are those ENCODE
built ..., the packer is as after BWINIT ..., and PACK is unchanged", the state `u`. FREQ, the tree and the codes
are written when they are read; SYM_IN is read for the counting and again for the packing. Of a written input both
reads see the same values and packing "cannot raise". DESIGN CHOICE: where an unwritten entry is read as another
symbol (rule R42) and the codes no longer fit, the packing raises PACK_OVF with the same effects (log 23).
DEDUCED: of empty input it returns before the body of CODES, so CODE_LEN and CODE_PAT keep their contents,
although rule R123 says that the stepwise route, whose CODES clears them, gives the same state (log 25). -/
def encodeBody (s : State) : Ended :=
  if s.symCap < s.inLen.toNat then .raise s .lenRange Detail.inLenRange
  else
    let t := encodeTree s
    if t.root = nilIx then .done { t with bwFin := true }
    else
      let u := buildCodes t
      if u.packCap < (encodedBits u + 7) / 8 then .raise u .packOvf Detail.none
      else
        let e := packSymbols (inputSymbols u 1) u
        if e.result = .ok then e else .raise u .packOvf Detail.none

/-- ENCODE (rule R125). -/
def execEncode (s : State) : Host.Outcome State Fault Refusal :=
  conclude (Instr.opcode .encode) (encodeBody s)

end Sys2Proof.Machine
end

