-- ==== Sys2Proof/Machine/Dispatch.lean ====
section
/-! DEFINITION. One arm per command of spec/30_encoding.md rule R65, each one call of its meaning. -/

namespace Sys2Proof.Machine

def exec (i : Instr) (s : State) : Host.Outcome State Fault Refusal :=
  match i with
  | .nop => Sys2Proof.Machine.execNop s
  | .clear => Sys2Proof.Machine.execClear s
  | .bwinit => Sys2Proof.Machine.execBwinit s
  | .wrbits width => Sys2Proof.Machine.execWrbits width s
  | .putsym sym => Sys2Proof.Machine.execPutsym sym s
  | .finish => Sys2Proof.Machine.execFinish s
  | .brinit => Sys2Proof.Machine.execBrinit s
  | .rdbit => Sys2Proof.Machine.execRdbit s
  | .fclr => Sys2Proof.Machine.execFclr s
  | .fadd sym => Sys2Proof.Machine.execFadd sym s
  | .fcount => Sys2Proof.Machine.execFcount s
  | .build => Sys2Proof.Machine.execBuild s
  | .tcheck => Sys2Proof.Machine.execTcheck s
  | .codes => Sys2Proof.Machine.execCodes s
  | .encode => Sys2Proof.Machine.execEncode s
  | .decode => Sys2Proof.Machine.execDecode s

end Sys2Proof.Machine
end

