-- ==== Sys2Proof/Machine/Port.lean ====
section
/-! DEFINITION. The host port: the address map, host reads and writes, submitting a command, hardware reset
and whose move it is (spec/20_memory.md; spec/40_control.md rule R80; spec/70_reset_and_hazards.md). -/

namespace Sys2Proof.Machine

/-! ### Registers and the address map -/

/-- ID (rule R12). -/
def idValue : Word := 0x48554646#32

/-- VERSION (rule R13). -/
def versionValue : Word := 0x00000001#32

/-- The registers in the order of their offsets, 4 bytes apart from 0x000 (rules R11, R45). -/
def registers : List Reg :=
  [.id, .version, .cmd, .arg, .status, .inLen, .root, .nodeCnt, .packLen, .trail, .symCnt, .outLen,
    .totalBits, .bwState, .brPos, .brState, .symCap, .packCap]

/-- What a word of the host port is (rule R44). -/
inductive Loc where
  | reg (r : Reg)
  | freq (c : Nat)
  | nodeLink (i : Nat)
  | nodeWeight (i : Nat)
  | codeLen (c : Nat)
  | codePat (c w : Nat)
  | symIn (i : Nat)
  | pack (i : Nat)
  | symOut (i : Nat)
  | unmapped
deriving DecidableEq, Repr

/-- The number of the word an address reaches: bits [1:0] are not decoded (rule R43). -/
def wordIndex (a : Addr) : Nat := a.toNat / 4

/-- The address map of rule R44, by word number; a byte-window word past its memory's capacity is as good as
unmapped (rule R51). -/
def locate (symCap packCap : Nat) (a : Addr) : Loc :=
  let n := wordIndex a
  if n < 0x100 then
    match registers[n]? with
    | some r => .reg r
    | none => .unmapped
  else if n < 0x200 then .freq (n - 0x100)
  else if n < 0x400 then .unmapped
  else if n < 0x7FE then
    if n % 2 = 0 then .nodeLink ((n - 0x400) / 2) else .nodeWeight ((n - 0x400) / 2)
  else if n < 0x800 then .unmapped
  else if n < 0x900 then .codeLen (n - 0x800)
  else if n < 0x1000 then .unmapped
  else if n < 0x1800 then .codePat ((n - 0x1000) / 8) (n % 8)
  else if n < 0x40000 then .unmapped
  else if n < 0x80000 then if n - 0x40000 < symCap then .symIn (n - 0x40000) else .unmapped
  else if n < 0xC0000 then if n - 0x80000 < packCap then .pack (n - 0x80000) else .unmapped
  else if n - 0xC0000 < symCap then .symOut (n - 0xC0000)
  else .unmapped

/-- What the address names in this block. -/
def State.locate (s : State) (a : Addr) : Loc := Machine.locate s.symCap s.packCap a

/-! ### Host reads -/

/-- A register as the host reads it while BUSY = 0, reserved bits 0 (rules R11, R45). -/
def State.readReg (s : State) : Reg → Word
  | .id => idValue
  | .version => versionValue
  | .cmd => 0#32
  | .arg => s.arg
  | .status => s.statusWord
  | .inLen => s.inLen
  | .root => s.root.setWidth 32
  | .nodeCnt => s.nodeCnt.setWidth 32
  | .packLen => s.packLen
  | .trail => s.trail.setWidth 32
  | .symCnt => s.symCnt
  | .outLen => s.outLen
  | .totalBits => s.totalBits
  | .bwState => s.bwStateWord
  | .brPos => s.brPos
  | .brState => s.brStateWord
  | .symCap => BitVec.ofNat 32 s.symCap
  | .packCap => BitVec.ofNat 32 s.packCap

/-- A word as the host reads it while BUSY = 0 (rules R45 to R51). -/
def State.readLoc (s : State) : Loc → Word
  | .reg r => s.readReg r
  | .freq c => s.freqAt 0 c
  | .nodeLink i => (s.linkAt 0 i).toWord
  | .nodeWeight i => s.weightAt i
  | .codeLen c =>
    (BitVec.ofBool (s.validAt (BitVec.ofNat 8 c)) ++ 0#23) ++ s.codeLenAt (BitVec.ofNat 8 c)
  | .codePat c w => (s.codePatAt (BitVec.ofNat 8 c)).extractLsb' (32 * w) 32
  | .symIn i => (s.symInAt 0 i).setWidth 32
  | .pack i => (s.packAt i).setWidth 32
  | .symOut i => (s.symOutAt i).setWidth 32
  | .unmapped => 0#32

/-- A word as the host reads it while BUSY = 1: the four constants as ever, STATUS with bit 0 = 1 and `any`
above, anything else `any` (rule R52). -/
def State.readBusy (s : State) : Loc → Word
  | .reg .id => idValue
  | .reg .version => versionValue
  | .reg .symCap => BitVec.ofNat 32 s.symCap
  | .reg .packCap => BitVec.ofNat 32 s.packCap
  | .reg .status => Config.anyBusyRead s.draws ||| 1#32
  | _ => Config.anyBusyRead s.draws

/-- The value `MemRead(a, 4)` returns (rules R43, R52). -/
def State.hostValue (s : State) (a : Addr) : Word :=
  if s.busy then s.readBusy (s.locate a) else s.readLoc (s.locate a)

/-- A host read: its value into the observation, and nothing else ("Reads have no side effects at any
address", rule R56). The draws of the read are used up (log 2). -/
def State.hostRead (s : State) (a : Addr) : State :=
  { s with readLog := s.readLog ++ [s.hostValue a], draws := s.draws + 1 }

/-! ### Host writes -/

/-- Acceptance of a command word (rule R80): the latch and BUSY, nothing else. -/
def State.accept (s : State) (w : Word) : State := { s with latch := some w, busy := true }

/-- A register write while BUSY = 0: the named bits of an RW register, a command for CMD, nothing for an RO
register (rules R11, R45). -/
def State.writeReg (s : State) (r : Reg) (v : Word) : State :=
  match r with
  | .cmd => s.accept v
  | .arg => { s with arg := v }
  | .inLen => { s with inLen := v }
  | .root => { s with root := v.extractLsb' 0 9 }
  | .nodeCnt => { s with nodeCnt := v.extractLsb' 0 10 }
  | .packLen => { s with packLen := v }
  | .trail => { s with trail := v.extractLsb' 0 3 }
  | .symCnt => { s with symCnt := v }
  | .id | .version | .status | .outLen | .totalBits | .bwState | .brPos | .brState | .symCap
  | .packCap => s

/-- A word written while BUSY = 0: the fields of an RW window, nothing for CODE_LEN, CODE_PAT, SYM_OUT and
unmapped words (rules R46 to R51). -/
def State.writeLoc (s : State) (l : Loc) (v : Word) : State :=
  match l with
  | .reg r => s.writeReg r v
  | .freq c => s.writeFreq (BitVec.ofNat 8 c) v
  | .nodeLink i => s.writeLink i (NodeLink.ofWord v)
  | .nodeWeight i => s.writeWeight i v
  | .symIn i => s.writeSymIn i (v.extractLsb' 0 8)
  | .pack i => s.writePack i (v.extractLsb' 0 8)
  | .codeLen _ | .codePat _ _ | .symOut _ | .unmapped => s

/-- `MemWrite(a, 4, v)`; while BUSY = 1 it "is dropped" (rule R52). -/
def State.hostWrite (s : State) (a : Addr) (v : Word) : State :=
  if s.busy then s else s.writeLoc (s.locate a) v

/-! ### Hardware reset -/

/-- Hardware reset at any time (rules R155, R157): the reset state of the same instance, with an accepted
command abandoned. The host's own list, what it has read and the number of the next draw are no state of the
block and stay (log 13). -/
def State.hardwareReset (s : State) : State :=
  { State.resetOf s.symCap s.packCap with
    port := s.port
    readLog := s.readLog
    draws := s.draws + 1 }

/-! ### Whose move it is -/

/-- The byte address of STATUS (rule R11). -/
def statusAddr : Addr := 0x010#22

/-- The byte address of CMD (rule R11). -/
def cmdAddr : Addr := 0x008#22

/-- The state with the rest of the host's list. -/
def State.withPort (s : State) (rest : List HostOp) : State := { s with port := rest }

/-- The host's move, if it makes one: none where it leaves the move to the engine, which is when its list has
run out, when it idles, and when its POLL is to see no more reads with BUSY = 1 (rules R57, R69; log 6). -/
def State.hostMove (s : State) : Option State :=
  match s.port with
  | [] => none
  | .idle :: _ => none
  | .write a v :: rest => some ((s.withPort rest).hostWrite a v)
  | .read a :: rest => some ((s.withPort rest).hostRead a)
  | .check a mask v :: rest =>
    some ((s.withPort (if s.hostValue a &&& mask = v then rest else [])).hostRead a)
  | .reset :: rest => some (s.withPort rest).hardwareReset
  | .poll n :: rest =>
    if s.busy then
      match n with
      | 0 => none
      | k + 1 => some ((s.withPort (.poll k :: rest)).hostRead statusAddr)
    else some ((s.withPort rest).hostRead statusAddr)

/-- The state the engine moves in: an idling host has idled once, a polling host still polls. -/
def State.yielded (s : State) : State :=
  match s.port with
  | .idle :: rest => s.withPort rest
  | _ => s

end Sys2Proof.Machine
end

