-- ==== Sys2Proof/Machine/Engine.lean ====
section
/-! DEFINITION. The engine: decode the latched word, then perform the command or complete with ILLEGAL
(spec/40_control.md rules R81, R82; spec/30_encoding.md rule R66). -/

namespace Sys2Proof.Machine

/-- A word that is no command: "An illegal command changes nothing but the STATUS fields" (rule R66). -/
def rejectWord (w : Word) (why : Illegal) (s : State) : Host.Outcome State Fault Refusal :=
  conclude (opField w) (.raise s .illegal why.detail)

/-- The engine's transition: the latched word performed and completed; with an empty latch nothing happens,
the block waits for a command (rules R81, R82, R156; log 17). -/
def engineStep (s : State) : Host.Outcome State Fault Refusal :=
  match s.latch with
  | none => .next s
  | some w =>
    match decode w with
    | .ok i => exec i s
    | .error why => rejectWord w why s

/-- Where the next instruction is taken from: the command latch holds `w` (rule R80), and a host with a
pending access first idles once, so that the engine moves next (log 7). -/
def State.withCommand (s : State) (w : Word) : State :=
  { s.accept w with
    port := match s.port with
      | [] => []
      | .idle :: rest => .idle :: rest
      | op :: rest => .idle :: op :: rest }

end Sys2Proof.Machine
end

