-- ==== Sys2Proof/Machine/Step.lean ====
section
/-! DEFINITION. One step of the block: one host access, or one transition of the engine
(spec/20_memory.md rule R57). -/

namespace Sys2Proof.Machine

/-- The host's move if it makes one, else the engine's (rule R57). -/
def step (s : State) : Host.Outcome State Fault Refusal :=
  match s.hostMove with
  | some t => .next t
  | none => engineStep s.yielded

/-- `s` with the command of a table row's word where `step` takes its next instruction. -/
def State.withFetchWord (s : State) (nbits w : Nat) : State := s.withCommand (tableWord nbits w)

end Sys2Proof.Machine
end

