-- ==== Sys2Proof/Machine/Assembler.lean ====
section
/-! DEFINITION. The host-program syntax of spec/30_encoding.md rules R69 and R70 as host accesses: what a
program puts into `State.port`. -/

namespace Sys2Proof.Machine

/-- The position of a register in the register block. -/
def Reg.offset (r : Reg) : Nat := 4 * registers.idxOf r

/-- `addr(loc)` (rules R44, R69). An unmapped word is named by its numeric address, so it has none here. -/
def Loc.addr : Loc → Option Addr
  | .reg r => some (BitVec.ofNat 22 r.offset)
  | .freq c => some (BitVec.ofNat 22 (0x000400 + 4 * c))
  | .nodeLink i => some (BitVec.ofNat 22 (0x001000 + 8 * i))
  | .nodeWeight i => some (BitVec.ofNat 22 (0x001004 + 8 * i))
  | .codeLen c => some (BitVec.ofNat 22 (0x002000 + 4 * c))
  | .codePat c w => some (BitVec.ofNat 22 (0x004000 + 32 * c + 4 * w))
  | .symIn i => some (BitVec.ofNat 22 (0x100000 + 4 * i))
  | .pack i => some (BitVec.ofNat 22 (0x200000 + 4 * i))
  | .symOut i => some (BitVec.ofNat 22 (0x300000 + 4 * i))
  | .unmapped => none

/-- Which locations exist in a block of the given capacities (rule R44). -/
def Loc.exists (symCap packCap : Nat) : Loc → Bool
  | .reg _ => true
  | .freq c | .codeLen c => decide (c < 256)
  | .nodeLink i | .nodeWeight i => decide (i < 511)
  | .codePat c w => decide (c < 256) && decide (w < 8)
  | .symIn i | .symOut i => decide (i < symCap)
  | .pack i => decide (i < packCap)
  | .unmapped => false

/-- A place in a statement: a name or a numeric byte address (rule R69). -/
inductive Place where
  | loc (l : Loc)
  | addr (a : Addr)
deriving DecidableEq, Repr

/-- The address of a place, none for a name the map has no word for. -/
def Place.toAddr : Place → Option Addr
  | .loc l => if l.exists Config.capMax Config.capMax then l.addr else none
  | .addr a => some a

/-- The statements and pseudo-instructions of rules R69 and R70, already parsed (log 19). Symbols and widths are
numbers as written, so that the assembler can refuse them. -/
inductive Stmt where
  | wr (p : Place) (v : Word)
  | rd (p : Place)
  | poll
  | command (i : Instr)
  | putsym (sym : Nat)
  | fadd (sym : Nat)
  | wrbits (width : Nat)
  | wrbitsi (v : Word) (width : Nat)
  | loadin (bytes : List Byte)
  | putstr (bytes : List Byte)
  | faddstr (bytes : List Byte)
  | check (p : Place) (v : Word)
  | checkok
deriving DecidableEq, Repr

/-- `WR CMD, word` then `POLL` (rule R69). `polls` is the number of STATUS
reads with BUSY = 1 that the POLL sees, which rule R167 leaves open (log 6). -/
def commandOps (polls : Nat) (i : Instr) : List HostOp :=
  [.write cmdAddr (encode i), .poll polls]

/-- A command statement: refused unless it has a legal encoding, since the assembler "never emits an illegal
command word" (rule R69). -/
def assembleCommand (polls : Nat) (i : Instr) : Option (List HostOp) :=
  if i.wellFormed then some (commandOps polls i) else none

/-- LOADIN (rule R70): the bytes into SYM_IN[0..], then the length into IN_LEN. DESIGN CHOICE: more than 262144
bytes are refused, since rule R44 gives SYM_IN[262144] and up no address and the spec says nothing of them
(log 21). -/
def loadinOps (bytes : List Byte) : Option (List HostOp) :=
  if bytes.length ≤ Config.capMax then
    some (bytes.zipIdx.map (fun b => .write (BitVec.ofNat 22 (0x100000 + 4 * b.2)) (b.1.setWidth 32)) ++
      [.write 0x014#22 (BitVec.ofNat 32 bytes.length)])
  else none

/-- The accesses of a statement; none where the assembler refuses it, "a symbol above 255, a width above 32
and an unknown mnemonic" (rule R69). CHECKOK compares STATUS bits [15:8] with 0x00 (rule R70).

DESIGN CHOICE (log 6): rule R167 leaves open when a command completes, and this scheduling is one of those it
allows. No `idle` is emitted, so after a plain `WR CMD` the statements before the next POLL all find BUSY = 1,
and every POLL of a program sees the one number `polls` of reads with BUSY = 1. Any other schedule is a list of
host accesses too, which claims about every state cover. -/
def Stmt.assemble (polls : Nat) : Stmt → Option (List HostOp)
  | .wr p v => p.toAddr.map fun a => [.write a v]
  | .rd p => p.toAddr.map fun a => [.read a]
  | .poll => some [.poll polls]
  | .command i => assembleCommand polls i
  | .putsym c => if c < 256 then assembleCommand polls (.putsym (BitVec.ofNat 8 c)) else none
  | .fadd c => if c < 256 then assembleCommand polls (.fadd (BitVec.ofNat 8 c)) else none
  | .wrbits w => if w ≤ wrbitsMax then assembleCommand polls (.wrbits (BitVec.ofNat 6 w)) else none
  | .wrbitsi v w =>
    if w ≤ wrbitsMax then
      some (.write 0x00C#22 v :: commandOps polls (.wrbits (BitVec.ofNat 6 w)))
    else none
  | .loadin bytes => loadinOps bytes
  | .putstr bytes => some (bytes.flatMap fun b => commandOps polls (.putsym b))
  | .faddstr bytes => some (bytes.flatMap fun b => commandOps polls (.fadd b))
  | .check p v => p.toAddr.map fun a => [.check a (BitVec.allOnes 32) v]
  | .checkok => some [.check statusAddr 0x0000FF00#32 0#32]

/-- A host program: its statements in order, refused if one is (rule R69). -/
def assemble (polls : Nat) : List Stmt → Option (List HostOp)
  | [] => some []
  | st :: rest =>
    match st.assemble polls, assemble polls rest with
    | some ops, some more => some (ops ++ more)
    | _, _ => none

end Sys2Proof.Machine
end

