-- ==== Sys2Proof/Safety.lean ====
section
/-! DEFINITION. The terms in which claims about the block are stated: the invariant of its states, the bit
streams the packer and the reader stand for, the paths of the tree, and sequences of commands. -/

namespace Sys2Proof.Machine

/-- What holds of the state at reset and after every step: the ranges of the parameters (rule R4) and of
FREE (rule R27), the free slots 0 (rules R27, R92), BUSY exactly while the latch holds a word (rules R38,
R80, R82), every memory in canonical form, and the table entries of a valid code written (rules R32 to R34).
It rules out the states no run reaches (log 15). -/
structure State.Inv (s : State) : Prop where
  symCap_range : 1 ≤ s.symCap ∧ s.symCap ≤ Config.capMax
  packCap_range : 1 ≤ s.packCap ∧ s.packCap ≤ Config.capMax
  busy_iff_latched : s.busy = s.latch.isSome
  free_range : 1 ≤ s.bwFree.toNat ∧ s.bwFree.toNat ≤ 8
  free_slots_zero : ∀ i, i < s.bwFree.toNat → s.bwCur.getLsbD i = false
  freq_wf : s.freq.wf 256
  nodeLink_wf : s.nodeLink.wf 511
  nodeWeight_wf : s.nodeWeight.wf 511
  codeLen_wf : s.codeLen.wf 256
  codePat_wf : s.codePat.wf 256
  symIn_wf : s.symIn.wf s.symCap
  pack_wf : s.pack.wf s.packCap
  symOut_wf : s.symOut.wf s.symCap
  valid_written : ∀ c : Byte, s.validAt c = true →
    (s.codeLen.look c.toNat).isSome ∧ (s.codePat.look c.toNat).isSome

/-- Every byte of PACK[0..PACK_LEN−1] has been written since reset, so that reading it draws nothing. -/
def State.PackWritten (s : State) : Prop := ∀ i, i < s.packLen.toNat → (s.pack.look i).isSome

/-- Every symbol of SYM_IN[0..IN_LEN−1] has been written since reset. -/
def State.InputWritten (s : State) : Prop := ∀ i, i < s.inLen.toNat → (s.symIn.look i).isSome

/-- Every FREQ entry has been written since reset, so that BUILD reads one value of each. -/
def State.FreqWritten (s : State) : Prop := ∀ i, i < 256 → (s.freq.look i).isSome

/-- The bits of PACK[0..PACK_LEN−1] in stream order, MSB-first in each byte (rule R53). -/
def State.packBits (s : State) : List Bool :=
  (List.range s.packLen.toNat).flatMap fun i => msbFirst (s.packAt i) 8

/-- Every bit the packer holds: those flushed to PACK, then the 8 − FREE high bits of CUR (rule R90). -/
def State.streamBits (s : State) : List Bool :=
  s.packBits ++ (msbFirst s.bwCur 8).take (8 - s.bwFree.toNat)

/-- The significant bits of PACK in stream order: all but the low TRAIL bits of the last byte (rule R100). -/
def State.significantBits (s : State) : List Bool :=
  s.packBits.take (8 * s.packLen.toNat - s.trail.toNat)

/-- The node reached from `n` by following `bits`, 0 to child0 and 1 to child1, through Internal nodes only
(rules R72, R130). -/
def State.descend (s : State) : NodeIx → List Bool → Option NodeIx
  | n, [] => some n
  | n, b :: bits =>
    if (s.linkAt 0 n.toNat).internal then
      s.descend (if b then (s.linkAt 0 n.toNat).right else (s.linkAt 0 n.toNat).left) bits
    else none

/-- `bits` is the path from the root to a Leaf of symbol `c` (rule R72). -/
def State.IsPath (s : State) (bits : List Bool) (c : Byte) : Prop :=
  ∃ n, s.descend s.root bits = some n ∧ (s.linkAt 0 n.toNat).internal = false ∧
    (s.linkAt 0 n.toNat).sym = c

/-- Word 0 of every node reachable from the root has been written since reset, so that every read of the tree
gives the same tree. Of an unwritten node each read gives another value (rule R42), and the laws of the spec
that compare two reads say nothing (log 3). -/
def State.TreeWritten (s : State) : Prop :=
  ∀ bits n, s.descend s.root bits = some n → (s.nodeLink.look n.toNat).isSome

/-! ### The queue of a BUILD, read off the tree it leaves

`k` is the number of leaves; the `m`-th merge makes node `k + m` (rule R110). -/

/-- Node `i` is a child of one of the first `m` merges. -/
def State.TakenBefore (t : State) (k m i : Nat) : Prop :=
  ∃ m' e, m' < m ∧ t.nodeLink.look (k + m') = some e ∧ (e.left.toNat = i ∨ e.right.toNat = i)

/-- Node `i` is in the queue when the `m`-th merge begins: made, and taken by no merge before. -/
def State.Queued (t : State) (k m i : Nat) : Prop := i < k + m ∧ ¬ t.TakenBefore k m i

/-- "A Leaf for symbol s has key s (0..255); the Internal node made by the m-th merge ... has key 256 + m"
(rule R107). -/
def State.queueKey (t : State) (k i : Nat) : Nat :=
  if i < k then (t.linkAt 0 i).sym.toNat else 256 + (i - k)

/-- "Smaller weight first, and among equal weights the smaller key" (rule R107). -/
def State.QueuedBefore (t : State) (k i j : Nat) : Prop :=
  (t.weightAt i).toNat < (t.weightAt j).toNat ∨
    ((t.weightAt i).toNat = (t.weightAt j).toNat ∧ t.queueKey k i < t.queueKey k j)

/-! ### Payloads and results -/

/-- The two states hold the same payload (rule R41). -/
def State.SamePayload (s t : State) : Prop :=
  s.root = t.root ∧ s.nodeCnt = t.nodeCnt ∧
  (∀ i, i < s.nodeCnt.toNat →
    s.nodeLink.look i = t.nodeLink.look i ∧ s.nodeWeight.look i = t.nodeWeight.look i) ∧
  s.packLen = t.packLen ∧ (∀ i, i < s.packLen.toNat → s.pack.look i = t.pack.look i) ∧
  s.trail = t.trail ∧ s.symCnt = t.symCnt

/-- The OP values of format N in the opcode map (rule R65). -/
def nOpcodes : List Nat := [0x00, 0x01, 0x10, 0x13, 0x20, 0x21, 0x30, 0x32, 0x33, 0x40, 0x41, 0x50, 0x60]

/-- The OP values of format S in the opcode map: PUTSYM and FADD (rule R65). -/
def sOpcodes : List Nat := [0x12, 0x31]

/-- The OP value of format W in the opcode map: WRBITS (rule R65). -/
def wOpcode : Nat := 0x11

/-- The results a legal command can complete with (the table of rule R138, less ILLEGAL, which is the result
of a word that is no command). -/
def possibleResults : Instr → List Result
  | .nop | .clear | .bwinit | .brinit | .fclr => [.ok]
  | .wrbits _ => [.ok, .sequence, .packOvf]
  | .putsym _ => [.ok, .sequence, .noCode, .packOvf]
  | .finish => [.ok, .sequence, .packOvf]
  | .rdbit => [.ok, .lenRange, .endOfStream]
  | .fadd _ => [.ok, .freqOvf]
  | .fcount => [.ok, .lenRange]
  | .build => [.ok, .weightOvf]
  | .tcheck | .codes => [.ok, .malformed]
  | .encode => [.ok, .lenRange, .packOvf]
  | .decode => [.ok, .lenRange, .malformed, .outOvf]

/-- How many bytes a packer command flushes to PACK when it completes with OK (rules R93, R98). -/
def flushCount (s : State) : Instr → Nat
  | .wrbits w => newBytes s w.toNat
  | .putsym c => newBytes s (s.codeLenAt c).toNat
  | .finish => if s.bwFree.toNat < 8 then 1 else 0
  | _ => 0

/-- How many of SYM_IN[0..IN_LEN−1] are the symbol `c` (rule R111). -/
def State.countOf (s : State) (c : Byte) : Nat :=
  ((List.range s.inLen.toNat).filter fun i => decide (s.symInAt 0 i = c)).length

/-- The length of the code of each buffered symbol, added up (rule R126). -/
def State.codedLength (s table : State) : Nat :=
  ((List.range s.inLen.toNat).map fun i => (table.codeLenAt (s.symInAt 0 i)).toNat).sum

/-- The codes of the buffered symbols, in input order (rule R72). -/
def State.codedBits (s table : State) : List Bool :=
  (List.range s.inLen.toNat).flatMap fun i => codeBits table (s.symInAt 0 i)

/-- Perform commands one after the other, each completing with OK; none if one does not. -/
def execAll : List Instr → State → Option State
  | [], s => some s
  | i :: rest, s =>
    match exec i s with
    | .next t => if t.result = .ok then execAll rest t else none
    | .fault _ => none
    | .refused _ => none

/-- `n` RDBITs one after the other: the bits left in ARG and the state; none if one does not complete with OK
(rule R102). -/
def readBits : Nat → State → Option (List Bool × State)
  | 0, s => some ([], s)
  | n + 1, s =>
    match exec .rdbit s with
    | .next t =>
      if t.result = .ok then (readBits n t).map fun r => (decide (t.arg = 1#32) :: r.1, r.2) else none
    | .fault _ => none
    | .refused _ => none

end Sys2Proof.Machine
end

