-- ==== Sys2Proof/Certificates/Slice0/Obligations.lean ====
section
/-! DEFINITION. The statements about the block, from the numbered rules of spec/. A clause about what the
model leaves open holds for every value of the free values. -/

open Sys2Proof Sys2Proof.Machine

/-! ### Encoding -/

/-- Rules R64 to R66: decoding the word of a well-formed command gives the command back, with every operand
at every value the encoding admits. -/
def Obligations.DecodeOfEncodeIsTheCommand : Prop :=
  ∀ i : Instr, i.WellFormed → decode (encode i) = .ok i

/-- Rule R68: a word that decodes is the one word of its command, and the command is well formed. -/
def Obligations.DecodedWordIsTheEncoding : Prop :=
  ∀ (w : Word) (i : Instr), decode w = .ok i → encode i = w ∧ i.WellFormed

/-- Rule R66, the whole procedure: its checks in order, the operands of a legal word, and that an illegal
command changes nothing but STATUS, whether the host's list has run out, idles or polls. That the illegal words
with OP 0x60 do so too, where rules R129 and R133 speak of every raise of DECODE, is the model's reading
(log 8); how a host idles and polls is its own choice (log 6). -/
def Obligations.DecodingProcedure : Prop :=
  ∀ w : Word,
    (w.toNat % 256 ∉ nOpcodes ++ sOpcodes ++ [wOpcode] → decode w = .error .badOpcode) ∧
    (w.toNat % 256 ∈ nOpcodes → w.toNat / 256 ≠ 0 → decode w = .error .reservedSet) ∧
    (w.toNat % 256 ∈ sOpcodes → w.toNat / 65536 ≠ 0 → decode w = .error .reservedSet) ∧
    (w.toNat % 256 = wOpcode → w.toNat / 16384 ≠ 0 → decode w = .error .reservedSet) ∧
    (w.toNat % 256 = wOpcode → w.toNat / 16384 = 0 → 32 < w.toNat / 256 % 64 →
      decode w = .error .badWidth) ∧
    (w.toNat % 256 ∈ nOpcodes → w.toNat / 256 = 0 →
      ∃ i, decode w = .ok i ∧ i.opcode.toNat = w.toNat % 256) ∧
    (w.toNat % 256 = 0x12 → w.toNat / 65536 = 0 →
      decode w = .ok (.putsym (BitVec.ofNat 8 (w.toNat / 256)))) ∧
    (w.toNat % 256 = 0x31 → w.toNat / 65536 = 0 →
      decode w = .ok (.fadd (BitVec.ofNat 8 (w.toNat / 256)))) ∧
    (w.toNat % 256 = wOpcode → w.toNat / 16384 = 0 → w.toNat / 256 % 64 ≤ 32 →
      decode w = .ok (.wrbits (BitVec.ofNat 6 (w.toNat / 256)))) ∧
    (∀ (s : State) (e : Illegal), s.latch = some w → decode w = .error e →
      let detail : Byte := match e with | .badOpcode => 0x01#8 | .reservedSet => 0x02#8 | .badWidth => 0x03#8
      let rejected (t : State) : State := t.complete (BitVec.ofNat 8 w.toNat) .illegal detail false
      (s.port = [] → step s = .next (rejected s)) ∧
      (∀ rest, s.port = .idle :: rest → step s = .next (rejected { s with port := rest })) ∧
      (∀ rest, s.port = .poll 0 :: rest → s.busy = true → step s = .next (rejected s)))

/-- The command words of rule R71. -/
def Obligations.ExampleWordsDecode : Prop :=
  decode 0x00000000#32 = .ok .nop ∧ decode 0x00000001#32 = .ok .clear ∧
  decode 0x00000511#32 = .ok (.wrbits 5#6) ∧ decode 0x00002011#32 = .ok (.wrbits 32#6) ∧
  decode 0x00006112#32 = .ok (.putsym 0x61#8) ∧ decode 0x0000FF31#32 = .ok (.fadd 0xFF#8) ∧
  decode 0x00000033#32 = .ok .build ∧ decode 0x00000050#32 = .ok .encode ∧
  decode 0x00000060#32 = .ok .decode

/-! ### The step and the command cycle -/

/-- Rule R81: where the latched word decodes to a command and the host leaves the move to the engine, a step
is `exec` of that command. What the step adds: it takes an `idle` off the host's list; a pending POLL that
is to see no more busy reads stays. A block with an empty latch and nothing to do waits (the model's choice,
log 17). -/
def Obligations.StepRunsTheLatchedCommand : Prop :=
  ∀ s : State,
    (∀ (w : Word) (i : Instr), s.latch = some w → decode w = .ok i →
      (s.port = [] → step s = exec i s) ∧
      (∀ rest, s.port = .idle :: rest → step s = exec i { s with port := rest }) ∧
      (∀ rest, s.port = .poll 0 :: rest → s.busy = true → step s = exec i s)) ∧
    (s.latch = none → s.port = [] → step s = .next s)

/-- Rules R82 and R83: every accepted command completes, in one step of the engine, with LASTOP the low byte
of its word, BUSY 0 and the latch empty; TRUNC is 1 only for a WRBITS that completes with OK. -/
def Obligations.AcceptedCommandCompletes : Prop :=
  ∀ (s : State) (w : Word), s.latch = some w → s.hostMove = none →
    ∃ t, step s = .next t ∧ t.latch = none ∧ t.busy = false ∧ t.lastop = w.extractLsb' 0 8 ∧
      (t.trunc = true → t.result = .ok ∧ w.toNat % 256 = wOpcode)

/-- Rule R138: the results a command can complete with. -/
def Obligations.OnlyPossibleResults : Prop :=
  ∀ (i : Instr) (s t : State), i.WellFormed → exec i s = .next t → t.result ∈ possibleResults i

/-- Rule R135: a command other than ENCODE and DECODE that raises leaves every state but STATUS. -/
def Obligations.RaiseLeavesTheState : Prop :=
  ∀ (i : Instr) (s t : State), i ≠ .encode → i ≠ .decode → exec i s = .next t → t.result ≠ .ok →
    t = s.complete i.opcode t.result t.detail false

/-- Rules R18 and R136: the fields of STATUS as the host reads them while BUSY = 0, RESULT by the values of its
eleven codes. -/
def Obligations.StatusWordFields : Prop :=
  ∀ s : State, s.busy = false →
    (s.hostValue statusAddr).getLsbD 0 = false ∧
    (s.hostValue statusAddr).getLsbD 1 = decide (s.result ≠ .ok) ∧
    (s.hostValue statusAddr).getLsbD 2 = decide (s.root = 0x1FF#9) ∧
    (s.hostValue statusAddr).getLsbD 3 = s.trunc ∧
    (s.hostValue statusAddr).extractLsb' 4 4 = 0#4 ∧
    (s.hostValue statusAddr).extractLsb' 8 8 = (match s.result with
      | .ok => 0x00#8 | .illegal => 0x01#8 | .noCode => 0x02#8 | .packOvf => 0x03#8 | .malformed => 0x04#8
      | .lenRange => 0x05#8 | .freqOvf => 0x06#8 | .weightOvf => 0x07#8 | .endOfStream => 0x08#8
      | .outOvf => 0x09#8 | .sequence => 0x0A#8) ∧
    (s.hostValue statusAddr).extractLsb' 16 8 = s.detail ∧
    (s.hostValue statusAddr).extractLsb' 24 8 = s.lastop

/-- Rules R69, R82 and R167: a POLL ends, its last read showing BUSY = 0. That it takes `n` host steps, the
engine's step and one more host step, `n` being the reads to find BUSY = 1 that the host's list carries, is the
model's own choice (log 6); the spec leaves that number open. A POLL that starts with BUSY = 0 is one host
read, which shows it. -/
def Obligations.PollEnds : Prop :=
  ∀ (s : State) (n : Nat) (rest : List HostOp), s.port = .poll n :: rest →
    (∀ w : Word, s.busy = true → s.latch = some w →
      ∃ (t : State) (v : Word), Sys2Proof.core.run (n + 2) s = .next t ∧ t.port = rest ∧ t.busy = false ∧
        t.readLog.length = s.readLog.length + n + 1 ∧ t.readLog.getLast? = some v ∧ v.getLsbD 0 = false) ∧
    (s.busy = false →
      step s = .next { s with
        port := rest, readLog := s.readLog ++ [s.hostValue statusAddr], draws := s.draws + 1 } ∧
      (s.hostValue statusAddr).getLsbD 0 = false)

/-! ### Control commands -/

/-- Rule R84: NOP's word, its effect, and its ILLEGAL. -/
def Obligations.NopOnlyCompletes : Prop :=
  encode .nop = 0x00000000#32 ∧
  (∀ s : State, exec .nop s = .next (s.complete 0x00#8 .ok 0x00#8 false)) ∧
  (∀ w : Word, w.toNat % 256 = 0 → w.toNat / 256 ≠ 0 → decode w = .error .reservedSet)

/-- Rule R85: CLEAR returns every register and CODE_VALID to the reset value and keeps every memory; STATUS
then reads 0x01000004. -/
def Obligations.ClearReturnsRegistersToReset : Prop :=
  ∀ s : State, ∃ t, exec .clear s = .next t ∧
    t = { State.resetOf s.symCap s.packCap with
      lastop := 0x01#8, freq := s.freq, nodeLink := s.nodeLink, nodeWeight := s.nodeWeight,
      codeLen := s.codeLen, codePat := s.codePat, symIn := s.symIn, pack := s.pack, symOut := s.symOut,
      port := s.port, readLog := s.readLog, draws := s.draws + 1 } ∧
    t.hostValue statusAddr = 0x01000004#32

/-! ### The bit-packer -/

/-- Rules R91 and R101: BWINIT gives a fresh packer and keeps PACK; BRINIT puts the reader at the first bit
and the cursor at the root. -/
def Obligations.FreshPackerAndReader : Prop :=
  ∀ s : State,
    exec .bwinit s = .next (State.complete { s with
      packLen := 0#32, bwCur := 0#8, bwFree := 8#4, bwFin := false, totalBits := 0#32, trail := 0#3 }
      0x10#8 .ok 0x00#8 false) ∧
    exec .brinit s = .next (State.complete { s with
      brPos := 0#32, brBit := 7#3, brCursor := s.root, outLen := 0#32 } 0x20#8 .ok 0x00#8 false)

/-- Rules R92 to R94 and R96: a WRBITS that fits appends the low WIDTH bits of ARG, most significant first,
to the stream, counts them, and sets TRUNC exactly when ARG has a 1 at or above bit WIDTH. -/
def Obligations.WrbitsAppendsArg : Prop :=
  ∀ (s : State) (w : BitVec 6), s.Inv → s.PackWritten → w.toNat ≤ 32 → s.bwFin = false →
    s.packLen.toNat + (8 - s.bwFree.toNat + w.toNat) / 8 ≤ s.packCap →
    ∃ t, exec (.wrbits w) s = .next t ∧ t.result = .ok ∧ t.detail = 0#8 ∧ t.lastop = 0x11#8 ∧
      t.trunc = decide (s.arg.toNat / 2 ^ w.toNat ≠ 0) ∧
      t.streamBits =
        s.streamBits ++ (List.range w.toNat).map (fun j => s.arg.getLsbD (w.toNat - 1 - j)) ∧
      8 * t.packLen.toNat + (8 - t.bwFree.toNat) =
        8 * s.packLen.toNat + (8 - s.bwFree.toNat) + w.toNat ∧
      (s.totalBits.toNat + w.toNat < 2 ^ 32 → t.totalBits.toNat = s.totalBits.toNat + w.toNat)

/-- Rules R93, R94 and R97: a PUTSYM of a symbol with a code that fits appends the whole code, first-sent bit
first. -/
def Obligations.PutsymAppendsTheCode : Prop :=
  ∀ (s : State) (c : Byte), s.Inv → s.PackWritten → s.bwFin = false → s.validAt c = true →
    s.packLen.toNat + (8 - s.bwFree.toNat + (s.codeLenAt c).toNat) / 8 ≤ s.packCap →
    ∃ t, exec (.putsym c) s = .next t ∧ t.result = .ok ∧ t.detail = 0#8 ∧ t.lastop = 0x12#8 ∧
      t.trunc = false ∧
      t.streamBits = s.streamBits ++ (List.range (s.codeLenAt c).toNat).map
        (fun j => (s.codePatAt c).getLsbD ((s.codeLenAt c).toNat - 1 - j)) ∧
      8 * t.packLen.toNat + (8 - t.bwFree.toNat) =
        8 * s.packLen.toNat + (8 - s.bwFree.toNat) + (s.codeLenAt c).toNat ∧
      (s.totalBits.toNat + (s.codeLenAt c).toNat < 2 ^ 32 →
        t.totalBits.toNat = s.totalBits.toNat + (s.codeLenAt c).toNat)

/-- Rule R98: FINISH with a partial byte appends it and puts FREE into TRAIL; with nothing partial it adds no
byte and TRAIL is 0. -/
def Obligations.FinishPadsThePartialByte : Prop :=
  ∀ s : State, s.Inv → s.bwFin = false →
    (s.bwFree.toNat < 8 → s.packLen.toNat + 1 ≤ s.packCap →
      exec .finish s = .next (State.complete { s with
        pack := s.pack.put s.packLen.toNat s.bwCur, packLen := s.packLen + 1#32,
        trail := BitVec.ofNat 3 s.bwFree.toNat, bwCur := 0#8, bwFree := 8#4, bwFin := true }
        0x13#8 .ok 0x00#8 false)) ∧
    (s.bwFree.toNat = 8 →
      exec .finish s = .next (State.complete { s with
        trail := 0#3, bwCur := 0#8, bwFree := 8#4, bwFin := true } 0x13#8 .ok 0x00#8 false))

/-- Rules R93, R96 to R98: when the packer commands raise, in the order of their checks. -/
def Obligations.WhenPackerCommandsRaise : Prop :=
  ∀ (s : State) (w : BitVec 6) (c : Byte), w.toNat ≤ 32 →
    (s.bwFin = true →
      exec (.wrbits w) s = .next (s.complete 0x11#8 .sequence 0x01#8 false) ∧
      exec (.putsym c) s = .next (s.complete 0x12#8 .sequence 0x01#8 false) ∧
      exec .finish s = .next (s.complete 0x13#8 .sequence 0x01#8 false)) ∧
    (s.bwFin = false →
      (s.packCap < s.packLen.toNat + newBytes s w.toNat →
        exec (.wrbits w) s = .next (s.complete 0x11#8 .packOvf 0x00#8 false)) ∧
      (s.validAt c = false → exec (.putsym c) s = .next (s.complete 0x12#8 .noCode 0x00#8 false)) ∧
      (s.validAt c = true → s.packCap < s.packLen.toNat + newBytes s (s.codeLenAt c).toNat →
        exec (.putsym c) s = .next (s.complete 0x12#8 .packOvf 0x00#8 false)) ∧
      (s.bwFree.toNat < 8 → s.packCap < s.packLen.toNat + 1 →
        exec .finish s = .next (s.complete 0x13#8 .packOvf 0x00#8 false)))

/-- Rule R95: writing a value in two chunks, the high-order one first, leaves the packer as one write does. -/
def Obligations.SplitWriteIsOneWrite : Prop :=
  ∀ (s : State) (v : Word) (a b : Nat), a + b ≤ 32 →
    pushBits (pushBits s (argBits { s with arg := v >>> b } a)) (argBits { s with arg := v } b) =
      pushBits s (argBits { s with arg := v } (a + b))

/-- Rules R90, R93 and R98, the frame of WRBITS, PUTSYM and FINISH: only the packer's registers and STATUS
change, and of PACK only the bytes flushed, which are those from PACK_LEN on. -/
def Obligations.PackerCommandsFrame : Prop :=
  ∀ (s t : State) (i : Instr), s.Inv → (∃ w, i = .wrbits w) ∨ (∃ c, i = .putsym c) ∨ i = .finish →
    exec i s = .next t →
    (∃ cur free fin total len trail pack, t = State.complete { s with
      bwCur := cur, bwFree := free, bwFin := fin, totalBits := total, packLen := len, trail := trail,
      pack := pack } i.opcode t.result t.detail t.trunc) ∧
    (∀ j, j < s.packLen.toNat ∨ s.packLen.toNat + flushCount s i ≤ j → t.pack.look j = s.pack.look j) ∧
    (i ≠ .finish → t.bwFin = s.bwFin ∧ t.trail = s.trail) ∧
    (i = .finish → t.totalBits = s.totalBits)

/-! ### The bit-unpacker -/

/-- Rules R100 and R102: RDBIT returns the next significant bit in ARG and moves on, or raises and changes
nothing. -/
def Obligations.RdbitReadsTheNextBit : Prop :=
  ∀ s : State,
    (s.packCap < s.packLen.toNat → exec .rdbit s = .next (s.complete 0x21#8 .lenRange 0x02#8 false)) ∧
    (s.packLen.toNat ≤ s.packCap →
      ¬(s.brPos.toNat + 1 < s.packLen.toNat ∨
        (s.brPos.toNat + 1 = s.packLen.toNat ∧ s.trail.toNat ≤ s.brBit.toNat)) →
      exec .rdbit s = .next (s.complete 0x21#8 .endOfStream 0x00#8 false)) ∧
    (s.packLen.toNat ≤ s.packCap →
      (s.brPos.toNat + 1 < s.packLen.toNat ∨
        (s.brPos.toNat + 1 = s.packLen.toNat ∧ s.trail.toNat ≤ s.brBit.toNat)) →
      exec .rdbit s = .next (State.complete { s with
        arg := if (s.packAt s.brPos.toNat).getLsbD s.brBit.toNat then 1#32 else 0#32,
        brBit := if s.brBit = 0#3 then 7#3 else s.brBit - 1#3,
        brPos := if s.brBit = 0#3 then s.brPos + 1#32 else s.brPos } 0x21#8 .ok 0x00#8 false))

/-- Rule R104: from a fresh packer, whatever bits are packed and finished, BRINIT and then one RDBIT per bit
return exactly those bits, and the next RDBIT raises END_OF_STREAM. -/
def Obligations.ReaderInvertsWriter : Prop :=
  ∀ (s : State) (bits : List Bool), s.Inv → s.packLen = 0#32 → s.bwFree = 8#4 → s.bwFin = false →
    (bits.length + 7) / 8 ≤ s.packCap →
    ∃ t u v, exec .finish (pushBits s bits) = .next t ∧ t.result = .ok ∧
      exec .brinit t = .next u ∧ readBits bits.length u = some (bits, v) ∧
      exec .rdbit v = .next (v.complete 0x21#8 .endOfStream 0x00#8 false)

/-! ### The frequency table and the tree builder -/

/-- Rule R105: FCLR makes every counter 0 and changes nothing else but STATUS. -/
def Obligations.FclrClearsEveryCounter : Prop :=
  ∀ s : State, ∃ t, exec .fclr s = .next t ∧
    t = State.complete { s with freq := t.freq } 0x30#8 .ok 0x00#8 false ∧
    ∀ c : Byte, t.freq.look c.toNat = some 0#32

/-- Rule R106: FADD adds one to its counter and leaves every other, or raises FREQ_OVF at the maximum and
leaves that too. Of a counter nothing has written, the check and the increment read `any` value each (rule
R42; read 0 and read 1, log 3). -/
def Obligations.FaddCountsOneSymbol : Prop :=
  ∀ (s : State) (c : Byte),
    (s.freqAt 0 c.toNat = 0xFFFFFFFF#32 →
      exec (.fadd c) s = .next (s.complete 0x31#8 .freqOvf 0x00#8 false)) ∧
    (s.freqAt 0 c.toNat ≠ 0xFFFFFFFF#32 →
      ∃ t, exec (.fadd c) s = .next t ∧
        t = State.complete { s with freq := t.freq } 0x31#8 .ok 0x00#8 false ∧
        (∃ v, t.freq.look c.toNat = some v ∧
          ∀ w, s.freq.look c.toNat = some w → v.toNat = w.toNat + 1) ∧
        ∀ j, j ≠ c.toNat → t.freq.look j = s.freq.look j)

/-- Rule R111: FCOUNT leaves in each counter how often its symbol stands in the buffered input, or raises
LEN_RANGE. That an entry of the input nothing has written is read once for its count, though the pseudocode names
it twice, is the model's reading of rule R125 (log 3). -/
def Obligations.FcountCountsTheInput : Prop :=
  ∀ s : State, s.Inv →
    (s.symCap < s.inLen.toNat → exec .fcount s = .next (s.complete 0x32#8 .lenRange 0x01#8 false)) ∧
    (s.inLen.toNat ≤ s.symCap →
      ∃ t, exec .fcount s = .next t ∧
        t = State.complete { s with freq := t.freq } 0x32#8 .ok 0x00#8 false ∧
        ∀ c : Byte, ∃ v, t.freq.look c.toNat = some v ∧ v.toNat = s.countOf c)

/-- Rules R39 and R107. That the queue is a list held in the order of removeMin is the model's own choice
(log 14), which rule R39 allows. Inserting into such a list, with keys distinct, keeps the order of rule R107
and adds exactly the entry, so the head is the entry removeMin takes. -/
def Obligations.QueueKeepsTheRemovalOrder : Prop :=
  ∀ (q : List QEntry) (e : QEntry),
    q.Pairwise (fun a b => a.weight < b.weight ∨ (a.weight = b.weight ∧ a.key < b.key)) →
    (∀ x ∈ q, x.key ≠ e.key) →
    (enqueue e q).Pairwise (fun a b => a.weight < b.weight ∨ (a.weight = b.weight ∧ a.key < b.key)) ∧
    (enqueue e q).Perm (e :: q)

/-- Rules R108 and R112: WEIGHT_OVF changes nothing; no leaf gives the empty tree; one leaf gives the
degenerate tree. The total, the leaves and the Leaf's WEIGHT are three reads of FREQ (rule R42). -/
def Obligations.BuildOfFewLeaves : Prop :=
  ∀ s : State,
    (2 ^ 32 ≤ totalWeight s → exec .build s = .next (s.complete 0x33#8 .weightOvf 0x00#8 false)) ∧
    (totalWeight s < 2 ^ 32 → leafSymbols s = [] →
      exec .build s = .next (State.complete { s with
        codeValid := 0#256, root := 0x1FF#9, nodeCnt := 0#10, symCnt := 0#32 } 0x33#8 .ok 0x00#8 false)) ∧
    (∀ c : Byte, totalWeight s < 2 ^ 32 → leafSymbols s = [c.toNat] →
      exec .build s = .next (State.complete { s with
        codeValid := 0#256, root := 0#9, nodeCnt := 1#10, symCnt := BitVec.ofNat 32 (totalWeight s),
        nodeLink := s.nodeLink.put 0 ⟨false, c, 0x1FF#9, 0x1FF#9⟩,
        nodeWeight := s.nodeWeight.put 0 (s.freqAt 2 c.toNat) } 0x33#8 .ok 0x00#8 false))

/-- Rules R110 and R112: with k ≥ 1 leaves BUILD completes, the leaves stand at 0..k−1 in symbol order, ROOT
is 2k−2, NODE_CNT 2k−1, SYM_CNT the total, no code is valid, no node from 2k−1 on is written, and nothing
else changes. The Leaf's WEIGHT is a read of FREQ of its own (rule R42; read 2, log 3). -/
def Obligations.BuildAllocatesTheNodes : Prop :=
  ∀ s : State, totalWeight s < 2 ^ 32 → leafSymbols s ≠ [] →
    ∃ t, exec .build s = .next t ∧ t.result = .ok ∧ t.codeValid = 0#256 ∧
      t.root.toNat = 2 * (leafSymbols s).length - 2 ∧ t.nodeCnt.toNat = 2 * (leafSymbols s).length - 1 ∧
      t.symCnt.toNat = totalWeight s ∧
      (∀ j c, (leafSymbols s)[j]? = some c →
        t.nodeLink.look j = some ⟨false, BitVec.ofNat 8 c, 0x1FF#9, 0x1FF#9⟩ ∧
        t.nodeWeight.look j = some (s.freqAt 2 c)) ∧
      (∀ i, 2 * (leafSymbols s).length - 1 ≤ i →
        t.nodeLink.look i = s.nodeLink.look i ∧ t.nodeWeight.look i = s.nodeWeight.look i) ∧
      t = State.complete { s with
        codeValid := 0#256, root := t.root, nodeCnt := t.nodeCnt, symCnt := t.symCnt,
        nodeLink := t.nodeLink, nodeWeight := t.nodeWeight } 0x33#8 .ok 0x00#8 false

/-- Rules R107, R109, R110 and R113 (a): the `m`-th merge of a BUILD takes the two least entries of the queue
by (weight, key), the first as LEFT and the second as RIGHT, its weight is their sum, and the root's weight is
the total. The FREQ entries have been written: of an unwritten one BUILD's reads are `any` value each (rule
R42). -/
def Obligations.BuildKeepsTheWeightInvariant : Prop :=
  ∀ (s t : State), s.FreqWritten → leafSymbols s ≠ [] → exec .build s = .next t → t.result = .ok →
    let k := (leafSymbols s).length
    (∀ m, m + 1 < k →
      ∃ l r wl wr w, t.nodeLink.look (k + m) = some ⟨true, 0#8, l, r⟩ ∧ l ≠ r ∧
        t.Queued k m l.toNat ∧ t.Queued k m r.toNat ∧ t.QueuedBefore k l.toNat r.toNat ∧
        (∀ i, t.Queued k m i → i ≠ l.toNat → i ≠ r.toNat → t.QueuedBefore k r.toNat i) ∧
        t.nodeWeight.look l.toNat = some wl ∧ t.nodeWeight.look r.toNat = some wr ∧
        t.nodeWeight.look (k + m) = some w ∧ w.toNat = wl.toNat + wr.toNat) ∧
    ∃ w, t.nodeWeight.look t.root.toNat = some w ∧ w.toNat = totalWeight s

/-- Rules R113 (c) and R117: the tree of a BUILD that completed with OK passes TCHECK. -/
def Obligations.BuiltTreePassesTheCheck : Prop :=
  ∀ (s t u : State), exec .build s = .next t → t.result = .ok → exec .tcheck t = .next u →
    u.result = .ok

/-- Rule R113 (e): the tree is a function of FREQ alone, when FREQ has been written. -/
def Obligations.BuildDependsOnFreqAlone : Prop :=
  ∀ (s s' t t' : State), s.FreqWritten → (∀ c, c < 256 → s.freq.look c = s'.freq.look c) →
    exec .build s = .next t → exec .build s' = .next t' → t.result = .ok →
    t'.result = .ok ∧ t.root = t'.root ∧ t.nodeCnt = t'.nodeCnt ∧ t.symCnt = t'.symCnt ∧
      ∀ i, i < t.nodeCnt.toNat →
        t.nodeLink.look i = t'.nodeLink.look i ∧ t.nodeWeight.look i = t'.nodeWeight.look i

/-! ### The tree check and the code table -/

/-- Rules R116 and R117: TCHECK completes without changing the tree, and what it reports of the empty tree, of
a bad root, of a Leaf root, and of an Internal root with its two children, in the order of Visit. Of an
unwritten Leaf the check of `seen` and its growth read SYM apart (rule R42; read 0 and read 1). -/
def Obligations.TreeCheckFindsDefects : Prop :=
  ∀ s : State,
    exec .tcheck s = .next (if validTree s = 0#8 then s.complete 0x40#8 .ok 0x00#8 false
      else s.complete 0x40#8 .malformed (validTree s) false) ∧
    (s.root = 0x1FF#9 → validTree s = 0x00#8) ∧
    (s.root ≠ 0x1FF#9 → 511 < s.nodeCnt.toNat ∨ s.nodeCnt.toNat ≤ s.root.toNat → validTree s = 0x02#8) ∧
    (s.nodeCnt.toNat ≤ 511 → s.root.toNat < s.nodeCnt.toNat →
      ((s.linkAt 0 s.root.toNat).internal = false → validTree s = 0x00#8) ∧
      (∀ sym l r, s.linkAt 0 s.root.toNat = ⟨true, sym, l, r⟩ →
        (s.nodeCnt.toNat ≤ l.toNat → validTree s = 0x03#8) ∧
        (l = s.root → validTree s = 0x04#8) ∧
        (l.toNat < s.nodeCnt.toNat → l ≠ s.root → (s.linkAt 0 l.toNat).internal = false →
          (s.nodeCnt.toNat ≤ r.toNat → validTree s = 0x03#8) ∧
          (r.toNat < s.nodeCnt.toNat → r = s.root ∨ r = l → validTree s = 0x04#8) ∧
          (r.toNat < s.nodeCnt.toNat → r ≠ s.root → r ≠ l → (s.linkAt 0 r.toNat).internal = false →
            validTree s =
              if (s.linkAt 0 r.toNat).sym = (s.linkAt 1 l.toNat).sym then 0x08#8 else 0x00#8))))

/-- Rules R82 and R116: the bound the model puts on Visit never decides the check (log 10): any larger bound
gives the same answer. -/
def Obligations.TreeCheckBoundIsNeverReached : Prop :=
  ∀ (s : State) (fuel : Nat), s.nodeCnt.toNat ≤ 511 → s.root.toNat < s.nodeCnt.toNat → 512 ≤ fuel →
    visit s fuel s.root ⟨[], []⟩ = visit s 512 s.root ⟨[], []⟩

/-- Rules R33, R118 and R120: CODES of an invalid tree changes nothing but STATUS; of the empty tree it leaves
no code; of a single Leaf it leaves the one-bit code 0 of its symbol alone. CODE_LEN and CODE_PAT are 0 for
every symbol without a code. -/
def Obligations.CodesOfSmallTrees : Prop :=
  ∀ s : State,
    (validTree s ≠ 0#8 → exec .codes s = .next (s.complete 0x41#8 .malformed (validTree s) false)) ∧
    (s.root = 0x1FF#9 → ∃ t, exec .codes s = .next t ∧ t.result = .ok ∧ t.codeValid = 0#256 ∧
      ∀ c : Byte, t.codeLen.look c.toNat = some 0#8 ∧ t.codePat.look c.toNat = some 0#255) ∧
    (∀ e, s.nodeCnt.toNat ≤ 511 → s.root.toNat < s.nodeCnt.toNat →
      s.nodeLink.look s.root.toNat = some e → e.internal = false →
      ∃ t, exec .codes s = .next t ∧ t.result = .ok ∧
        (∀ c : Byte, t.validAt c = decide (c = e.sym)) ∧
        t.codeLen.look e.sym.toNat = some 1#8 ∧ t.codePat.look e.sym.toNat = some 0#255 ∧
        ∀ c : Byte, c ≠ e.sym → t.codeLen.look c.toNat = some 0#8 ∧ t.codePat.look c.toNat = some 0#255)

/-- Rules R33, R72, R118 and R119, with the frame: CODES of a valid tree completes, changes only the code table
and STATUS, and leaves CODE_LEN and CODE_PAT 0 for every symbol without a code. Where the root is Internal and
the reachable nodes have been written, exactly the symbols of reachable leaves get a code: the path from the
root, 0 for child0 and 1 for child1, of length 1 to 255. -/
def Obligations.CodesAreThePaths : Prop :=
  ∀ s : State, validTree s = 0#8 →
    ∃ t, exec .codes s = .next t ∧
      t = State.complete { s with
        codeValid := t.codeValid, codeLen := t.codeLen, codePat := t.codePat } 0x41#8 .ok 0x00#8 false ∧
      (∀ c : Byte, t.validAt c = false →
        t.codeLen.look c.toNat = some 0#8 ∧ t.codePat.look c.toNat = some 0#255) ∧
      (s.root ≠ 0x1FF#9 → s.TreeWritten → (s.linkAt 0 s.root.toNat).internal = true →
        (∀ (bits : List Bool) (c : Byte), s.IsPath bits c →
          t.validAt c = true ∧ 1 ≤ bits.length ∧ bits.length ≤ 255 ∧
          t.codeLen.look c.toNat = some (BitVec.ofNat 8 bits.length) ∧
          ∃ p, t.codePat.look c.toNat = some p ∧ msbFirst p bits.length = bits) ∧
        (∀ c : Byte, t.validAt c = true → ∃ bits, s.IsPath bits c))

/-- Rule R121 (a) and (b): after a CODES with OK, of any tree, written or not, every valid code has length 1 to
255 and a pattern below 2^length, and no valid code is a prefix of another symbol's. -/
def Obligations.CodesArePrefixFree : Prop :=
  ∀ (s t : State), exec .codes s = .next t → t.result = .ok →
    (∀ c : Byte, t.validAt c = true →
      1 ≤ (t.codeLenAt c).toNat ∧ (t.codePatAt c).toNat < 2 ^ (t.codeLenAt c).toNat) ∧
    (∀ c d : Byte, t.validAt c = true → t.validAt d = true → c ≠ d →
      ¬ List.IsPrefix (codeBits t c) (codeBits t d))

/-! ### The encoder -/

/-- Rules R124 and R125: ENCODE of empty input completes with the empty payload; that CODE_LEN and CODE_PAT keep
their contents then is read from R125 against R123 (log 25). ENCODE raises LEN_RANGE with no state changed, and
PACK_OVF when the codes of the symbols counted do not fit. A PACK_OVF leaves the counts in FREQ and the tree and
the code table ENCODE built from them, the packer fresh, PACK unchanged, and nothing outside FREQ, the tree, the
code table and the packer changed. Of unwritten input the counts rest on log 3; that a PACK_OVF met only while
packing, where R125 says that packing cannot raise, leaves the same is the model's choice (log 23). -/
def Obligations.EncodeOfNothingAndItsRaises : Prop :=
  ∀ s : State,
    (s.inLen = 0#32 → ∃ t, exec .encode s = .next t ∧
      t = State.complete { s with
        freq := t.freq, root := 0x1FF#9, nodeCnt := 0#10, symCnt := 0#32, codeValid := 0#256,
        packLen := 0#32, trail := 0#3, totalBits := 0#32, bwCur := 0#8, bwFree := 8#4, bwFin := true }
        0x50#8 .ok 0x00#8 false ∧
      ∀ c : Byte, t.freq.look c.toNat = some 0#32) ∧
    (s.symCap < s.inLen.toNat → exec .encode s = .next (s.complete 0x50#8 .lenRange 0x01#8 false)) ∧
    (s.inLen.toNat ≤ s.symCap → s.inLen ≠ 0#32 →
      s.packCap < (s.codedLength (buildCodes (encodeTree s)) + 7) / 8 →
      ∃ t, exec .encode s = .next t ∧ t.result = .packOvf) ∧
    (∀ t, exec .encode s = .next t → t.result = .packOvf →
      t = State.complete (buildCodes (encodeTree s)) 0x50#8 .packOvf 0x00#8 false ∧
      (∀ c : Byte, ∃ v, t.freq.look c.toNat = some v ∧ v.toNat = s.countOf c) ∧
      t.packLen = 0#32 ∧ t.trail = 0#3 ∧ t.totalBits = 0#32 ∧ t.bwCur = 0#8 ∧ t.bwFree = 8#4 ∧
      t.bwFin = false ∧ t.pack = s.pack ∧ t.root ≠ 0x1FF#9 ∧
      t = State.complete { s with
        freq := t.freq, nodeLink := t.nodeLink, nodeWeight := t.nodeWeight, root := t.root,
        nodeCnt := t.nodeCnt, symCnt := t.symCnt, codeValid := t.codeValid, codeLen := t.codeLen,
        codePat := t.codePat, packLen := t.packLen, trail := t.trail, totalBits := t.totalBits,
        bwCur := t.bwCur, bwFree := t.bwFree, bwFin := t.bwFin } 0x50#8 .packOvf 0x00#8 false)

/-- Rules R41, R72, R90, R125 and R126 (b), (c): an ENCODE of nonempty written input whose stream fits
completes, the first TOTAL_BITS bits of PACK are the codes of the input symbols in order, and PACK_LEN and
TRAIL follow from TOTAL_BITS. FREQ, the tree and the code table are those it built; of NODE only entries below
NODE_CNT change and of PACK only entries below PACK_LEN; nothing outside FREQ, the tree, the code table and
the packer changes. -/
def Obligations.EncodePacksTheCodes : Prop :=
  ∀ s : State, s.Inv → s.InputWritten → s.inLen.toNat ≤ s.symCap → s.inLen ≠ 0#32 →
    (s.codedLength (buildCodes (encodeTree s)) + 7) / 8 ≤ s.packCap →
    ∃ t, exec .encode s = .next t ∧ t.result = .ok ∧
      t.totalBits.toNat = s.codedLength (buildCodes (encodeTree s)) ∧
      t.packLen.toNat = (t.totalBits.toNat + 7) / 8 ∧
      t.trail.toNat = 8 * t.packLen.toNat - t.totalBits.toNat ∧
      t.significantBits = s.codedBits (buildCodes (encodeTree s)) ∧
      t = State.complete { buildCodes (encodeTree s) with
        packLen := t.packLen, pack := t.pack, trail := t.trail, totalBits := t.totalBits,
        bwCur := 0#8, bwFree := 8#4, bwFin := true } 0x50#8 .ok 0x00#8 false ∧
      (∀ i, t.nodeCnt.toNat ≤ i →
        t.nodeLink.look i = s.nodeLink.look i ∧ t.nodeWeight.look i = s.nodeWeight.look i) ∧
      (∀ j, t.packLen.toNat ≤ j → t.pack.look j = s.pack.look j) ∧
      t = State.complete { s with
        freq := t.freq, nodeLink := t.nodeLink, nodeWeight := t.nodeWeight, root := t.root,
        nodeCnt := t.nodeCnt, symCnt := t.symCnt, codeValid := t.codeValid, codeLen := t.codeLen,
        codePat := t.codePat, packLen := t.packLen, pack := t.pack, trail := t.trail,
        totalBits := t.totalBits, bwCur := 0#8, bwFree := 8#4, bwFin := true } 0x50#8 .ok 0x00#8 false

/-- Rule R123: issuing FCOUNT, BUILD, CODES, BWINIT, one PUTSYM per input symbol and FINISH, each completing
with OK, gives the state ENCODE gives, but for STATUS.LASTOP and the draws used up (the input having been
written, since of an unwritten entry each read is another value, rule R42). Of empty input CODE_LEN and
CODE_PAT may differ as well: CODES clears them, and ENCODE returns before its CODES (rule R125; log 25). -/
def Obligations.EncodeIsTheStepwiseRoute : Prop :=
  ∀ (s t u : State), s.Inv → s.InputWritten → exec .encode s = .next t → t.result = .ok →
    execAll ([.fcount, .build, .codes, .bwinit] ++
      (List.range s.inLen.toNat).map (fun i => Instr.putsym (s.symInAt 0 i)) ++ [.finish]) s = some u →
    (s.inLen ≠ 0#32 → { u with lastop := t.lastop, draws := t.draws } = t) ∧
    (s.inLen = 0#32 →
      { u with lastop := t.lastop, draws := t.draws, codeLen := t.codeLen, codePat := t.codePat } = t)

/-- Rule R134: what ENCODE packs, DECODE restores, in every state of a block of the same capacities that holds
the payload ENCODE left (rule R41), whatever else has changed; of the empty input too, which gives OUT_LEN 0.
The input has been written: an unwritten entry has no value to restore, its reads by ENCODE differ (rule R42,
log 3). -/
def Obligations.RoundTripRestoresTheInput : Prop :=
  ∀ (s t t' u : State), s.Inv → s.InputWritten → exec .encode s = .next t → t.result = .ok →
    t.SamePayload t' → t'.symCap = t.symCap → t'.packCap = t.packCap → exec .decode t' = .next u →
    u.result = .ok ∧ u.outLen = s.inLen ∧
      ∀ i, i < s.inLen.toNat → u.symOut.look i = some (s.symInAt 0 i)

/-! ### The decoder -/

/-- Rule R132: DECODE of the empty tree completes with OUT_LEN 0 and writes no SYM_OUT entry. -/
def Obligations.DecodeOfTheEmptyTree : Prop :=
  ∀ s : State, s.root = 0x1FF#9 → s.packLen.toNat ≤ s.packCap → s.packLen ≠ 0#32 ∨ s.trail = 0#3 →
    exec .decode s = .next (State.complete { s with
      brPos := 0#32, brBit := 7#3, brCursor := 0x1FF#9, outLen := 0#32 } 0x60#8 .ok 0x00#8 false)

/-- Rule R131: DECODE of a single-leaf tree whose stream is SYM_CNT zero bits, with SYM_CNT at most SYM_CAP,
writes the leaf's symbol SYM_CNT times and leaves the reader after the last bit. -/
def Obligations.DecodeOfASingleLeaf : Prop :=
  ∀ (s : State) (e : NodeLink), s.packLen.toNat ≤ s.packCap → s.packLen ≠ 0#32 ∨ s.trail = 0#3 →
    s.nodeCnt.toNat ≤ 511 → s.root.toNat < s.nodeCnt.toNat →
    s.nodeLink.look s.root.toNat = some e → e.internal = false →
    s.significantBits = List.replicate s.symCnt.toNat false → s.symCnt.toNat ≤ s.symCap →
    ∃ t, exec .decode s = .next t ∧ t.result = .ok ∧ t.outLen = s.symCnt ∧ t.brCursor = s.root ∧
      8 * t.brPos.toNat + (7 - t.brBit.toNat) = s.significantBits.length ∧
      ∀ i, i < s.symCnt.toNat → t.symOut.look i = some e.sym

/-- Rule R130: DECODE of a valid tree with an Internal root and written reachable nodes, of a stream that is the
paths of symbols one after the other, writes those symbols and leaves the reader after the last bit. -/
def Obligations.DecodeFollowsThePaths : Prop :=
  ∀ (s : State) (coded : List (List Bool × Byte)),
    s.packLen.toNat ≤ s.packCap → s.packLen ≠ 0#32 ∨ s.trail = 0#3 →
    validTree s = 0#8 → s.root ≠ 0x1FF#9 → s.TreeWritten → (s.linkAt 0 s.root.toNat).internal = true →
    (∀ x ∈ coded, s.IsPath x.1 x.2) → s.significantBits = coded.flatMap Prod.fst →
    coded.length ≤ s.symCap → s.symCap ≤ 262144 →
    ∃ t, exec .decode s = .next t ∧ t.result = .ok ∧ t.outLen.toNat = coded.length ∧
      t.brCursor = s.root ∧ 8 * t.brPos.toNat + (7 - t.brBit.toNat) = s.significantBits.length ∧
      ∀ i, i < coded.length → t.symOut.look i = coded[i]?.map Prod.snd

/-- Rules R129 and R133: when DECODE raises before it reads the stream, in the order of its checks, and that
every raise sets OUT_LEN to 0 and leaves the payload. -/
def Obligations.WhenDecodeRaises : Prop :=
  ∀ (s t : State), exec .decode s = .next t →
    (s.packCap < s.packLen.toNat → t.result = .lenRange ∧ t.detail = 0x02#8) ∧
    (s.packLen.toNat ≤ s.packCap → s.packLen = 0#32 → s.trail ≠ 0#3 →
      t.result = .malformed ∧ t.detail = 0x07#8) ∧
    (s.packLen.toNat ≤ s.packCap → s.packLen ≠ 0#32 ∨ s.trail = 0#3 → validTree s ≠ 0#8 →
      t.result = .malformed ∧ t.detail = validTree s) ∧
    (t.result ≠ .ok → t.outLen = 0#32 ∧
      ∃ pos bit cursor out, t = State.complete { s with
        outLen := 0#32, brPos := pos, brBit := bit, brCursor := cursor, symOut := out }
        0x60#8 t.result t.detail false)

/-- Rules R130 and R131: how DECODE reports a stream it cannot finish, the reachable nodes written. Of an Internal root: MALFORMED/01 where
the stream ends inside a path, OUT_OVF where more than SYM_CAP symbols come. Of a Leaf root: MALFORMED/05 at a
1 bit, MALFORMED/06 where the count is not SYM_CNT, OUT_OVF where more than SYM_CAP symbols come. -/
def Obligations.WhenTheStreamIsMalformed : Prop :=
  ∀ (s t : State), exec .decode s = .next t →
    s.packLen.toNat ≤ s.packCap → s.packLen ≠ 0#32 ∨ s.trail = 0#3 → validTree s = 0#8 →
    s.root ≠ 0x1FF#9 → s.TreeWritten →
    ((s.linkAt 0 s.root.toNat).internal = true →
      ∀ (coded : List (List Bool × Byte)) (rest : List Bool), (∀ x ∈ coded, s.IsPath x.1 x.2) →
        s.significantBits = coded.flatMap Prod.fst ++ rest →
        (∀ n, coded.length ≤ s.symCap → rest ≠ [] → s.descend s.root rest = some n →
          (s.linkAt 0 n.toNat).internal = true → t.result = .malformed ∧ t.detail = 0x01#8) ∧
        (s.symCap < coded.length → t.result = .outOvf ∧ t.detail = 0x00#8)) ∧
    ((s.linkAt 0 s.root.toNat).internal = false →
      ∀ (n : Nat) (rest : List Bool), s.significantBits = List.replicate n false ++ rest →
        (n ≤ s.symCap → rest.head? = some true → t.result = .malformed ∧ t.detail = 0x05#8) ∧
        (n ≤ s.symCap → rest = [] → n ≠ s.symCnt.toNat → t.result = .malformed ∧ t.detail = 0x06#8) ∧
        (s.symCap < n → t.result = .outOvf ∧ t.detail = 0x00#8))

/-- Rule R127, the frame of DECODE: it writes only SYM_OUT, OUT_LEN, BR_POS, BR_STATE and STATUS; of SYM_OUT,
when it completes with OK in a block of legal SYM_CAP, only the OUT_LEN entries it puts out. -/
def Obligations.DecodeWritesOnlyItsOutput : Prop :=
  ∀ (s t : State), s.symCap ≤ 262144 → exec .decode s = .next t →
    (∃ pos bit cursor len out, t = State.complete { s with
      brPos := pos, brBit := bit, brCursor := cursor, outLen := len, symOut := out }
      0x60#8 t.result t.detail false) ∧
    (t.result = .ok → ∀ j, t.outLen.toNat ≤ j → t.symOut.look j = s.symOut.look j)

/-- Rule R103: the padding bits are never data. Two states that differ only in bits of the last byte of PACK
below TRAIL go alike through every command, RDBIT and DECODE among them: whatever it leaves differs at most in
that byte of PACK. -/
def Obligations.PaddingBitsAreNeverData : Prop :=
  ∀ (s : State) (v : Byte), s.packLen ≠ 0#32 →
    (∀ b, s.trail.toNat ≤ b → v.getLsbD b = (s.packAt (s.packLen.toNat - 1)).getLsbD b) →
    ∀ (i : Instr) (t u : State), exec i s = .next t →
      exec i { s with pack := s.pack.put (s.packLen.toNat - 1) v } = .next u →
      u = { t with pack := u.pack } ∧ ∀ j, j ≠ s.packLen.toNat - 1 → u.pack.look j = t.pack.look j

/-! ### Whole-machine rules -/

/-- Which commands write which state (rules R17, R19, R25, R30 to R37, R40, R41): every other command leaves
it. -/
def Obligations.OnlyNamedCommandsWrite : Prop :=
  ∀ (i : Instr) (s t : State), exec i s = .next t →
    (t.symIn = s.symIn ∧ t.symCap = s.symCap ∧ t.packCap = s.packCap ∧ t.port = s.port ∧
      t.readLog = s.readLog) ∧
    (i ≠ .clear → t.inLen = s.inLen) ∧
    (i ≠ .clear → i ≠ .rdbit → t.arg = s.arg) ∧
    (i ≠ .fclr → (∀ c, i ≠ .fadd c) → i ≠ .fcount → i ≠ .encode → t.freq = s.freq) ∧
    (i ≠ .build → i ≠ .encode → t.nodeLink = s.nodeLink ∧ t.nodeWeight = s.nodeWeight) ∧
    (i ≠ .build → i ≠ .encode → i ≠ .clear →
      t.root = s.root ∧ t.nodeCnt = s.nodeCnt ∧ t.symCnt = s.symCnt) ∧
    (i ≠ .codes → i ≠ .encode → t.codeLen = s.codeLen ∧ t.codePat = s.codePat) ∧
    (i ≠ .codes → i ≠ .encode → i ≠ .build → i ≠ .clear → t.codeValid = s.codeValid) ∧
    ((∀ w, i ≠ .wrbits w) → (∀ c, i ≠ .putsym c) → i ≠ .finish → i ≠ .encode → t.pack = s.pack) ∧
    ((∀ w, i ≠ .wrbits w) → (∀ c, i ≠ .putsym c) → i ≠ .finish → i ≠ .encode → i ≠ .bwinit →
      i ≠ .clear → t.packLen = s.packLen ∧ t.trail = s.trail ∧ t.totalBits = s.totalBits ∧
      t.bwCur = s.bwCur ∧ t.bwFree = s.bwFree ∧ t.bwFin = s.bwFin) ∧
    (i ≠ .decode → t.symOut = s.symOut) ∧
    (i ≠ .decode → i ≠ .brinit → i ≠ .clear → t.outLen = s.outLen ∧ t.brCursor = s.brCursor) ∧
    (i ≠ .decode → i ≠ .brinit → i ≠ .clear → i ≠ .rdbit → t.brPos = s.brPos ∧ t.brBit = s.brBit)

/-- The invariant holds right after reset, whatever the parameters of the instance (rules R4, R157). -/
def Obligations.ResetSatisfiesTheInvariant : Prop :=
  State.reset.Inv ∧
  ∀ a b, 1 ≤ a → a ≤ 262144 → 1 ≤ b → b ≤ 262144 → (State.resetOf a b).Inv

/-- Every step, the host's or the engine's, keeps the invariant. -/
def Obligations.StepKeepsTheInvariant : Prop :=
  ∀ (s t : State), s.Inv → step s = .next t → t.Inv

/-! ### The host port -/

/-- Rule R44: the address of every word of the map reaches that word. -/
def Obligations.AddressMapReachesEveryWord : Prop :=
  ∀ (symCap packCap : Nat) (l : Loc), symCap ≤ 262144 → packCap ≤ 262144 → l.exists symCap packCap = true →
    ∃ a, l.addr = some a ∧ locate symCap packCap a = l

/-- Rule R43: address bits [1:0] are not decoded. -/
def Obligations.LowAddressBitsAreIgnored : Prop :=
  ∀ (s : State) (a b : Addr) (v : Word), a.extractLsb' 2 20 = b.extractLsb' 2 20 →
    s.hostValue a = s.hostValue b ∧ s.hostWrite a v = s.hostWrite b v

/-- Rules R12 and R13: ID and VERSION are constants; no state, busy or not, reads them otherwise. -/
def Obligations.IdAndVersionNeverChange : Prop :=
  ∀ s : State, s.hostValue 0x000#22 = 0x48554646#32 ∧ s.hostValue 0x004#22 = 0x00000001#32

/-- Rule R56: a host read leaves the block as it was; only the observation grows by the value read (and the
model's counter of draws moves on). -/
def Obligations.HostReadHasNoSideEffect : Prop :=
  ∀ (s : State) (a : Addr) (rest : List HostOp), s.port = .read a :: rest →
    step s = .next { s with
      port := rest, readLog := s.readLog ++ [s.hostValue a], draws := s.draws + 1 }

/-- Rules R43, R57 and R70: a host write is one step and is `hostWrite`, which drops it while BUSY = 1; a
CHECK reads one word and stops the host's program unless the value is the one asked for. How the model holds a
host program is its own choice (log 6). -/
def Obligations.HostAccessIsOneStep : Prop :=
  ∀ (s : State) (rest : List HostOp) (a : Addr) (v mask : Word),
    (s.port = .write a v :: rest → step s = .next ({ s with port := rest }.hostWrite a v)) ∧
    (s.port = .check a mask v :: rest → s.hostValue a &&& mask = v →
      step s = .next { s with
        port := rest, readLog := s.readLog ++ [s.hostValue a], draws := s.draws + 1 }) ∧
    (s.port = .check a mask v :: rest → s.hostValue a &&& mask ≠ v →
      step s = .next { s with
        port := [], readLog := s.readLog ++ [s.hostValue a], draws := s.draws + 1 })

/-- Rules R11, R45 to R47, R50, R56 and R60: what the host writes to a read-write word it reads back, the named
bits of it, and nothing changes but the named fields of that word: no other register, no other entry, no
code. -/
def Obligations.HostReadsBackWhatItWrote : Prop :=
  ∀ (s : State) (a : Addr) (v : Word), s.Inv → s.busy = false →
    let t := s.hostWrite a v
    (s.locate a = .reg .arg → t = { s with arg := v } ∧ t.hostValue a = v) ∧
    (s.locate a = .reg .inLen → t = { s with inLen := v } ∧ t.hostValue a = v) ∧
    (s.locate a = .reg .packLen → t = { s with packLen := v } ∧ t.hostValue a = v) ∧
    (s.locate a = .reg .symCnt → t = { s with symCnt := v } ∧ t.hostValue a = v) ∧
    (s.locate a = .reg .root → t = { s with root := t.root } ∧ t.hostValue a = v &&& 0x1FF#32) ∧
    (s.locate a = .reg .nodeCnt → t = { s with nodeCnt := t.nodeCnt } ∧ t.hostValue a = v &&& 0x3FF#32) ∧
    (s.locate a = .reg .trail → t = { s with trail := t.trail } ∧ t.hostValue a = v &&& 0x7#32) ∧
    (∀ c, s.locate a = .freq c → t = { s with freq := t.freq } ∧ t.hostValue a = v ∧
      ∀ j, j ≠ c → t.freq.look j = s.freq.look j) ∧
    (∀ i, s.locate a = .nodeLink i →
      t = { s with nodeLink := t.nodeLink } ∧ t.hostValue a = v &&& 0x83FFFFFF#32 ∧
      ∀ j, j ≠ i → t.nodeLink.look j = s.nodeLink.look j) ∧
    (∀ i, s.locate a = .nodeWeight i → t = { s with nodeWeight := t.nodeWeight } ∧ t.hostValue a = v ∧
      ∀ j, j ≠ i → t.nodeWeight.look j = s.nodeWeight.look j) ∧
    (∀ i, s.locate a = .symIn i → t = { s with symIn := t.symIn } ∧ t.hostValue a = v &&& 0xFF#32 ∧
      ∀ j, j ≠ i → t.symIn.look j = s.symIn.look j) ∧
    (∀ i, s.locate a = .pack i → t = { s with pack := t.pack } ∧ t.hostValue a = v &&& 0xFF#32 ∧
      ∀ j, j ≠ i → t.pack.look j = s.pack.look j)

/-- Rule R51: a word the map does not have reads 0 and ignores a write, a byte-window word at or above the
capacity among them. -/
def Obligations.UnmappedWordsReadZero : Prop :=
  ∀ (s : State) (a : Addr) (v : Word), s.busy = false →
    ((0x048 ≤ a.toNat ∧ a.toNat < 0x400) ∨ (0x800 ≤ a.toNat ∧ a.toNat < 0x1000) ∨
      (0x1FF8 ≤ a.toNat ∧ a.toNat < 0x2000) ∨ (0x2400 ≤ a.toNat ∧ a.toNat < 0x4000) ∨
      (0x6000 ≤ a.toNat ∧ a.toNat < 0x100000) ∨
      (0x100000 + 4 * s.symCap ≤ a.toNat ∧ a.toNat < 0x200000) ∨
      (0x200000 + 4 * s.packCap ≤ a.toNat ∧ a.toNat < 0x300000) ∨
      0x300000 + 4 * s.symCap ≤ a.toNat) →
    s.hostValue a = 0#32 ∧ s.hostWrite a v = s

/-- Rules R11, R14 to R16, R25 to R29 and R48 to R50: a write to a read-only register or window is ignored, and while
BUSY = 0 the host reads there the state the word shows, reserved bits 0 (STATUS, ID and VERSION have statements
of their own). CMD reads 0. -/
def Obligations.ReadOnlyWordsIgnoreWrites : Prop :=
  ∀ (s : State) (a : Addr) (v : Word),
    ((∃ r ∈ [Reg.id, .version, .status, .outLen, .totalBits, .bwState, .brPos, .brState, .symCap, .packCap],
      s.locate a = .reg r) ∨ (∃ c, s.locate a = .codeLen c) ∨ (∃ c w, s.locate a = .codePat c w) ∨
      (∃ i, s.locate a = .symOut i) →
      s.hostWrite a v = s) ∧
    (s.busy = false →
      s.hostValue 0x008#22 = 0#32 ∧ s.hostValue 0x02C#22 = s.outLen ∧ s.hostValue 0x030#22 = s.totalBits ∧
      s.hostValue 0x038#22 = s.brPos ∧ s.hostValue 0x040#22 = BitVec.ofNat 32 s.symCap ∧
      s.hostValue 0x044#22 = BitVec.ofNat 32 s.packCap ∧
      (s.hostValue 0x034#22).extractLsb' 0 8 = s.bwCur ∧ (s.hostValue 0x034#22).extractLsb' 8 4 = s.bwFree ∧
      (s.hostValue 0x034#22).extractLsb' 12 4 = 0#4 ∧ (s.hostValue 0x034#22).getLsbD 16 = s.bwFin ∧
      (s.hostValue 0x034#22).extractLsb' 17 15 = 0#15 ∧
      (s.hostValue 0x03C#22).extractLsb' 0 3 = s.brBit ∧ (s.hostValue 0x03C#22).extractLsb' 3 13 = 0#13 ∧
      (s.hostValue 0x03C#22).extractLsb' 16 9 = s.brCursor ∧
      (s.hostValue 0x03C#22).extractLsb' 25 7 = 0#7 ∧
      (∀ c, s.locate a = .codeLen c →
        (s.hostValue a).getLsbD 31 = s.validAt (BitVec.ofNat 8 c) ∧
        (s.hostValue a).extractLsb' 8 23 = 0#23 ∧
        (s.hostValue a).extractLsb' 0 8 = s.codeLenAt (BitVec.ofNat 8 c)) ∧
      (∀ c w, s.locate a = .codePat c w → ∀ j, j < 32 →
        (s.hostValue a).getLsbD j = (s.codePatAt (BitVec.ofNat 8 c)).getLsbD (32 * w + j)) ∧
      (∀ i, s.locate a = .symOut i →
        (s.hostValue a).extractLsb' 0 8 = s.symOutAt i ∧ (s.hostValue a).extractLsb' 8 24 = 0#24))

/-- Rule R52: while BUSY = 1 a write to any address is dropped; ID, VERSION, SYM_CAP and PACK_CAP read their
constants; STATUS reads with bit 0 = 1. Every other value read is a free value, of which nothing is said. -/
def Obligations.AccessesWhileBusy : Prop :=
  ∀ (s : State) (a : Addr) (v : Word), s.busy = true →
    s.hostWrite a v = s ∧
    s.hostValue 0x000#22 = 0x48554646#32 ∧ s.hostValue 0x004#22 = 0x00000001#32 ∧
    s.hostValue 0x040#22 = BitVec.ofNat 32 s.symCap ∧ s.hostValue 0x044#22 = BitVec.ofNat 32 s.packCap ∧
    (s.hostValue 0x010#22).getLsbD 0 = true

/-- Rule R80: a write to CMD is accepted while BUSY = 0 and changes only the latch and BUSY; while BUSY = 1 it
leaves no trace. -/
def Obligations.CommandAcceptance : Prop :=
  ∀ (s : State) (w : Word) (rest : List HostOp), s.port = .write 0x008#22 w :: rest →
    (s.busy = false → step s = .next { s with port := rest, latch := some w, busy := true }) ∧
    (s.busy = true → step s = .next { s with port := rest })

/-- Rules R155 and R157: hardware reset, asserted at any time, gives the reset state of the instance and
abandons an accepted command; the registers then read the reset values of rule R11. What the host has still
to do, what it has read and the counter of draws are the model's own and stay (log 13). -/
def Obligations.HardwareResetFromAnyState : Prop :=
  ∀ (s : State) (rest : List HostOp), s.port = .reset :: rest →
    ∃ t, step s = .next t ∧
      t = { State.resetOf s.symCap s.packCap with
        port := rest, readLog := s.readLog, draws := s.draws + 1 } ∧
      registers.map t.readReg =
        [0x48554646#32, 1#32, 0#32, 0#32, 4#32, 0#32, 0x1FF#32, 0#32, 0#32, 0#32, 0#32, 0#32, 0#32,
          0x800#32, 0#32, 0x01FF0007#32, BitVec.ofNat 32 s.symCap, BitVec.ofNat 32 s.packCap] ∧
      t.latch = none ∧ t.busy = false ∧ (∀ c : Byte, t.validAt c = false)
end

