-- ==== Sys2Proof/Laws/Memory.lean ====
section
/-! SUPPORT. The laws of a memory: read after write, and that every operation keeps the canonical form. -/

namespace Sys2Proof.Machine

variable {α : Type}

@[simp] theorem Memory.look_nil (k : Nat) : Memory.look ([] : Memory α) k = none := rfl

theorem Memory.look_cons (k' : Nat) (v : α) (m : Memory α) (k : Nat) :
    Memory.look ((k', v) :: m) k = if k = k' then some v else Memory.look m k := rfl

/-- Read after write, at the place written and at every other. -/
theorem Memory.look_put (m : Memory α) (k j : Nat) (v : α) :
    Memory.look (m.put k v) j = if j = k then some v else Memory.look m j := by
  induction m with
  | nil => simp [Memory.put, Memory.look_cons]
  | cons kv m ih =>
    obtain ⟨k', v'⟩ := kv
    simp only [Memory.put]
    split
    · simp [Memory.look_cons]
    · split
      · next h => subst h; simp only [Memory.look_cons]; split <;> rfl
      · next h1 h2 =>
        simp only [Memory.look_cons, ih]
        split
        · next h3 => subst h3; simp [Ne.symm h2]
        · rfl

@[simp] theorem Memory.look_put_same (m : Memory α) (k : Nat) (v : α) :
    Memory.look (m.put k v) k = some v := by simp [Memory.look_put]

theorem Memory.look_put_ne (m : Memory α) {k j : Nat} (v : α) (h : j ≠ k) :
    Memory.look (m.put k v) j = Memory.look m j := by simp [Memory.look_put, h]

theorem Memory.look_map_pair (ks : List Nat) (f : Nat → α) (j : Nat) :
    Memory.look (ks.map fun i => (i, f i)) j = if j ∈ ks then some (f j) else none := by
  induction ks with
  | nil => rfl
  | cons k ks ih =>
    simp only [List.map_cons, Memory.look_cons, ih, List.mem_cons]
    by_cases h : j = k <;> simp [h]

/-- Reading a memory all of whose entries are written. -/
theorem Memory.look_tabulate (n : Nat) (f : Nat → α) (j : Nat) :
    Memory.look (Memory.tabulate n f) j = if j < n then some (f j) else none := by
  simp [Memory.tabulate, Memory.look_map_pair]

theorem Memory.mem_keys_put (m : Memory α) (k : Nat) (v : α) (j : Nat) :
    j ∈ (m.put k v).map Prod.fst ↔ j = k ∨ j ∈ m.map Prod.fst := by
  induction m with
  | nil => simp [Memory.put]
  | cons kv m ih =>
    obtain ⟨k', v'⟩ := kv
    simp only [Memory.put]
    split
    · simp
    · split
      · next h => subst h; simp
      · simp only [List.map_cons, List.mem_cons, ih]; tauto

/-- A write at an index of the memory keeps the canonical form. -/
theorem Memory.put_wf {bound : Nat} {m : Memory α} {k : Nat} (v : α) (hk : k < bound)
    (h : Memory.wf bound m) : Memory.wf bound (m.put k v) := by
  refine ⟨?_, fun j hj => ?_⟩
  · obtain ⟨h, -⟩ := h
    induction m with
    | nil => simp [Memory.put]
    | cons kv m ih =>
      obtain ⟨k', v'⟩ := kv
      simp only [List.map_cons, List.pairwise_cons] at h
      simp only [Memory.put]
      split
      · next hlt =>
        simp only [List.map_cons, List.pairwise_cons, List.mem_cons]
        exact ⟨fun a ha => ha.elim (fun e => e ▸ hlt) fun ha => hlt.trans (h.1 a ha), h⟩
      · split
        · next he => subst he; simpa using h
        · next hlt hne =>
          simp only [List.map_cons, List.pairwise_cons]
          refine ⟨fun a ha => ?_, ih h.2⟩
          rcases (Memory.mem_keys_put m k v a).1 ha with rfl | ha
          · omega
          · exact h.1 a ha
  · rcases (Memory.mem_keys_put m k v j).1 hj with rfl | hj
    · exact hk
    · exact h.2 j hj

/-- A memory all of whose entries are written is in canonical form. -/
theorem Memory.tabulate_wf (n : Nat) (f : Nat → α) : Memory.wf n (Memory.tabulate n f) := by
  have hk : (Memory.tabulate n f).map Prod.fst = List.range n := by
    simp [Memory.tabulate, Function.comp_def]
  simp only [Memory.wf, hk]
  exact ⟨List.pairwise_lt_range, fun k hk => List.mem_range.1 hk⟩

/-- A memory nothing has written, as after reset, is in canonical form. -/
theorem Memory.nil_wf (bound : Nat) : Memory.wf bound ([] : Memory α) := by simp [Memory.wf]

theorem Memory.look_isSome_iff (m : Memory α) (k : Nat) :
    (Memory.look m k).isSome ↔ k ∈ m.map Prod.fst := by
  induction m with
  | nil => simp
  | cons kv m ih =>
    obtain ⟨k', v⟩ := kv
    rw [Memory.look_cons]
    by_cases h : k = k' <;> simp [h, ih]

/-- Memories in canonical form that read alike are the same data. -/
theorem Memory.ext_of_wf {bound : Nat} {m n : Memory α} (hm : Memory.wf bound m)
    (hn : Memory.wf bound n) (h : ∀ k, Memory.look m k = Memory.look n k) : m = n := by
  obtain ⟨hm, -⟩ := hm
  obtain ⟨hn, -⟩ := hn
  induction m generalizing n with
  | nil =>
    cases n with
    | nil => rfl
    | cons kv n => obtain ⟨k, v⟩ := kv; simpa [Memory.look_cons] using h k
  | cons kv m ih =>
    obtain ⟨k, v⟩ := kv
    cases n with
    | nil => simpa [Memory.look_cons] using h k
    | cons kv' n =>
      obtain ⟨k', v'⟩ := kv'
      simp only [List.map_cons, List.pairwise_cons] at hm hn
      have hin : k ∈ (((k', v') :: n : Memory α).map Prod.fst) := by
        rw [← Memory.look_isSome_iff, ← h k]; simp [Memory.look_cons]
      have hin' : k' ∈ (((k, v) :: m : Memory α).map Prod.fst) := by
        rw [← Memory.look_isSome_iff, h k']; simp [Memory.look_cons]
      simp only [List.map_cons, List.mem_cons] at hin hin'
      have hk : k = k' := by
        rcases hin with e | e
        · exact e
        · rcases hin' with e' | e'
          · exact e'.symm
          · exact absurd (hm.1 _ e') (by have := hn.1 _ e; omega)
      subst hk
      have hv : v = v' := by simpa [Memory.look_cons] using h k
      subst hv
      congr 1
      refine ih (fun j => ?_) hm.2 hn.2
      by_cases hj : j = k
      · subst hj
        have hnone : ∀ p : Memory α, (∀ a ∈ p.map Prod.fst, j < a) → Memory.look p j = none := by
          intro p hp
          by_contra hne
          rw [← ne_eq, Option.ne_none_iff_isSome, Memory.look_isSome_iff] at hne
          exact absurd (hp j hne) (lt_irrefl j)
        rw [hnone m hm.1, hnone n hn.1]
      · simpa [Memory.look_cons, hj] using h j

end Sys2Proof.Machine
end

