-- ==== Sys2Proof/Laws/State.lean ====
section
/-! SUPPORT. What each named update of the state does to each field, so that no proof unfolds an update. -/

namespace Sys2Proof.Machine

/-! ### State.complete -/

@[simp] theorem State.complete_arg (s : State) (op : Byte) (code : Result) (d : Byte) (t : Bool) : (s.complete op code d t).arg = s.arg := rfl
@[simp] theorem State.complete_inLen (s : State) (op : Byte) (code : Result) (d : Byte) (t : Bool) : (s.complete op code d t).inLen = s.inLen := rfl
@[simp] theorem State.complete_root (s : State) (op : Byte) (code : Result) (d : Byte) (t : Bool) : (s.complete op code d t).root = s.root := rfl
@[simp] theorem State.complete_nodeCnt (s : State) (op : Byte) (code : Result) (d : Byte) (t : Bool) : (s.complete op code d t).nodeCnt = s.nodeCnt := rfl
@[simp] theorem State.complete_packLen (s : State) (op : Byte) (code : Result) (d : Byte) (t : Bool) : (s.complete op code d t).packLen = s.packLen := rfl
@[simp] theorem State.complete_trail (s : State) (op : Byte) (code : Result) (d : Byte) (t : Bool) : (s.complete op code d t).trail = s.trail := rfl
@[simp] theorem State.complete_symCnt (s : State) (op : Byte) (code : Result) (d : Byte) (t : Bool) : (s.complete op code d t).symCnt = s.symCnt := rfl
@[simp] theorem State.complete_outLen (s : State) (op : Byte) (code : Result) (d : Byte) (t : Bool) : (s.complete op code d t).outLen = s.outLen := rfl
@[simp] theorem State.complete_totalBits (s : State) (op : Byte) (code : Result) (d : Byte) (t : Bool) : (s.complete op code d t).totalBits = s.totalBits := rfl
@[simp] theorem State.complete_bwCur (s : State) (op : Byte) (code : Result) (d : Byte) (t : Bool) : (s.complete op code d t).bwCur = s.bwCur := rfl
@[simp] theorem State.complete_bwFree (s : State) (op : Byte) (code : Result) (d : Byte) (t : Bool) : (s.complete op code d t).bwFree = s.bwFree := rfl
@[simp] theorem State.complete_bwFin (s : State) (op : Byte) (code : Result) (d : Byte) (t : Bool) : (s.complete op code d t).bwFin = s.bwFin := rfl
@[simp] theorem State.complete_brPos (s : State) (op : Byte) (code : Result) (d : Byte) (t : Bool) : (s.complete op code d t).brPos = s.brPos := rfl
@[simp] theorem State.complete_brBit (s : State) (op : Byte) (code : Result) (d : Byte) (t : Bool) : (s.complete op code d t).brBit = s.brBit := rfl
@[simp] theorem State.complete_brCursor (s : State) (op : Byte) (code : Result) (d : Byte) (t : Bool) : (s.complete op code d t).brCursor = s.brCursor := rfl
@[simp] theorem State.complete_busy (s : State) (op : Byte) (code : Result) (d : Byte) (t : Bool) : (s.complete op code d t).busy = false := rfl
@[simp] theorem State.complete_trunc (s : State) (op : Byte) (code : Result) (d : Byte) (t : Bool) : (s.complete op code d t).trunc = t := rfl
@[simp] theorem State.complete_result (s : State) (op : Byte) (code : Result) (d : Byte) (t : Bool) : (s.complete op code d t).result = code := rfl
@[simp] theorem State.complete_detail (s : State) (op : Byte) (code : Result) (d : Byte) (t : Bool) : (s.complete op code d t).detail = d := rfl
@[simp] theorem State.complete_lastop (s : State) (op : Byte) (code : Result) (d : Byte) (t : Bool) : (s.complete op code d t).lastop = op := rfl
@[simp] theorem State.complete_latch (s : State) (op : Byte) (code : Result) (d : Byte) (t : Bool) : (s.complete op code d t).latch = none := rfl
@[simp] theorem State.complete_symCap (s : State) (op : Byte) (code : Result) (d : Byte) (t : Bool) : (s.complete op code d t).symCap = s.symCap := rfl
@[simp] theorem State.complete_packCap (s : State) (op : Byte) (code : Result) (d : Byte) (t : Bool) : (s.complete op code d t).packCap = s.packCap := rfl
@[simp] theorem State.complete_freq (s : State) (op : Byte) (code : Result) (d : Byte) (t : Bool) : (s.complete op code d t).freq = s.freq := rfl
@[simp] theorem State.complete_nodeLink (s : State) (op : Byte) (code : Result) (d : Byte) (t : Bool) : (s.complete op code d t).nodeLink = s.nodeLink := rfl
@[simp] theorem State.complete_nodeWeight (s : State) (op : Byte) (code : Result) (d : Byte) (t : Bool) : (s.complete op code d t).nodeWeight = s.nodeWeight := rfl
@[simp] theorem State.complete_codeValid (s : State) (op : Byte) (code : Result) (d : Byte) (t : Bool) : (s.complete op code d t).codeValid = s.codeValid := rfl
@[simp] theorem State.complete_codeLen (s : State) (op : Byte) (code : Result) (d : Byte) (t : Bool) : (s.complete op code d t).codeLen = s.codeLen := rfl
@[simp] theorem State.complete_codePat (s : State) (op : Byte) (code : Result) (d : Byte) (t : Bool) : (s.complete op code d t).codePat = s.codePat := rfl
@[simp] theorem State.complete_symIn (s : State) (op : Byte) (code : Result) (d : Byte) (t : Bool) : (s.complete op code d t).symIn = s.symIn := rfl
@[simp] theorem State.complete_pack (s : State) (op : Byte) (code : Result) (d : Byte) (t : Bool) : (s.complete op code d t).pack = s.pack := rfl
@[simp] theorem State.complete_symOut (s : State) (op : Byte) (code : Result) (d : Byte) (t : Bool) : (s.complete op code d t).symOut = s.symOut := rfl
@[simp] theorem State.complete_port (s : State) (op : Byte) (code : Result) (d : Byte) (t : Bool) : (s.complete op code d t).port = s.port := rfl
@[simp] theorem State.complete_readLog (s : State) (op : Byte) (code : Result) (d : Byte) (t : Bool) : (s.complete op code d t).readLog = s.readLog := rfl
@[simp] theorem State.complete_draws (s : State) (op : Byte) (code : Result) (d : Byte) (t : Bool) : (s.complete op code d t).draws = s.draws + 1 := rfl

/-! ### State.writeFreq -/

@[simp] theorem State.writeFreq_arg (s : State) (c : Byte) (v : Word) : (s.writeFreq c v).arg = s.arg := rfl
@[simp] theorem State.writeFreq_inLen (s : State) (c : Byte) (v : Word) : (s.writeFreq c v).inLen = s.inLen := rfl
@[simp] theorem State.writeFreq_root (s : State) (c : Byte) (v : Word) : (s.writeFreq c v).root = s.root := rfl
@[simp] theorem State.writeFreq_nodeCnt (s : State) (c : Byte) (v : Word) : (s.writeFreq c v).nodeCnt = s.nodeCnt := rfl
@[simp] theorem State.writeFreq_packLen (s : State) (c : Byte) (v : Word) : (s.writeFreq c v).packLen = s.packLen := rfl
@[simp] theorem State.writeFreq_trail (s : State) (c : Byte) (v : Word) : (s.writeFreq c v).trail = s.trail := rfl
@[simp] theorem State.writeFreq_symCnt (s : State) (c : Byte) (v : Word) : (s.writeFreq c v).symCnt = s.symCnt := rfl
@[simp] theorem State.writeFreq_outLen (s : State) (c : Byte) (v : Word) : (s.writeFreq c v).outLen = s.outLen := rfl
@[simp] theorem State.writeFreq_totalBits (s : State) (c : Byte) (v : Word) : (s.writeFreq c v).totalBits = s.totalBits := rfl
@[simp] theorem State.writeFreq_bwCur (s : State) (c : Byte) (v : Word) : (s.writeFreq c v).bwCur = s.bwCur := rfl
@[simp] theorem State.writeFreq_bwFree (s : State) (c : Byte) (v : Word) : (s.writeFreq c v).bwFree = s.bwFree := rfl
@[simp] theorem State.writeFreq_bwFin (s : State) (c : Byte) (v : Word) : (s.writeFreq c v).bwFin = s.bwFin := rfl
@[simp] theorem State.writeFreq_brPos (s : State) (c : Byte) (v : Word) : (s.writeFreq c v).brPos = s.brPos := rfl
@[simp] theorem State.writeFreq_brBit (s : State) (c : Byte) (v : Word) : (s.writeFreq c v).brBit = s.brBit := rfl
@[simp] theorem State.writeFreq_brCursor (s : State) (c : Byte) (v : Word) : (s.writeFreq c v).brCursor = s.brCursor := rfl
@[simp] theorem State.writeFreq_busy (s : State) (c : Byte) (v : Word) : (s.writeFreq c v).busy = s.busy := rfl
@[simp] theorem State.writeFreq_trunc (s : State) (c : Byte) (v : Word) : (s.writeFreq c v).trunc = s.trunc := rfl
@[simp] theorem State.writeFreq_result (s : State) (c : Byte) (v : Word) : (s.writeFreq c v).result = s.result := rfl
@[simp] theorem State.writeFreq_detail (s : State) (c : Byte) (v : Word) : (s.writeFreq c v).detail = s.detail := rfl
@[simp] theorem State.writeFreq_lastop (s : State) (c : Byte) (v : Word) : (s.writeFreq c v).lastop = s.lastop := rfl
@[simp] theorem State.writeFreq_latch (s : State) (c : Byte) (v : Word) : (s.writeFreq c v).latch = s.latch := rfl
@[simp] theorem State.writeFreq_symCap (s : State) (c : Byte) (v : Word) : (s.writeFreq c v).symCap = s.symCap := rfl
@[simp] theorem State.writeFreq_packCap (s : State) (c : Byte) (v : Word) : (s.writeFreq c v).packCap = s.packCap := rfl
@[simp] theorem State.writeFreq_freq (s : State) (c : Byte) (v : Word) : (s.writeFreq c v).freq = s.freq.put c.toNat v := rfl
@[simp] theorem State.writeFreq_nodeLink (s : State) (c : Byte) (v : Word) : (s.writeFreq c v).nodeLink = s.nodeLink := rfl
@[simp] theorem State.writeFreq_nodeWeight (s : State) (c : Byte) (v : Word) : (s.writeFreq c v).nodeWeight = s.nodeWeight := rfl
@[simp] theorem State.writeFreq_codeValid (s : State) (c : Byte) (v : Word) : (s.writeFreq c v).codeValid = s.codeValid := rfl
@[simp] theorem State.writeFreq_codeLen (s : State) (c : Byte) (v : Word) : (s.writeFreq c v).codeLen = s.codeLen := rfl
@[simp] theorem State.writeFreq_codePat (s : State) (c : Byte) (v : Word) : (s.writeFreq c v).codePat = s.codePat := rfl
@[simp] theorem State.writeFreq_symIn (s : State) (c : Byte) (v : Word) : (s.writeFreq c v).symIn = s.symIn := rfl
@[simp] theorem State.writeFreq_pack (s : State) (c : Byte) (v : Word) : (s.writeFreq c v).pack = s.pack := rfl
@[simp] theorem State.writeFreq_symOut (s : State) (c : Byte) (v : Word) : (s.writeFreq c v).symOut = s.symOut := rfl
@[simp] theorem State.writeFreq_port (s : State) (c : Byte) (v : Word) : (s.writeFreq c v).port = s.port := rfl
@[simp] theorem State.writeFreq_readLog (s : State) (c : Byte) (v : Word) : (s.writeFreq c v).readLog = s.readLog := rfl
@[simp] theorem State.writeFreq_draws (s : State) (c : Byte) (v : Word) : (s.writeFreq c v).draws = s.draws := rfl

/-! ### State.clearFreq -/

@[simp] theorem State.clearFreq_arg (s : State) : (s.clearFreq).arg = s.arg := rfl
@[simp] theorem State.clearFreq_inLen (s : State) : (s.clearFreq).inLen = s.inLen := rfl
@[simp] theorem State.clearFreq_root (s : State) : (s.clearFreq).root = s.root := rfl
@[simp] theorem State.clearFreq_nodeCnt (s : State) : (s.clearFreq).nodeCnt = s.nodeCnt := rfl
@[simp] theorem State.clearFreq_packLen (s : State) : (s.clearFreq).packLen = s.packLen := rfl
@[simp] theorem State.clearFreq_trail (s : State) : (s.clearFreq).trail = s.trail := rfl
@[simp] theorem State.clearFreq_symCnt (s : State) : (s.clearFreq).symCnt = s.symCnt := rfl
@[simp] theorem State.clearFreq_outLen (s : State) : (s.clearFreq).outLen = s.outLen := rfl
@[simp] theorem State.clearFreq_totalBits (s : State) : (s.clearFreq).totalBits = s.totalBits := rfl
@[simp] theorem State.clearFreq_bwCur (s : State) : (s.clearFreq).bwCur = s.bwCur := rfl
@[simp] theorem State.clearFreq_bwFree (s : State) : (s.clearFreq).bwFree = s.bwFree := rfl
@[simp] theorem State.clearFreq_bwFin (s : State) : (s.clearFreq).bwFin = s.bwFin := rfl
@[simp] theorem State.clearFreq_brPos (s : State) : (s.clearFreq).brPos = s.brPos := rfl
@[simp] theorem State.clearFreq_brBit (s : State) : (s.clearFreq).brBit = s.brBit := rfl
@[simp] theorem State.clearFreq_brCursor (s : State) : (s.clearFreq).brCursor = s.brCursor := rfl
@[simp] theorem State.clearFreq_busy (s : State) : (s.clearFreq).busy = s.busy := rfl
@[simp] theorem State.clearFreq_trunc (s : State) : (s.clearFreq).trunc = s.trunc := rfl
@[simp] theorem State.clearFreq_result (s : State) : (s.clearFreq).result = s.result := rfl
@[simp] theorem State.clearFreq_detail (s : State) : (s.clearFreq).detail = s.detail := rfl
@[simp] theorem State.clearFreq_lastop (s : State) : (s.clearFreq).lastop = s.lastop := rfl
@[simp] theorem State.clearFreq_latch (s : State) : (s.clearFreq).latch = s.latch := rfl
@[simp] theorem State.clearFreq_symCap (s : State) : (s.clearFreq).symCap = s.symCap := rfl
@[simp] theorem State.clearFreq_packCap (s : State) : (s.clearFreq).packCap = s.packCap := rfl
@[simp] theorem State.clearFreq_freq (s : State) : (s.clearFreq).freq = Memory.tabulate Config.alphabet fun _ => 0#32 := by
  simp only [State.clearFreq]
@[simp] theorem State.clearFreq_nodeLink (s : State) : (s.clearFreq).nodeLink = s.nodeLink := rfl
@[simp] theorem State.clearFreq_nodeWeight (s : State) : (s.clearFreq).nodeWeight = s.nodeWeight := rfl
@[simp] theorem State.clearFreq_codeValid (s : State) : (s.clearFreq).codeValid = s.codeValid := rfl
@[simp] theorem State.clearFreq_codeLen (s : State) : (s.clearFreq).codeLen = s.codeLen := rfl
@[simp] theorem State.clearFreq_codePat (s : State) : (s.clearFreq).codePat = s.codePat := rfl
@[simp] theorem State.clearFreq_symIn (s : State) : (s.clearFreq).symIn = s.symIn := rfl
@[simp] theorem State.clearFreq_pack (s : State) : (s.clearFreq).pack = s.pack := rfl
@[simp] theorem State.clearFreq_symOut (s : State) : (s.clearFreq).symOut = s.symOut := rfl
@[simp] theorem State.clearFreq_port (s : State) : (s.clearFreq).port = s.port := rfl
@[simp] theorem State.clearFreq_readLog (s : State) : (s.clearFreq).readLog = s.readLog := rfl
@[simp] theorem State.clearFreq_draws (s : State) : (s.clearFreq).draws = s.draws := rfl

/-! ### State.writeLink -/

@[simp] theorem State.writeLink_arg (s : State) (i : Nat) (e : NodeLink) : (s.writeLink i e).arg = s.arg := by
  unfold State.writeLink; split <;> rfl
@[simp] theorem State.writeLink_inLen (s : State) (i : Nat) (e : NodeLink) : (s.writeLink i e).inLen = s.inLen := by
  unfold State.writeLink; split <;> rfl
@[simp] theorem State.writeLink_root (s : State) (i : Nat) (e : NodeLink) : (s.writeLink i e).root = s.root := by
  unfold State.writeLink; split <;> rfl
@[simp] theorem State.writeLink_nodeCnt (s : State) (i : Nat) (e : NodeLink) : (s.writeLink i e).nodeCnt = s.nodeCnt := by
  unfold State.writeLink; split <;> rfl
@[simp] theorem State.writeLink_packLen (s : State) (i : Nat) (e : NodeLink) : (s.writeLink i e).packLen = s.packLen := by
  unfold State.writeLink; split <;> rfl
@[simp] theorem State.writeLink_trail (s : State) (i : Nat) (e : NodeLink) : (s.writeLink i e).trail = s.trail := by
  unfold State.writeLink; split <;> rfl
@[simp] theorem State.writeLink_symCnt (s : State) (i : Nat) (e : NodeLink) : (s.writeLink i e).symCnt = s.symCnt := by
  unfold State.writeLink; split <;> rfl
@[simp] theorem State.writeLink_outLen (s : State) (i : Nat) (e : NodeLink) : (s.writeLink i e).outLen = s.outLen := by
  unfold State.writeLink; split <;> rfl
@[simp] theorem State.writeLink_totalBits (s : State) (i : Nat) (e : NodeLink) : (s.writeLink i e).totalBits = s.totalBits := by
  unfold State.writeLink; split <;> rfl
@[simp] theorem State.writeLink_bwCur (s : State) (i : Nat) (e : NodeLink) : (s.writeLink i e).bwCur = s.bwCur := by
  unfold State.writeLink; split <;> rfl
@[simp] theorem State.writeLink_bwFree (s : State) (i : Nat) (e : NodeLink) : (s.writeLink i e).bwFree = s.bwFree := by
  unfold State.writeLink; split <;> rfl
@[simp] theorem State.writeLink_bwFin (s : State) (i : Nat) (e : NodeLink) : (s.writeLink i e).bwFin = s.bwFin := by
  unfold State.writeLink; split <;> rfl
@[simp] theorem State.writeLink_brPos (s : State) (i : Nat) (e : NodeLink) : (s.writeLink i e).brPos = s.brPos := by
  unfold State.writeLink; split <;> rfl
@[simp] theorem State.writeLink_brBit (s : State) (i : Nat) (e : NodeLink) : (s.writeLink i e).brBit = s.brBit := by
  unfold State.writeLink; split <;> rfl
@[simp] theorem State.writeLink_brCursor (s : State) (i : Nat) (e : NodeLink) : (s.writeLink i e).brCursor = s.brCursor := by
  unfold State.writeLink; split <;> rfl
@[simp] theorem State.writeLink_busy (s : State) (i : Nat) (e : NodeLink) : (s.writeLink i e).busy = s.busy := by
  unfold State.writeLink; split <;> rfl
@[simp] theorem State.writeLink_trunc (s : State) (i : Nat) (e : NodeLink) : (s.writeLink i e).trunc = s.trunc := by
  unfold State.writeLink; split <;> rfl
@[simp] theorem State.writeLink_result (s : State) (i : Nat) (e : NodeLink) : (s.writeLink i e).result = s.result := by
  unfold State.writeLink; split <;> rfl
@[simp] theorem State.writeLink_detail (s : State) (i : Nat) (e : NodeLink) : (s.writeLink i e).detail = s.detail := by
  unfold State.writeLink; split <;> rfl
@[simp] theorem State.writeLink_lastop (s : State) (i : Nat) (e : NodeLink) : (s.writeLink i e).lastop = s.lastop := by
  unfold State.writeLink; split <;> rfl
@[simp] theorem State.writeLink_latch (s : State) (i : Nat) (e : NodeLink) : (s.writeLink i e).latch = s.latch := by
  unfold State.writeLink; split <;> rfl
@[simp] theorem State.writeLink_symCap (s : State) (i : Nat) (e : NodeLink) : (s.writeLink i e).symCap = s.symCap := by
  unfold State.writeLink; split <;> rfl
@[simp] theorem State.writeLink_packCap (s : State) (i : Nat) (e : NodeLink) : (s.writeLink i e).packCap = s.packCap := by
  unfold State.writeLink; split <;> rfl
@[simp] theorem State.writeLink_freq (s : State) (i : Nat) (e : NodeLink) : (s.writeLink i e).freq = s.freq := by
  unfold State.writeLink; split <;> rfl
@[simp] theorem State.writeLink_nodeWeight (s : State) (i : Nat) (e : NodeLink) : (s.writeLink i e).nodeWeight = s.nodeWeight := by
  unfold State.writeLink; split <;> rfl
@[simp] theorem State.writeLink_codeValid (s : State) (i : Nat) (e : NodeLink) : (s.writeLink i e).codeValid = s.codeValid := by
  unfold State.writeLink; split <;> rfl
@[simp] theorem State.writeLink_codeLen (s : State) (i : Nat) (e : NodeLink) : (s.writeLink i e).codeLen = s.codeLen := by
  unfold State.writeLink; split <;> rfl
@[simp] theorem State.writeLink_codePat (s : State) (i : Nat) (e : NodeLink) : (s.writeLink i e).codePat = s.codePat := by
  unfold State.writeLink; split <;> rfl
@[simp] theorem State.writeLink_symIn (s : State) (i : Nat) (e : NodeLink) : (s.writeLink i e).symIn = s.symIn := by
  unfold State.writeLink; split <;> rfl
@[simp] theorem State.writeLink_pack (s : State) (i : Nat) (e : NodeLink) : (s.writeLink i e).pack = s.pack := by
  unfold State.writeLink; split <;> rfl
@[simp] theorem State.writeLink_symOut (s : State) (i : Nat) (e : NodeLink) : (s.writeLink i e).symOut = s.symOut := by
  unfold State.writeLink; split <;> rfl
@[simp] theorem State.writeLink_port (s : State) (i : Nat) (e : NodeLink) : (s.writeLink i e).port = s.port := by
  unfold State.writeLink; split <;> rfl
@[simp] theorem State.writeLink_readLog (s : State) (i : Nat) (e : NodeLink) : (s.writeLink i e).readLog = s.readLog := by
  unfold State.writeLink; split <;> rfl
@[simp] theorem State.writeLink_draws (s : State) (i : Nat) (e : NodeLink) : (s.writeLink i e).draws = s.draws := by
  unfold State.writeLink; split <;> rfl

/-! ### State.writeWeight -/

@[simp] theorem State.writeWeight_arg (s : State) (i : Nat) (v : Word) : (s.writeWeight i v).arg = s.arg := by
  unfold State.writeWeight; split <;> rfl
@[simp] theorem State.writeWeight_inLen (s : State) (i : Nat) (v : Word) : (s.writeWeight i v).inLen = s.inLen := by
  unfold State.writeWeight; split <;> rfl
@[simp] theorem State.writeWeight_root (s : State) (i : Nat) (v : Word) : (s.writeWeight i v).root = s.root := by
  unfold State.writeWeight; split <;> rfl
@[simp] theorem State.writeWeight_nodeCnt (s : State) (i : Nat) (v : Word) : (s.writeWeight i v).nodeCnt = s.nodeCnt := by
  unfold State.writeWeight; split <;> rfl
@[simp] theorem State.writeWeight_packLen (s : State) (i : Nat) (v : Word) : (s.writeWeight i v).packLen = s.packLen := by
  unfold State.writeWeight; split <;> rfl
@[simp] theorem State.writeWeight_trail (s : State) (i : Nat) (v : Word) : (s.writeWeight i v).trail = s.trail := by
  unfold State.writeWeight; split <;> rfl
@[simp] theorem State.writeWeight_symCnt (s : State) (i : Nat) (v : Word) : (s.writeWeight i v).symCnt = s.symCnt := by
  unfold State.writeWeight; split <;> rfl
@[simp] theorem State.writeWeight_outLen (s : State) (i : Nat) (v : Word) : (s.writeWeight i v).outLen = s.outLen := by
  unfold State.writeWeight; split <;> rfl
@[simp] theorem State.writeWeight_totalBits (s : State) (i : Nat) (v : Word) : (s.writeWeight i v).totalBits = s.totalBits := by
  unfold State.writeWeight; split <;> rfl
@[simp] theorem State.writeWeight_bwCur (s : State) (i : Nat) (v : Word) : (s.writeWeight i v).bwCur = s.bwCur := by
  unfold State.writeWeight; split <;> rfl
@[simp] theorem State.writeWeight_bwFree (s : State) (i : Nat) (v : Word) : (s.writeWeight i v).bwFree = s.bwFree := by
  unfold State.writeWeight; split <;> rfl
@[simp] theorem State.writeWeight_bwFin (s : State) (i : Nat) (v : Word) : (s.writeWeight i v).bwFin = s.bwFin := by
  unfold State.writeWeight; split <;> rfl
@[simp] theorem State.writeWeight_brPos (s : State) (i : Nat) (v : Word) : (s.writeWeight i v).brPos = s.brPos := by
  unfold State.writeWeight; split <;> rfl
@[simp] theorem State.writeWeight_brBit (s : State) (i : Nat) (v : Word) : (s.writeWeight i v).brBit = s.brBit := by
  unfold State.writeWeight; split <;> rfl
@[simp] theorem State.writeWeight_brCursor (s : State) (i : Nat) (v : Word) : (s.writeWeight i v).brCursor = s.brCursor := by
  unfold State.writeWeight; split <;> rfl
@[simp] theorem State.writeWeight_busy (s : State) (i : Nat) (v : Word) : (s.writeWeight i v).busy = s.busy := by
  unfold State.writeWeight; split <;> rfl
@[simp] theorem State.writeWeight_trunc (s : State) (i : Nat) (v : Word) : (s.writeWeight i v).trunc = s.trunc := by
  unfold State.writeWeight; split <;> rfl
@[simp] theorem State.writeWeight_result (s : State) (i : Nat) (v : Word) : (s.writeWeight i v).result = s.result := by
  unfold State.writeWeight; split <;> rfl
@[simp] theorem State.writeWeight_detail (s : State) (i : Nat) (v : Word) : (s.writeWeight i v).detail = s.detail := by
  unfold State.writeWeight; split <;> rfl
@[simp] theorem State.writeWeight_lastop (s : State) (i : Nat) (v : Word) : (s.writeWeight i v).lastop = s.lastop := by
  unfold State.writeWeight; split <;> rfl
@[simp] theorem State.writeWeight_latch (s : State) (i : Nat) (v : Word) : (s.writeWeight i v).latch = s.latch := by
  unfold State.writeWeight; split <;> rfl
@[simp] theorem State.writeWeight_symCap (s : State) (i : Nat) (v : Word) : (s.writeWeight i v).symCap = s.symCap := by
  unfold State.writeWeight; split <;> rfl
@[simp] theorem State.writeWeight_packCap (s : State) (i : Nat) (v : Word) : (s.writeWeight i v).packCap = s.packCap := by
  unfold State.writeWeight; split <;> rfl
@[simp] theorem State.writeWeight_freq (s : State) (i : Nat) (v : Word) : (s.writeWeight i v).freq = s.freq := by
  unfold State.writeWeight; split <;> rfl
@[simp] theorem State.writeWeight_nodeLink (s : State) (i : Nat) (v : Word) : (s.writeWeight i v).nodeLink = s.nodeLink := by
  unfold State.writeWeight; split <;> rfl
@[simp] theorem State.writeWeight_codeValid (s : State) (i : Nat) (v : Word) : (s.writeWeight i v).codeValid = s.codeValid := by
  unfold State.writeWeight; split <;> rfl
@[simp] theorem State.writeWeight_codeLen (s : State) (i : Nat) (v : Word) : (s.writeWeight i v).codeLen = s.codeLen := by
  unfold State.writeWeight; split <;> rfl
@[simp] theorem State.writeWeight_codePat (s : State) (i : Nat) (v : Word) : (s.writeWeight i v).codePat = s.codePat := by
  unfold State.writeWeight; split <;> rfl
@[simp] theorem State.writeWeight_symIn (s : State) (i : Nat) (v : Word) : (s.writeWeight i v).symIn = s.symIn := by
  unfold State.writeWeight; split <;> rfl
@[simp] theorem State.writeWeight_pack (s : State) (i : Nat) (v : Word) : (s.writeWeight i v).pack = s.pack := by
  unfold State.writeWeight; split <;> rfl
@[simp] theorem State.writeWeight_symOut (s : State) (i : Nat) (v : Word) : (s.writeWeight i v).symOut = s.symOut := by
  unfold State.writeWeight; split <;> rfl
@[simp] theorem State.writeWeight_port (s : State) (i : Nat) (v : Word) : (s.writeWeight i v).port = s.port := by
  unfold State.writeWeight; split <;> rfl
@[simp] theorem State.writeWeight_readLog (s : State) (i : Nat) (v : Word) : (s.writeWeight i v).readLog = s.readLog := by
  unfold State.writeWeight; split <;> rfl
@[simp] theorem State.writeWeight_draws (s : State) (i : Nat) (v : Word) : (s.writeWeight i v).draws = s.draws := by
  unfold State.writeWeight; split <;> rfl

/-! ### State.invalidateCodes -/

@[simp] theorem State.invalidateCodes_arg (s : State) : (s.invalidateCodes).arg = s.arg := rfl
@[simp] theorem State.invalidateCodes_inLen (s : State) : (s.invalidateCodes).inLen = s.inLen := rfl
@[simp] theorem State.invalidateCodes_root (s : State) : (s.invalidateCodes).root = s.root := rfl
@[simp] theorem State.invalidateCodes_nodeCnt (s : State) : (s.invalidateCodes).nodeCnt = s.nodeCnt := rfl
@[simp] theorem State.invalidateCodes_packLen (s : State) : (s.invalidateCodes).packLen = s.packLen := rfl
@[simp] theorem State.invalidateCodes_trail (s : State) : (s.invalidateCodes).trail = s.trail := rfl
@[simp] theorem State.invalidateCodes_symCnt (s : State) : (s.invalidateCodes).symCnt = s.symCnt := rfl
@[simp] theorem State.invalidateCodes_outLen (s : State) : (s.invalidateCodes).outLen = s.outLen := rfl
@[simp] theorem State.invalidateCodes_totalBits (s : State) : (s.invalidateCodes).totalBits = s.totalBits := rfl
@[simp] theorem State.invalidateCodes_bwCur (s : State) : (s.invalidateCodes).bwCur = s.bwCur := rfl
@[simp] theorem State.invalidateCodes_bwFree (s : State) : (s.invalidateCodes).bwFree = s.bwFree := rfl
@[simp] theorem State.invalidateCodes_bwFin (s : State) : (s.invalidateCodes).bwFin = s.bwFin := rfl
@[simp] theorem State.invalidateCodes_brPos (s : State) : (s.invalidateCodes).brPos = s.brPos := rfl
@[simp] theorem State.invalidateCodes_brBit (s : State) : (s.invalidateCodes).brBit = s.brBit := rfl
@[simp] theorem State.invalidateCodes_brCursor (s : State) : (s.invalidateCodes).brCursor = s.brCursor := rfl
@[simp] theorem State.invalidateCodes_busy (s : State) : (s.invalidateCodes).busy = s.busy := rfl
@[simp] theorem State.invalidateCodes_trunc (s : State) : (s.invalidateCodes).trunc = s.trunc := rfl
@[simp] theorem State.invalidateCodes_result (s : State) : (s.invalidateCodes).result = s.result := rfl
@[simp] theorem State.invalidateCodes_detail (s : State) : (s.invalidateCodes).detail = s.detail := rfl
@[simp] theorem State.invalidateCodes_lastop (s : State) : (s.invalidateCodes).lastop = s.lastop := rfl
@[simp] theorem State.invalidateCodes_latch (s : State) : (s.invalidateCodes).latch = s.latch := rfl
@[simp] theorem State.invalidateCodes_symCap (s : State) : (s.invalidateCodes).symCap = s.symCap := rfl
@[simp] theorem State.invalidateCodes_packCap (s : State) : (s.invalidateCodes).packCap = s.packCap := rfl
@[simp] theorem State.invalidateCodes_freq (s : State) : (s.invalidateCodes).freq = s.freq := rfl
@[simp] theorem State.invalidateCodes_nodeLink (s : State) : (s.invalidateCodes).nodeLink = s.nodeLink := rfl
@[simp] theorem State.invalidateCodes_nodeWeight (s : State) : (s.invalidateCodes).nodeWeight = s.nodeWeight := rfl
@[simp] theorem State.invalidateCodes_codeValid (s : State) : (s.invalidateCodes).codeValid = 0#256 := rfl
@[simp] theorem State.invalidateCodes_codeLen (s : State) : (s.invalidateCodes).codeLen = s.codeLen := rfl
@[simp] theorem State.invalidateCodes_codePat (s : State) : (s.invalidateCodes).codePat = s.codePat := rfl
@[simp] theorem State.invalidateCodes_symIn (s : State) : (s.invalidateCodes).symIn = s.symIn := rfl
@[simp] theorem State.invalidateCodes_pack (s : State) : (s.invalidateCodes).pack = s.pack := rfl
@[simp] theorem State.invalidateCodes_symOut (s : State) : (s.invalidateCodes).symOut = s.symOut := rfl
@[simp] theorem State.invalidateCodes_port (s : State) : (s.invalidateCodes).port = s.port := rfl
@[simp] theorem State.invalidateCodes_readLog (s : State) : (s.invalidateCodes).readLog = s.readLog := rfl
@[simp] theorem State.invalidateCodes_draws (s : State) : (s.invalidateCodes).draws = s.draws := rfl

/-! ### State.clearCodes -/

@[simp] theorem State.clearCodes_arg (s : State) : (s.clearCodes).arg = s.arg := rfl
@[simp] theorem State.clearCodes_inLen (s : State) : (s.clearCodes).inLen = s.inLen := rfl
@[simp] theorem State.clearCodes_root (s : State) : (s.clearCodes).root = s.root := rfl
@[simp] theorem State.clearCodes_nodeCnt (s : State) : (s.clearCodes).nodeCnt = s.nodeCnt := rfl
@[simp] theorem State.clearCodes_packLen (s : State) : (s.clearCodes).packLen = s.packLen := rfl
@[simp] theorem State.clearCodes_trail (s : State) : (s.clearCodes).trail = s.trail := rfl
@[simp] theorem State.clearCodes_symCnt (s : State) : (s.clearCodes).symCnt = s.symCnt := rfl
@[simp] theorem State.clearCodes_outLen (s : State) : (s.clearCodes).outLen = s.outLen := rfl
@[simp] theorem State.clearCodes_totalBits (s : State) : (s.clearCodes).totalBits = s.totalBits := rfl
@[simp] theorem State.clearCodes_bwCur (s : State) : (s.clearCodes).bwCur = s.bwCur := rfl
@[simp] theorem State.clearCodes_bwFree (s : State) : (s.clearCodes).bwFree = s.bwFree := rfl
@[simp] theorem State.clearCodes_bwFin (s : State) : (s.clearCodes).bwFin = s.bwFin := rfl
@[simp] theorem State.clearCodes_brPos (s : State) : (s.clearCodes).brPos = s.brPos := rfl
@[simp] theorem State.clearCodes_brBit (s : State) : (s.clearCodes).brBit = s.brBit := rfl
@[simp] theorem State.clearCodes_brCursor (s : State) : (s.clearCodes).brCursor = s.brCursor := rfl
@[simp] theorem State.clearCodes_busy (s : State) : (s.clearCodes).busy = s.busy := rfl
@[simp] theorem State.clearCodes_trunc (s : State) : (s.clearCodes).trunc = s.trunc := rfl
@[simp] theorem State.clearCodes_result (s : State) : (s.clearCodes).result = s.result := rfl
@[simp] theorem State.clearCodes_detail (s : State) : (s.clearCodes).detail = s.detail := rfl
@[simp] theorem State.clearCodes_lastop (s : State) : (s.clearCodes).lastop = s.lastop := rfl
@[simp] theorem State.clearCodes_latch (s : State) : (s.clearCodes).latch = s.latch := rfl
@[simp] theorem State.clearCodes_symCap (s : State) : (s.clearCodes).symCap = s.symCap := rfl
@[simp] theorem State.clearCodes_packCap (s : State) : (s.clearCodes).packCap = s.packCap := rfl
@[simp] theorem State.clearCodes_freq (s : State) : (s.clearCodes).freq = s.freq := rfl
@[simp] theorem State.clearCodes_nodeLink (s : State) : (s.clearCodes).nodeLink = s.nodeLink := rfl
@[simp] theorem State.clearCodes_nodeWeight (s : State) : (s.clearCodes).nodeWeight = s.nodeWeight := rfl
@[simp] theorem State.clearCodes_codeValid (s : State) : (s.clearCodes).codeValid = 0#256 := rfl
@[simp] theorem State.clearCodes_codeLen (s : State) : (s.clearCodes).codeLen = Memory.tabulate Config.alphabet fun _ => 0#8 := by
  simp only [State.clearCodes]
@[simp] theorem State.clearCodes_codePat (s : State) : (s.clearCodes).codePat = Memory.tabulate Config.alphabet fun _ => 0#255 := by
  simp only [State.clearCodes]
@[simp] theorem State.clearCodes_symIn (s : State) : (s.clearCodes).symIn = s.symIn := rfl
@[simp] theorem State.clearCodes_pack (s : State) : (s.clearCodes).pack = s.pack := rfl
@[simp] theorem State.clearCodes_symOut (s : State) : (s.clearCodes).symOut = s.symOut := rfl
@[simp] theorem State.clearCodes_port (s : State) : (s.clearCodes).port = s.port := rfl
@[simp] theorem State.clearCodes_readLog (s : State) : (s.clearCodes).readLog = s.readLog := rfl
@[simp] theorem State.clearCodes_draws (s : State) : (s.clearCodes).draws = s.draws := rfl

/-! ### State.writeCode -/

@[simp] theorem State.writeCode_arg (s : State) (c : Byte) (p l : Nat) : (s.writeCode c p l).arg = s.arg := rfl
@[simp] theorem State.writeCode_inLen (s : State) (c : Byte) (p l : Nat) : (s.writeCode c p l).inLen = s.inLen := rfl
@[simp] theorem State.writeCode_root (s : State) (c : Byte) (p l : Nat) : (s.writeCode c p l).root = s.root := rfl
@[simp] theorem State.writeCode_nodeCnt (s : State) (c : Byte) (p l : Nat) : (s.writeCode c p l).nodeCnt = s.nodeCnt := rfl
@[simp] theorem State.writeCode_packLen (s : State) (c : Byte) (p l : Nat) : (s.writeCode c p l).packLen = s.packLen := rfl
@[simp] theorem State.writeCode_trail (s : State) (c : Byte) (p l : Nat) : (s.writeCode c p l).trail = s.trail := rfl
@[simp] theorem State.writeCode_symCnt (s : State) (c : Byte) (p l : Nat) : (s.writeCode c p l).symCnt = s.symCnt := rfl
@[simp] theorem State.writeCode_outLen (s : State) (c : Byte) (p l : Nat) : (s.writeCode c p l).outLen = s.outLen := rfl
@[simp] theorem State.writeCode_totalBits (s : State) (c : Byte) (p l : Nat) : (s.writeCode c p l).totalBits = s.totalBits := rfl
@[simp] theorem State.writeCode_bwCur (s : State) (c : Byte) (p l : Nat) : (s.writeCode c p l).bwCur = s.bwCur := rfl
@[simp] theorem State.writeCode_bwFree (s : State) (c : Byte) (p l : Nat) : (s.writeCode c p l).bwFree = s.bwFree := rfl
@[simp] theorem State.writeCode_bwFin (s : State) (c : Byte) (p l : Nat) : (s.writeCode c p l).bwFin = s.bwFin := rfl
@[simp] theorem State.writeCode_brPos (s : State) (c : Byte) (p l : Nat) : (s.writeCode c p l).brPos = s.brPos := rfl
@[simp] theorem State.writeCode_brBit (s : State) (c : Byte) (p l : Nat) : (s.writeCode c p l).brBit = s.brBit := rfl
@[simp] theorem State.writeCode_brCursor (s : State) (c : Byte) (p l : Nat) : (s.writeCode c p l).brCursor = s.brCursor := rfl
@[simp] theorem State.writeCode_busy (s : State) (c : Byte) (p l : Nat) : (s.writeCode c p l).busy = s.busy := rfl
@[simp] theorem State.writeCode_trunc (s : State) (c : Byte) (p l : Nat) : (s.writeCode c p l).trunc = s.trunc := rfl
@[simp] theorem State.writeCode_result (s : State) (c : Byte) (p l : Nat) : (s.writeCode c p l).result = s.result := rfl
@[simp] theorem State.writeCode_detail (s : State) (c : Byte) (p l : Nat) : (s.writeCode c p l).detail = s.detail := rfl
@[simp] theorem State.writeCode_lastop (s : State) (c : Byte) (p l : Nat) : (s.writeCode c p l).lastop = s.lastop := rfl
@[simp] theorem State.writeCode_latch (s : State) (c : Byte) (p l : Nat) : (s.writeCode c p l).latch = s.latch := rfl
@[simp] theorem State.writeCode_symCap (s : State) (c : Byte) (p l : Nat) : (s.writeCode c p l).symCap = s.symCap := rfl
@[simp] theorem State.writeCode_packCap (s : State) (c : Byte) (p l : Nat) : (s.writeCode c p l).packCap = s.packCap := rfl
@[simp] theorem State.writeCode_freq (s : State) (c : Byte) (p l : Nat) : (s.writeCode c p l).freq = s.freq := rfl
@[simp] theorem State.writeCode_nodeLink (s : State) (c : Byte) (p l : Nat) : (s.writeCode c p l).nodeLink = s.nodeLink := rfl
@[simp] theorem State.writeCode_nodeWeight (s : State) (c : Byte) (p l : Nat) : (s.writeCode c p l).nodeWeight = s.nodeWeight := rfl
@[simp] theorem State.writeCode_codeValid (s : State) (c : Byte) (p l : Nat) : (s.writeCode c p l).codeValid = s.codeValid ||| BitVec.twoPow 256 c.toNat := rfl
@[simp] theorem State.writeCode_codeLen (s : State) (c : Byte) (p l : Nat) : (s.writeCode c p l).codeLen = s.codeLen.put c.toNat (BitVec.ofNat 8 l) := rfl
@[simp] theorem State.writeCode_codePat (s : State) (c : Byte) (p l : Nat) : (s.writeCode c p l).codePat = s.codePat.put c.toNat (BitVec.ofNat 255 p) := rfl
@[simp] theorem State.writeCode_symIn (s : State) (c : Byte) (p l : Nat) : (s.writeCode c p l).symIn = s.symIn := rfl
@[simp] theorem State.writeCode_pack (s : State) (c : Byte) (p l : Nat) : (s.writeCode c p l).pack = s.pack := rfl
@[simp] theorem State.writeCode_symOut (s : State) (c : Byte) (p l : Nat) : (s.writeCode c p l).symOut = s.symOut := rfl
@[simp] theorem State.writeCode_port (s : State) (c : Byte) (p l : Nat) : (s.writeCode c p l).port = s.port := rfl
@[simp] theorem State.writeCode_readLog (s : State) (c : Byte) (p l : Nat) : (s.writeCode c p l).readLog = s.readLog := rfl
@[simp] theorem State.writeCode_draws (s : State) (c : Byte) (p l : Nat) : (s.writeCode c p l).draws = s.draws := rfl

/-! ### State.writeSymIn -/

@[simp] theorem State.writeSymIn_arg (s : State) (i : Nat) (v : Byte) : (s.writeSymIn i v).arg = s.arg := by
  unfold State.writeSymIn; split <;> rfl
@[simp] theorem State.writeSymIn_inLen (s : State) (i : Nat) (v : Byte) : (s.writeSymIn i v).inLen = s.inLen := by
  unfold State.writeSymIn; split <;> rfl
@[simp] theorem State.writeSymIn_root (s : State) (i : Nat) (v : Byte) : (s.writeSymIn i v).root = s.root := by
  unfold State.writeSymIn; split <;> rfl
@[simp] theorem State.writeSymIn_nodeCnt (s : State) (i : Nat) (v : Byte) : (s.writeSymIn i v).nodeCnt = s.nodeCnt := by
  unfold State.writeSymIn; split <;> rfl
@[simp] theorem State.writeSymIn_packLen (s : State) (i : Nat) (v : Byte) : (s.writeSymIn i v).packLen = s.packLen := by
  unfold State.writeSymIn; split <;> rfl
@[simp] theorem State.writeSymIn_trail (s : State) (i : Nat) (v : Byte) : (s.writeSymIn i v).trail = s.trail := by
  unfold State.writeSymIn; split <;> rfl
@[simp] theorem State.writeSymIn_symCnt (s : State) (i : Nat) (v : Byte) : (s.writeSymIn i v).symCnt = s.symCnt := by
  unfold State.writeSymIn; split <;> rfl
@[simp] theorem State.writeSymIn_outLen (s : State) (i : Nat) (v : Byte) : (s.writeSymIn i v).outLen = s.outLen := by
  unfold State.writeSymIn; split <;> rfl
@[simp] theorem State.writeSymIn_totalBits (s : State) (i : Nat) (v : Byte) : (s.writeSymIn i v).totalBits = s.totalBits := by
  unfold State.writeSymIn; split <;> rfl
@[simp] theorem State.writeSymIn_bwCur (s : State) (i : Nat) (v : Byte) : (s.writeSymIn i v).bwCur = s.bwCur := by
  unfold State.writeSymIn; split <;> rfl
@[simp] theorem State.writeSymIn_bwFree (s : State) (i : Nat) (v : Byte) : (s.writeSymIn i v).bwFree = s.bwFree := by
  unfold State.writeSymIn; split <;> rfl
@[simp] theorem State.writeSymIn_bwFin (s : State) (i : Nat) (v : Byte) : (s.writeSymIn i v).bwFin = s.bwFin := by
  unfold State.writeSymIn; split <;> rfl
@[simp] theorem State.writeSymIn_brPos (s : State) (i : Nat) (v : Byte) : (s.writeSymIn i v).brPos = s.brPos := by
  unfold State.writeSymIn; split <;> rfl
@[simp] theorem State.writeSymIn_brBit (s : State) (i : Nat) (v : Byte) : (s.writeSymIn i v).brBit = s.brBit := by
  unfold State.writeSymIn; split <;> rfl
@[simp] theorem State.writeSymIn_brCursor (s : State) (i : Nat) (v : Byte) : (s.writeSymIn i v).brCursor = s.brCursor := by
  unfold State.writeSymIn; split <;> rfl
@[simp] theorem State.writeSymIn_busy (s : State) (i : Nat) (v : Byte) : (s.writeSymIn i v).busy = s.busy := by
  unfold State.writeSymIn; split <;> rfl
@[simp] theorem State.writeSymIn_trunc (s : State) (i : Nat) (v : Byte) : (s.writeSymIn i v).trunc = s.trunc := by
  unfold State.writeSymIn; split <;> rfl
@[simp] theorem State.writeSymIn_result (s : State) (i : Nat) (v : Byte) : (s.writeSymIn i v).result = s.result := by
  unfold State.writeSymIn; split <;> rfl
@[simp] theorem State.writeSymIn_detail (s : State) (i : Nat) (v : Byte) : (s.writeSymIn i v).detail = s.detail := by
  unfold State.writeSymIn; split <;> rfl
@[simp] theorem State.writeSymIn_lastop (s : State) (i : Nat) (v : Byte) : (s.writeSymIn i v).lastop = s.lastop := by
  unfold State.writeSymIn; split <;> rfl
@[simp] theorem State.writeSymIn_latch (s : State) (i : Nat) (v : Byte) : (s.writeSymIn i v).latch = s.latch := by
  unfold State.writeSymIn; split <;> rfl
@[simp] theorem State.writeSymIn_symCap (s : State) (i : Nat) (v : Byte) : (s.writeSymIn i v).symCap = s.symCap := by
  unfold State.writeSymIn; split <;> rfl
@[simp] theorem State.writeSymIn_packCap (s : State) (i : Nat) (v : Byte) : (s.writeSymIn i v).packCap = s.packCap := by
  unfold State.writeSymIn; split <;> rfl
@[simp] theorem State.writeSymIn_freq (s : State) (i : Nat) (v : Byte) : (s.writeSymIn i v).freq = s.freq := by
  unfold State.writeSymIn; split <;> rfl
@[simp] theorem State.writeSymIn_nodeLink (s : State) (i : Nat) (v : Byte) : (s.writeSymIn i v).nodeLink = s.nodeLink := by
  unfold State.writeSymIn; split <;> rfl
@[simp] theorem State.writeSymIn_nodeWeight (s : State) (i : Nat) (v : Byte) : (s.writeSymIn i v).nodeWeight = s.nodeWeight := by
  unfold State.writeSymIn; split <;> rfl
@[simp] theorem State.writeSymIn_codeValid (s : State) (i : Nat) (v : Byte) : (s.writeSymIn i v).codeValid = s.codeValid := by
  unfold State.writeSymIn; split <;> rfl
@[simp] theorem State.writeSymIn_codeLen (s : State) (i : Nat) (v : Byte) : (s.writeSymIn i v).codeLen = s.codeLen := by
  unfold State.writeSymIn; split <;> rfl
@[simp] theorem State.writeSymIn_codePat (s : State) (i : Nat) (v : Byte) : (s.writeSymIn i v).codePat = s.codePat := by
  unfold State.writeSymIn; split <;> rfl
@[simp] theorem State.writeSymIn_pack (s : State) (i : Nat) (v : Byte) : (s.writeSymIn i v).pack = s.pack := by
  unfold State.writeSymIn; split <;> rfl
@[simp] theorem State.writeSymIn_symOut (s : State) (i : Nat) (v : Byte) : (s.writeSymIn i v).symOut = s.symOut := by
  unfold State.writeSymIn; split <;> rfl
@[simp] theorem State.writeSymIn_port (s : State) (i : Nat) (v : Byte) : (s.writeSymIn i v).port = s.port := by
  unfold State.writeSymIn; split <;> rfl
@[simp] theorem State.writeSymIn_readLog (s : State) (i : Nat) (v : Byte) : (s.writeSymIn i v).readLog = s.readLog := by
  unfold State.writeSymIn; split <;> rfl
@[simp] theorem State.writeSymIn_draws (s : State) (i : Nat) (v : Byte) : (s.writeSymIn i v).draws = s.draws := by
  unfold State.writeSymIn; split <;> rfl

/-! ### State.writePack -/

@[simp] theorem State.writePack_arg (s : State) (i : Nat) (v : Byte) : (s.writePack i v).arg = s.arg := by
  unfold State.writePack; split <;> rfl
@[simp] theorem State.writePack_inLen (s : State) (i : Nat) (v : Byte) : (s.writePack i v).inLen = s.inLen := by
  unfold State.writePack; split <;> rfl
@[simp] theorem State.writePack_root (s : State) (i : Nat) (v : Byte) : (s.writePack i v).root = s.root := by
  unfold State.writePack; split <;> rfl
@[simp] theorem State.writePack_nodeCnt (s : State) (i : Nat) (v : Byte) : (s.writePack i v).nodeCnt = s.nodeCnt := by
  unfold State.writePack; split <;> rfl
@[simp] theorem State.writePack_packLen (s : State) (i : Nat) (v : Byte) : (s.writePack i v).packLen = s.packLen := by
  unfold State.writePack; split <;> rfl
@[simp] theorem State.writePack_trail (s : State) (i : Nat) (v : Byte) : (s.writePack i v).trail = s.trail := by
  unfold State.writePack; split <;> rfl
@[simp] theorem State.writePack_symCnt (s : State) (i : Nat) (v : Byte) : (s.writePack i v).symCnt = s.symCnt := by
  unfold State.writePack; split <;> rfl
@[simp] theorem State.writePack_outLen (s : State) (i : Nat) (v : Byte) : (s.writePack i v).outLen = s.outLen := by
  unfold State.writePack; split <;> rfl
@[simp] theorem State.writePack_totalBits (s : State) (i : Nat) (v : Byte) : (s.writePack i v).totalBits = s.totalBits := by
  unfold State.writePack; split <;> rfl
@[simp] theorem State.writePack_bwCur (s : State) (i : Nat) (v : Byte) : (s.writePack i v).bwCur = s.bwCur := by
  unfold State.writePack; split <;> rfl
@[simp] theorem State.writePack_bwFree (s : State) (i : Nat) (v : Byte) : (s.writePack i v).bwFree = s.bwFree := by
  unfold State.writePack; split <;> rfl
@[simp] theorem State.writePack_bwFin (s : State) (i : Nat) (v : Byte) : (s.writePack i v).bwFin = s.bwFin := by
  unfold State.writePack; split <;> rfl
@[simp] theorem State.writePack_brPos (s : State) (i : Nat) (v : Byte) : (s.writePack i v).brPos = s.brPos := by
  unfold State.writePack; split <;> rfl
@[simp] theorem State.writePack_brBit (s : State) (i : Nat) (v : Byte) : (s.writePack i v).brBit = s.brBit := by
  unfold State.writePack; split <;> rfl
@[simp] theorem State.writePack_brCursor (s : State) (i : Nat) (v : Byte) : (s.writePack i v).brCursor = s.brCursor := by
  unfold State.writePack; split <;> rfl
@[simp] theorem State.writePack_busy (s : State) (i : Nat) (v : Byte) : (s.writePack i v).busy = s.busy := by
  unfold State.writePack; split <;> rfl
@[simp] theorem State.writePack_trunc (s : State) (i : Nat) (v : Byte) : (s.writePack i v).trunc = s.trunc := by
  unfold State.writePack; split <;> rfl
@[simp] theorem State.writePack_result (s : State) (i : Nat) (v : Byte) : (s.writePack i v).result = s.result := by
  unfold State.writePack; split <;> rfl
@[simp] theorem State.writePack_detail (s : State) (i : Nat) (v : Byte) : (s.writePack i v).detail = s.detail := by
  unfold State.writePack; split <;> rfl
@[simp] theorem State.writePack_lastop (s : State) (i : Nat) (v : Byte) : (s.writePack i v).lastop = s.lastop := by
  unfold State.writePack; split <;> rfl
@[simp] theorem State.writePack_latch (s : State) (i : Nat) (v : Byte) : (s.writePack i v).latch = s.latch := by
  unfold State.writePack; split <;> rfl
@[simp] theorem State.writePack_symCap (s : State) (i : Nat) (v : Byte) : (s.writePack i v).symCap = s.symCap := by
  unfold State.writePack; split <;> rfl
@[simp] theorem State.writePack_packCap (s : State) (i : Nat) (v : Byte) : (s.writePack i v).packCap = s.packCap := by
  unfold State.writePack; split <;> rfl
@[simp] theorem State.writePack_freq (s : State) (i : Nat) (v : Byte) : (s.writePack i v).freq = s.freq := by
  unfold State.writePack; split <;> rfl
@[simp] theorem State.writePack_nodeLink (s : State) (i : Nat) (v : Byte) : (s.writePack i v).nodeLink = s.nodeLink := by
  unfold State.writePack; split <;> rfl
@[simp] theorem State.writePack_nodeWeight (s : State) (i : Nat) (v : Byte) : (s.writePack i v).nodeWeight = s.nodeWeight := by
  unfold State.writePack; split <;> rfl
@[simp] theorem State.writePack_codeValid (s : State) (i : Nat) (v : Byte) : (s.writePack i v).codeValid = s.codeValid := by
  unfold State.writePack; split <;> rfl
@[simp] theorem State.writePack_codeLen (s : State) (i : Nat) (v : Byte) : (s.writePack i v).codeLen = s.codeLen := by
  unfold State.writePack; split <;> rfl
@[simp] theorem State.writePack_codePat (s : State) (i : Nat) (v : Byte) : (s.writePack i v).codePat = s.codePat := by
  unfold State.writePack; split <;> rfl
@[simp] theorem State.writePack_symIn (s : State) (i : Nat) (v : Byte) : (s.writePack i v).symIn = s.symIn := by
  unfold State.writePack; split <;> rfl
@[simp] theorem State.writePack_symOut (s : State) (i : Nat) (v : Byte) : (s.writePack i v).symOut = s.symOut := by
  unfold State.writePack; split <;> rfl
@[simp] theorem State.writePack_port (s : State) (i : Nat) (v : Byte) : (s.writePack i v).port = s.port := by
  unfold State.writePack; split <;> rfl
@[simp] theorem State.writePack_readLog (s : State) (i : Nat) (v : Byte) : (s.writePack i v).readLog = s.readLog := by
  unfold State.writePack; split <;> rfl
@[simp] theorem State.writePack_draws (s : State) (i : Nat) (v : Byte) : (s.writePack i v).draws = s.draws := by
  unfold State.writePack; split <;> rfl

/-! ### State.writeSymOut -/

@[simp] theorem State.writeSymOut_arg (s : State) (i : Nat) (v : Byte) : (s.writeSymOut i v).arg = s.arg := by
  unfold State.writeSymOut; split <;> rfl
@[simp] theorem State.writeSymOut_inLen (s : State) (i : Nat) (v : Byte) : (s.writeSymOut i v).inLen = s.inLen := by
  unfold State.writeSymOut; split <;> rfl
@[simp] theorem State.writeSymOut_root (s : State) (i : Nat) (v : Byte) : (s.writeSymOut i v).root = s.root := by
  unfold State.writeSymOut; split <;> rfl
@[simp] theorem State.writeSymOut_nodeCnt (s : State) (i : Nat) (v : Byte) : (s.writeSymOut i v).nodeCnt = s.nodeCnt := by
  unfold State.writeSymOut; split <;> rfl
@[simp] theorem State.writeSymOut_packLen (s : State) (i : Nat) (v : Byte) : (s.writeSymOut i v).packLen = s.packLen := by
  unfold State.writeSymOut; split <;> rfl
@[simp] theorem State.writeSymOut_trail (s : State) (i : Nat) (v : Byte) : (s.writeSymOut i v).trail = s.trail := by
  unfold State.writeSymOut; split <;> rfl
@[simp] theorem State.writeSymOut_symCnt (s : State) (i : Nat) (v : Byte) : (s.writeSymOut i v).symCnt = s.symCnt := by
  unfold State.writeSymOut; split <;> rfl
@[simp] theorem State.writeSymOut_outLen (s : State) (i : Nat) (v : Byte) : (s.writeSymOut i v).outLen = s.outLen := by
  unfold State.writeSymOut; split <;> rfl
@[simp] theorem State.writeSymOut_totalBits (s : State) (i : Nat) (v : Byte) : (s.writeSymOut i v).totalBits = s.totalBits := by
  unfold State.writeSymOut; split <;> rfl
@[simp] theorem State.writeSymOut_bwCur (s : State) (i : Nat) (v : Byte) : (s.writeSymOut i v).bwCur = s.bwCur := by
  unfold State.writeSymOut; split <;> rfl
@[simp] theorem State.writeSymOut_bwFree (s : State) (i : Nat) (v : Byte) : (s.writeSymOut i v).bwFree = s.bwFree := by
  unfold State.writeSymOut; split <;> rfl
@[simp] theorem State.writeSymOut_bwFin (s : State) (i : Nat) (v : Byte) : (s.writeSymOut i v).bwFin = s.bwFin := by
  unfold State.writeSymOut; split <;> rfl
@[simp] theorem State.writeSymOut_brPos (s : State) (i : Nat) (v : Byte) : (s.writeSymOut i v).brPos = s.brPos := by
  unfold State.writeSymOut; split <;> rfl
@[simp] theorem State.writeSymOut_brBit (s : State) (i : Nat) (v : Byte) : (s.writeSymOut i v).brBit = s.brBit := by
  unfold State.writeSymOut; split <;> rfl
@[simp] theorem State.writeSymOut_brCursor (s : State) (i : Nat) (v : Byte) : (s.writeSymOut i v).brCursor = s.brCursor := by
  unfold State.writeSymOut; split <;> rfl
@[simp] theorem State.writeSymOut_busy (s : State) (i : Nat) (v : Byte) : (s.writeSymOut i v).busy = s.busy := by
  unfold State.writeSymOut; split <;> rfl
@[simp] theorem State.writeSymOut_trunc (s : State) (i : Nat) (v : Byte) : (s.writeSymOut i v).trunc = s.trunc := by
  unfold State.writeSymOut; split <;> rfl
@[simp] theorem State.writeSymOut_result (s : State) (i : Nat) (v : Byte) : (s.writeSymOut i v).result = s.result := by
  unfold State.writeSymOut; split <;> rfl
@[simp] theorem State.writeSymOut_detail (s : State) (i : Nat) (v : Byte) : (s.writeSymOut i v).detail = s.detail := by
  unfold State.writeSymOut; split <;> rfl
@[simp] theorem State.writeSymOut_lastop (s : State) (i : Nat) (v : Byte) : (s.writeSymOut i v).lastop = s.lastop := by
  unfold State.writeSymOut; split <;> rfl
@[simp] theorem State.writeSymOut_latch (s : State) (i : Nat) (v : Byte) : (s.writeSymOut i v).latch = s.latch := by
  unfold State.writeSymOut; split <;> rfl
@[simp] theorem State.writeSymOut_symCap (s : State) (i : Nat) (v : Byte) : (s.writeSymOut i v).symCap = s.symCap := by
  unfold State.writeSymOut; split <;> rfl
@[simp] theorem State.writeSymOut_packCap (s : State) (i : Nat) (v : Byte) : (s.writeSymOut i v).packCap = s.packCap := by
  unfold State.writeSymOut; split <;> rfl
@[simp] theorem State.writeSymOut_freq (s : State) (i : Nat) (v : Byte) : (s.writeSymOut i v).freq = s.freq := by
  unfold State.writeSymOut; split <;> rfl
@[simp] theorem State.writeSymOut_nodeLink (s : State) (i : Nat) (v : Byte) : (s.writeSymOut i v).nodeLink = s.nodeLink := by
  unfold State.writeSymOut; split <;> rfl
@[simp] theorem State.writeSymOut_nodeWeight (s : State) (i : Nat) (v : Byte) : (s.writeSymOut i v).nodeWeight = s.nodeWeight := by
  unfold State.writeSymOut; split <;> rfl
@[simp] theorem State.writeSymOut_codeValid (s : State) (i : Nat) (v : Byte) : (s.writeSymOut i v).codeValid = s.codeValid := by
  unfold State.writeSymOut; split <;> rfl
@[simp] theorem State.writeSymOut_codeLen (s : State) (i : Nat) (v : Byte) : (s.writeSymOut i v).codeLen = s.codeLen := by
  unfold State.writeSymOut; split <;> rfl
@[simp] theorem State.writeSymOut_codePat (s : State) (i : Nat) (v : Byte) : (s.writeSymOut i v).codePat = s.codePat := by
  unfold State.writeSymOut; split <;> rfl
@[simp] theorem State.writeSymOut_symIn (s : State) (i : Nat) (v : Byte) : (s.writeSymOut i v).symIn = s.symIn := by
  unfold State.writeSymOut; split <;> rfl
@[simp] theorem State.writeSymOut_pack (s : State) (i : Nat) (v : Byte) : (s.writeSymOut i v).pack = s.pack := by
  unfold State.writeSymOut; split <;> rfl
@[simp] theorem State.writeSymOut_port (s : State) (i : Nat) (v : Byte) : (s.writeSymOut i v).port = s.port := by
  unfold State.writeSymOut; split <;> rfl
@[simp] theorem State.writeSymOut_readLog (s : State) (i : Nat) (v : Byte) : (s.writeSymOut i v).readLog = s.readLog := by
  unfold State.writeSymOut; split <;> rfl
@[simp] theorem State.writeSymOut_draws (s : State) (i : Nat) (v : Byte) : (s.writeSymOut i v).draws = s.draws := by
  unfold State.writeSymOut; split <;> rfl

/-! ### State.accept -/

@[simp] theorem State.accept_arg (s : State) (w : Word) : (s.accept w).arg = s.arg := rfl
@[simp] theorem State.accept_inLen (s : State) (w : Word) : (s.accept w).inLen = s.inLen := rfl
@[simp] theorem State.accept_root (s : State) (w : Word) : (s.accept w).root = s.root := rfl
@[simp] theorem State.accept_nodeCnt (s : State) (w : Word) : (s.accept w).nodeCnt = s.nodeCnt := rfl
@[simp] theorem State.accept_packLen (s : State) (w : Word) : (s.accept w).packLen = s.packLen := rfl
@[simp] theorem State.accept_trail (s : State) (w : Word) : (s.accept w).trail = s.trail := rfl
@[simp] theorem State.accept_symCnt (s : State) (w : Word) : (s.accept w).symCnt = s.symCnt := rfl
@[simp] theorem State.accept_outLen (s : State) (w : Word) : (s.accept w).outLen = s.outLen := rfl
@[simp] theorem State.accept_totalBits (s : State) (w : Word) : (s.accept w).totalBits = s.totalBits := rfl
@[simp] theorem State.accept_bwCur (s : State) (w : Word) : (s.accept w).bwCur = s.bwCur := rfl
@[simp] theorem State.accept_bwFree (s : State) (w : Word) : (s.accept w).bwFree = s.bwFree := rfl
@[simp] theorem State.accept_bwFin (s : State) (w : Word) : (s.accept w).bwFin = s.bwFin := rfl
@[simp] theorem State.accept_brPos (s : State) (w : Word) : (s.accept w).brPos = s.brPos := rfl
@[simp] theorem State.accept_brBit (s : State) (w : Word) : (s.accept w).brBit = s.brBit := rfl
@[simp] theorem State.accept_brCursor (s : State) (w : Word) : (s.accept w).brCursor = s.brCursor := rfl
@[simp] theorem State.accept_busy (s : State) (w : Word) : (s.accept w).busy = true := rfl
@[simp] theorem State.accept_trunc (s : State) (w : Word) : (s.accept w).trunc = s.trunc := rfl
@[simp] theorem State.accept_result (s : State) (w : Word) : (s.accept w).result = s.result := rfl
@[simp] theorem State.accept_detail (s : State) (w : Word) : (s.accept w).detail = s.detail := rfl
@[simp] theorem State.accept_lastop (s : State) (w : Word) : (s.accept w).lastop = s.lastop := rfl
@[simp] theorem State.accept_latch (s : State) (w : Word) : (s.accept w).latch = some w := rfl
@[simp] theorem State.accept_symCap (s : State) (w : Word) : (s.accept w).symCap = s.symCap := rfl
@[simp] theorem State.accept_packCap (s : State) (w : Word) : (s.accept w).packCap = s.packCap := rfl
@[simp] theorem State.accept_freq (s : State) (w : Word) : (s.accept w).freq = s.freq := rfl
@[simp] theorem State.accept_nodeLink (s : State) (w : Word) : (s.accept w).nodeLink = s.nodeLink := rfl
@[simp] theorem State.accept_nodeWeight (s : State) (w : Word) : (s.accept w).nodeWeight = s.nodeWeight := rfl
@[simp] theorem State.accept_codeValid (s : State) (w : Word) : (s.accept w).codeValid = s.codeValid := rfl
@[simp] theorem State.accept_codeLen (s : State) (w : Word) : (s.accept w).codeLen = s.codeLen := rfl
@[simp] theorem State.accept_codePat (s : State) (w : Word) : (s.accept w).codePat = s.codePat := rfl
@[simp] theorem State.accept_symIn (s : State) (w : Word) : (s.accept w).symIn = s.symIn := rfl
@[simp] theorem State.accept_pack (s : State) (w : Word) : (s.accept w).pack = s.pack := rfl
@[simp] theorem State.accept_symOut (s : State) (w : Word) : (s.accept w).symOut = s.symOut := rfl
@[simp] theorem State.accept_port (s : State) (w : Word) : (s.accept w).port = s.port := rfl
@[simp] theorem State.accept_readLog (s : State) (w : Word) : (s.accept w).readLog = s.readLog := rfl
@[simp] theorem State.accept_draws (s : State) (w : Word) : (s.accept w).draws = s.draws := rfl

/-! ### State.hostRead -/

@[simp] theorem State.hostRead_arg (s : State) (a : Addr) : (s.hostRead a).arg = s.arg := rfl
@[simp] theorem State.hostRead_inLen (s : State) (a : Addr) : (s.hostRead a).inLen = s.inLen := rfl
@[simp] theorem State.hostRead_root (s : State) (a : Addr) : (s.hostRead a).root = s.root := rfl
@[simp] theorem State.hostRead_nodeCnt (s : State) (a : Addr) : (s.hostRead a).nodeCnt = s.nodeCnt := rfl
@[simp] theorem State.hostRead_packLen (s : State) (a : Addr) : (s.hostRead a).packLen = s.packLen := rfl
@[simp] theorem State.hostRead_trail (s : State) (a : Addr) : (s.hostRead a).trail = s.trail := rfl
@[simp] theorem State.hostRead_symCnt (s : State) (a : Addr) : (s.hostRead a).symCnt = s.symCnt := rfl
@[simp] theorem State.hostRead_outLen (s : State) (a : Addr) : (s.hostRead a).outLen = s.outLen := rfl
@[simp] theorem State.hostRead_totalBits (s : State) (a : Addr) : (s.hostRead a).totalBits = s.totalBits := rfl
@[simp] theorem State.hostRead_bwCur (s : State) (a : Addr) : (s.hostRead a).bwCur = s.bwCur := rfl
@[simp] theorem State.hostRead_bwFree (s : State) (a : Addr) : (s.hostRead a).bwFree = s.bwFree := rfl
@[simp] theorem State.hostRead_bwFin (s : State) (a : Addr) : (s.hostRead a).bwFin = s.bwFin := rfl
@[simp] theorem State.hostRead_brPos (s : State) (a : Addr) : (s.hostRead a).brPos = s.brPos := rfl
@[simp] theorem State.hostRead_brBit (s : State) (a : Addr) : (s.hostRead a).brBit = s.brBit := rfl
@[simp] theorem State.hostRead_brCursor (s : State) (a : Addr) : (s.hostRead a).brCursor = s.brCursor := rfl
@[simp] theorem State.hostRead_busy (s : State) (a : Addr) : (s.hostRead a).busy = s.busy := rfl
@[simp] theorem State.hostRead_trunc (s : State) (a : Addr) : (s.hostRead a).trunc = s.trunc := rfl
@[simp] theorem State.hostRead_result (s : State) (a : Addr) : (s.hostRead a).result = s.result := rfl
@[simp] theorem State.hostRead_detail (s : State) (a : Addr) : (s.hostRead a).detail = s.detail := rfl
@[simp] theorem State.hostRead_lastop (s : State) (a : Addr) : (s.hostRead a).lastop = s.lastop := rfl
@[simp] theorem State.hostRead_latch (s : State) (a : Addr) : (s.hostRead a).latch = s.latch := rfl
@[simp] theorem State.hostRead_symCap (s : State) (a : Addr) : (s.hostRead a).symCap = s.symCap := rfl
@[simp] theorem State.hostRead_packCap (s : State) (a : Addr) : (s.hostRead a).packCap = s.packCap := rfl
@[simp] theorem State.hostRead_freq (s : State) (a : Addr) : (s.hostRead a).freq = s.freq := rfl
@[simp] theorem State.hostRead_nodeLink (s : State) (a : Addr) : (s.hostRead a).nodeLink = s.nodeLink := rfl
@[simp] theorem State.hostRead_nodeWeight (s : State) (a : Addr) : (s.hostRead a).nodeWeight = s.nodeWeight := rfl
@[simp] theorem State.hostRead_codeValid (s : State) (a : Addr) : (s.hostRead a).codeValid = s.codeValid := rfl
@[simp] theorem State.hostRead_codeLen (s : State) (a : Addr) : (s.hostRead a).codeLen = s.codeLen := rfl
@[simp] theorem State.hostRead_codePat (s : State) (a : Addr) : (s.hostRead a).codePat = s.codePat := rfl
@[simp] theorem State.hostRead_symIn (s : State) (a : Addr) : (s.hostRead a).symIn = s.symIn := rfl
@[simp] theorem State.hostRead_pack (s : State) (a : Addr) : (s.hostRead a).pack = s.pack := rfl
@[simp] theorem State.hostRead_symOut (s : State) (a : Addr) : (s.hostRead a).symOut = s.symOut := rfl
@[simp] theorem State.hostRead_port (s : State) (a : Addr) : (s.hostRead a).port = s.port := rfl
@[simp] theorem State.hostRead_readLog (s : State) (a : Addr) : (s.hostRead a).readLog = s.readLog ++ [s.hostValue a] := rfl
@[simp] theorem State.hostRead_draws (s : State) (a : Addr) : (s.hostRead a).draws = s.draws + 1 := rfl

/-! ### State.withPort -/

@[simp] theorem State.withPort_arg (s : State) (rest : List HostOp) : (s.withPort rest).arg = s.arg := rfl
@[simp] theorem State.withPort_inLen (s : State) (rest : List HostOp) : (s.withPort rest).inLen = s.inLen := rfl
@[simp] theorem State.withPort_root (s : State) (rest : List HostOp) : (s.withPort rest).root = s.root := rfl
@[simp] theorem State.withPort_nodeCnt (s : State) (rest : List HostOp) : (s.withPort rest).nodeCnt = s.nodeCnt := rfl
@[simp] theorem State.withPort_packLen (s : State) (rest : List HostOp) : (s.withPort rest).packLen = s.packLen := rfl
@[simp] theorem State.withPort_trail (s : State) (rest : List HostOp) : (s.withPort rest).trail = s.trail := rfl
@[simp] theorem State.withPort_symCnt (s : State) (rest : List HostOp) : (s.withPort rest).symCnt = s.symCnt := rfl
@[simp] theorem State.withPort_outLen (s : State) (rest : List HostOp) : (s.withPort rest).outLen = s.outLen := rfl
@[simp] theorem State.withPort_totalBits (s : State) (rest : List HostOp) : (s.withPort rest).totalBits = s.totalBits := rfl
@[simp] theorem State.withPort_bwCur (s : State) (rest : List HostOp) : (s.withPort rest).bwCur = s.bwCur := rfl
@[simp] theorem State.withPort_bwFree (s : State) (rest : List HostOp) : (s.withPort rest).bwFree = s.bwFree := rfl
@[simp] theorem State.withPort_bwFin (s : State) (rest : List HostOp) : (s.withPort rest).bwFin = s.bwFin := rfl
@[simp] theorem State.withPort_brPos (s : State) (rest : List HostOp) : (s.withPort rest).brPos = s.brPos := rfl
@[simp] theorem State.withPort_brBit (s : State) (rest : List HostOp) : (s.withPort rest).brBit = s.brBit := rfl
@[simp] theorem State.withPort_brCursor (s : State) (rest : List HostOp) : (s.withPort rest).brCursor = s.brCursor := rfl
@[simp] theorem State.withPort_busy (s : State) (rest : List HostOp) : (s.withPort rest).busy = s.busy := rfl
@[simp] theorem State.withPort_trunc (s : State) (rest : List HostOp) : (s.withPort rest).trunc = s.trunc := rfl
@[simp] theorem State.withPort_result (s : State) (rest : List HostOp) : (s.withPort rest).result = s.result := rfl
@[simp] theorem State.withPort_detail (s : State) (rest : List HostOp) : (s.withPort rest).detail = s.detail := rfl
@[simp] theorem State.withPort_lastop (s : State) (rest : List HostOp) : (s.withPort rest).lastop = s.lastop := rfl
@[simp] theorem State.withPort_latch (s : State) (rest : List HostOp) : (s.withPort rest).latch = s.latch := rfl
@[simp] theorem State.withPort_symCap (s : State) (rest : List HostOp) : (s.withPort rest).symCap = s.symCap := rfl
@[simp] theorem State.withPort_packCap (s : State) (rest : List HostOp) : (s.withPort rest).packCap = s.packCap := rfl
@[simp] theorem State.withPort_freq (s : State) (rest : List HostOp) : (s.withPort rest).freq = s.freq := rfl
@[simp] theorem State.withPort_nodeLink (s : State) (rest : List HostOp) : (s.withPort rest).nodeLink = s.nodeLink := rfl
@[simp] theorem State.withPort_nodeWeight (s : State) (rest : List HostOp) : (s.withPort rest).nodeWeight = s.nodeWeight := rfl
@[simp] theorem State.withPort_codeValid (s : State) (rest : List HostOp) : (s.withPort rest).codeValid = s.codeValid := rfl
@[simp] theorem State.withPort_codeLen (s : State) (rest : List HostOp) : (s.withPort rest).codeLen = s.codeLen := rfl
@[simp] theorem State.withPort_codePat (s : State) (rest : List HostOp) : (s.withPort rest).codePat = s.codePat := rfl
@[simp] theorem State.withPort_symIn (s : State) (rest : List HostOp) : (s.withPort rest).symIn = s.symIn := rfl
@[simp] theorem State.withPort_pack (s : State) (rest : List HostOp) : (s.withPort rest).pack = s.pack := rfl
@[simp] theorem State.withPort_symOut (s : State) (rest : List HostOp) : (s.withPort rest).symOut = s.symOut := rfl
@[simp] theorem State.withPort_port (s : State) (rest : List HostOp) : (s.withPort rest).port = rest := rfl
@[simp] theorem State.withPort_readLog (s : State) (rest : List HostOp) : (s.withPort rest).readLog = s.readLog := rfl
@[simp] theorem State.withPort_draws (s : State) (rest : List HostOp) : (s.withPort rest).draws = s.draws := rfl

/-! ### packerInit -/

@[simp] theorem packerInit_arg (s : State) : (packerInit s).arg = s.arg := rfl
@[simp] theorem packerInit_inLen (s : State) : (packerInit s).inLen = s.inLen := rfl
@[simp] theorem packerInit_root (s : State) : (packerInit s).root = s.root := rfl
@[simp] theorem packerInit_nodeCnt (s : State) : (packerInit s).nodeCnt = s.nodeCnt := rfl
@[simp] theorem packerInit_packLen (s : State) : (packerInit s).packLen = 0#32 := rfl
@[simp] theorem packerInit_trail (s : State) : (packerInit s).trail = 0#3 := rfl
@[simp] theorem packerInit_symCnt (s : State) : (packerInit s).symCnt = s.symCnt := rfl
@[simp] theorem packerInit_outLen (s : State) : (packerInit s).outLen = s.outLen := rfl
@[simp] theorem packerInit_totalBits (s : State) : (packerInit s).totalBits = 0#32 := rfl
@[simp] theorem packerInit_bwCur (s : State) : (packerInit s).bwCur = 0#8 := rfl
@[simp] theorem packerInit_bwFree (s : State) : (packerInit s).bwFree = 8#4 := rfl
@[simp] theorem packerInit_bwFin (s : State) : (packerInit s).bwFin = false := rfl
@[simp] theorem packerInit_brPos (s : State) : (packerInit s).brPos = s.brPos := rfl
@[simp] theorem packerInit_brBit (s : State) : (packerInit s).brBit = s.brBit := rfl
@[simp] theorem packerInit_brCursor (s : State) : (packerInit s).brCursor = s.brCursor := rfl
@[simp] theorem packerInit_busy (s : State) : (packerInit s).busy = s.busy := rfl
@[simp] theorem packerInit_trunc (s : State) : (packerInit s).trunc = s.trunc := rfl
@[simp] theorem packerInit_result (s : State) : (packerInit s).result = s.result := rfl
@[simp] theorem packerInit_detail (s : State) : (packerInit s).detail = s.detail := rfl
@[simp] theorem packerInit_lastop (s : State) : (packerInit s).lastop = s.lastop := rfl
@[simp] theorem packerInit_latch (s : State) : (packerInit s).latch = s.latch := rfl
@[simp] theorem packerInit_symCap (s : State) : (packerInit s).symCap = s.symCap := rfl
@[simp] theorem packerInit_packCap (s : State) : (packerInit s).packCap = s.packCap := rfl
@[simp] theorem packerInit_freq (s : State) : (packerInit s).freq = s.freq := rfl
@[simp] theorem packerInit_nodeLink (s : State) : (packerInit s).nodeLink = s.nodeLink := rfl
@[simp] theorem packerInit_nodeWeight (s : State) : (packerInit s).nodeWeight = s.nodeWeight := rfl
@[simp] theorem packerInit_codeValid (s : State) : (packerInit s).codeValid = s.codeValid := rfl
@[simp] theorem packerInit_codeLen (s : State) : (packerInit s).codeLen = s.codeLen := rfl
@[simp] theorem packerInit_codePat (s : State) : (packerInit s).codePat = s.codePat := rfl
@[simp] theorem packerInit_symIn (s : State) : (packerInit s).symIn = s.symIn := rfl
@[simp] theorem packerInit_pack (s : State) : (packerInit s).pack = s.pack := rfl
@[simp] theorem packerInit_symOut (s : State) : (packerInit s).symOut = s.symOut := rfl
@[simp] theorem packerInit_port (s : State) : (packerInit s).port = s.port := rfl
@[simp] theorem packerInit_readLog (s : State) : (packerInit s).readLog = s.readLog := rfl
@[simp] theorem packerInit_draws (s : State) : (packerInit s).draws = s.draws := rfl

/-! ### readerInit -/

@[simp] theorem readerInit_arg (s : State) : (readerInit s).arg = s.arg := rfl
@[simp] theorem readerInit_inLen (s : State) : (readerInit s).inLen = s.inLen := rfl
@[simp] theorem readerInit_root (s : State) : (readerInit s).root = s.root := rfl
@[simp] theorem readerInit_nodeCnt (s : State) : (readerInit s).nodeCnt = s.nodeCnt := rfl
@[simp] theorem readerInit_packLen (s : State) : (readerInit s).packLen = s.packLen := rfl
@[simp] theorem readerInit_trail (s : State) : (readerInit s).trail = s.trail := rfl
@[simp] theorem readerInit_symCnt (s : State) : (readerInit s).symCnt = s.symCnt := rfl
@[simp] theorem readerInit_outLen (s : State) : (readerInit s).outLen = 0#32 := rfl
@[simp] theorem readerInit_totalBits (s : State) : (readerInit s).totalBits = s.totalBits := rfl
@[simp] theorem readerInit_bwCur (s : State) : (readerInit s).bwCur = s.bwCur := rfl
@[simp] theorem readerInit_bwFree (s : State) : (readerInit s).bwFree = s.bwFree := rfl
@[simp] theorem readerInit_bwFin (s : State) : (readerInit s).bwFin = s.bwFin := rfl
@[simp] theorem readerInit_brPos (s : State) : (readerInit s).brPos = 0#32 := rfl
@[simp] theorem readerInit_brBit (s : State) : (readerInit s).brBit = 7#3 := rfl
@[simp] theorem readerInit_brCursor (s : State) : (readerInit s).brCursor = s.root := rfl
@[simp] theorem readerInit_busy (s : State) : (readerInit s).busy = s.busy := rfl
@[simp] theorem readerInit_trunc (s : State) : (readerInit s).trunc = s.trunc := rfl
@[simp] theorem readerInit_result (s : State) : (readerInit s).result = s.result := rfl
@[simp] theorem readerInit_detail (s : State) : (readerInit s).detail = s.detail := rfl
@[simp] theorem readerInit_lastop (s : State) : (readerInit s).lastop = s.lastop := rfl
@[simp] theorem readerInit_latch (s : State) : (readerInit s).latch = s.latch := rfl
@[simp] theorem readerInit_symCap (s : State) : (readerInit s).symCap = s.symCap := rfl
@[simp] theorem readerInit_packCap (s : State) : (readerInit s).packCap = s.packCap := rfl
@[simp] theorem readerInit_freq (s : State) : (readerInit s).freq = s.freq := rfl
@[simp] theorem readerInit_nodeLink (s : State) : (readerInit s).nodeLink = s.nodeLink := rfl
@[simp] theorem readerInit_nodeWeight (s : State) : (readerInit s).nodeWeight = s.nodeWeight := rfl
@[simp] theorem readerInit_codeValid (s : State) : (readerInit s).codeValid = s.codeValid := rfl
@[simp] theorem readerInit_codeLen (s : State) : (readerInit s).codeLen = s.codeLen := rfl
@[simp] theorem readerInit_codePat (s : State) : (readerInit s).codePat = s.codePat := rfl
@[simp] theorem readerInit_symIn (s : State) : (readerInit s).symIn = s.symIn := rfl
@[simp] theorem readerInit_pack (s : State) : (readerInit s).pack = s.pack := rfl
@[simp] theorem readerInit_symOut (s : State) : (readerInit s).symOut = s.symOut := rfl
@[simp] theorem readerInit_port (s : State) : (readerInit s).port = s.port := rfl
@[simp] theorem readerInit_readLog (s : State) : (readerInit s).readLog = s.readLog := rfl
@[simp] theorem readerInit_draws (s : State) : (readerInit s).draws = s.draws := rfl

/-! ### fillSlot -/

@[simp] theorem fillSlot_arg (s : State) (b : Bool) : (fillSlot s b).arg = s.arg := rfl
@[simp] theorem fillSlot_inLen (s : State) (b : Bool) : (fillSlot s b).inLen = s.inLen := rfl
@[simp] theorem fillSlot_root (s : State) (b : Bool) : (fillSlot s b).root = s.root := rfl
@[simp] theorem fillSlot_nodeCnt (s : State) (b : Bool) : (fillSlot s b).nodeCnt = s.nodeCnt := rfl
@[simp] theorem fillSlot_packLen (s : State) (b : Bool) : (fillSlot s b).packLen = s.packLen := rfl
@[simp] theorem fillSlot_trail (s : State) (b : Bool) : (fillSlot s b).trail = s.trail := rfl
@[simp] theorem fillSlot_symCnt (s : State) (b : Bool) : (fillSlot s b).symCnt = s.symCnt := rfl
@[simp] theorem fillSlot_outLen (s : State) (b : Bool) : (fillSlot s b).outLen = s.outLen := rfl
@[simp] theorem fillSlot_totalBits (s : State) (b : Bool) : (fillSlot s b).totalBits = nextTotalBits s := rfl
@[simp] theorem fillSlot_bwCur (s : State) (b : Bool) : (fillSlot s b).bwCur = setBit s.bwCur (s.bwFree.toNat - 1) b := rfl
@[simp] theorem fillSlot_bwFree (s : State) (b : Bool) : (fillSlot s b).bwFree = s.bwFree - 1#4 := rfl
@[simp] theorem fillSlot_bwFin (s : State) (b : Bool) : (fillSlot s b).bwFin = s.bwFin := rfl
@[simp] theorem fillSlot_brPos (s : State) (b : Bool) : (fillSlot s b).brPos = s.brPos := rfl
@[simp] theorem fillSlot_brBit (s : State) (b : Bool) : (fillSlot s b).brBit = s.brBit := rfl
@[simp] theorem fillSlot_brCursor (s : State) (b : Bool) : (fillSlot s b).brCursor = s.brCursor := rfl
@[simp] theorem fillSlot_busy (s : State) (b : Bool) : (fillSlot s b).busy = s.busy := rfl
@[simp] theorem fillSlot_trunc (s : State) (b : Bool) : (fillSlot s b).trunc = s.trunc := rfl
@[simp] theorem fillSlot_result (s : State) (b : Bool) : (fillSlot s b).result = s.result := rfl
@[simp] theorem fillSlot_detail (s : State) (b : Bool) : (fillSlot s b).detail = s.detail := rfl
@[simp] theorem fillSlot_lastop (s : State) (b : Bool) : (fillSlot s b).lastop = s.lastop := rfl
@[simp] theorem fillSlot_latch (s : State) (b : Bool) : (fillSlot s b).latch = s.latch := rfl
@[simp] theorem fillSlot_symCap (s : State) (b : Bool) : (fillSlot s b).symCap = s.symCap := rfl
@[simp] theorem fillSlot_packCap (s : State) (b : Bool) : (fillSlot s b).packCap = s.packCap := rfl
@[simp] theorem fillSlot_freq (s : State) (b : Bool) : (fillSlot s b).freq = s.freq := rfl
@[simp] theorem fillSlot_nodeLink (s : State) (b : Bool) : (fillSlot s b).nodeLink = s.nodeLink := rfl
@[simp] theorem fillSlot_nodeWeight (s : State) (b : Bool) : (fillSlot s b).nodeWeight = s.nodeWeight := rfl
@[simp] theorem fillSlot_codeValid (s : State) (b : Bool) : (fillSlot s b).codeValid = s.codeValid := rfl
@[simp] theorem fillSlot_codeLen (s : State) (b : Bool) : (fillSlot s b).codeLen = s.codeLen := rfl
@[simp] theorem fillSlot_codePat (s : State) (b : Bool) : (fillSlot s b).codePat = s.codePat := rfl
@[simp] theorem fillSlot_symIn (s : State) (b : Bool) : (fillSlot s b).symIn = s.symIn := rfl
@[simp] theorem fillSlot_pack (s : State) (b : Bool) : (fillSlot s b).pack = s.pack := rfl
@[simp] theorem fillSlot_symOut (s : State) (b : Bool) : (fillSlot s b).symOut = s.symOut := rfl
@[simp] theorem fillSlot_port (s : State) (b : Bool) : (fillSlot s b).port = s.port := rfl
@[simp] theorem fillSlot_readLog (s : State) (b : Bool) : (fillSlot s b).readLog = s.readLog := rfl
@[simp] theorem fillSlot_draws (s : State) (b : Bool) : (fillSlot s b).draws = s.draws := rfl

/-! ### flushByte -/

@[simp] theorem flushByte_arg (s : State) : (flushByte s).arg = s.arg := by
  simp [flushByte]
@[simp] theorem flushByte_inLen (s : State) : (flushByte s).inLen = s.inLen := by
  simp [flushByte]
@[simp] theorem flushByte_root (s : State) : (flushByte s).root = s.root := by
  simp [flushByte]
@[simp] theorem flushByte_nodeCnt (s : State) : (flushByte s).nodeCnt = s.nodeCnt := by
  simp [flushByte]
@[simp] theorem flushByte_packLen (s : State) : (flushByte s).packLen = s.packLen + 1#32 := rfl
@[simp] theorem flushByte_trail (s : State) : (flushByte s).trail = s.trail := by
  simp [flushByte]
@[simp] theorem flushByte_symCnt (s : State) : (flushByte s).symCnt = s.symCnt := by
  simp [flushByte]
@[simp] theorem flushByte_outLen (s : State) : (flushByte s).outLen = s.outLen := by
  simp [flushByte]
@[simp] theorem flushByte_totalBits (s : State) : (flushByte s).totalBits = s.totalBits := by
  simp [flushByte]
@[simp] theorem flushByte_bwCur (s : State) : (flushByte s).bwCur = 0#8 := rfl
@[simp] theorem flushByte_bwFree (s : State) : (flushByte s).bwFree = 8#4 := rfl
@[simp] theorem flushByte_bwFin (s : State) : (flushByte s).bwFin = s.bwFin := by
  simp [flushByte]
@[simp] theorem flushByte_brPos (s : State) : (flushByte s).brPos = s.brPos := by
  simp [flushByte]
@[simp] theorem flushByte_brBit (s : State) : (flushByte s).brBit = s.brBit := by
  simp [flushByte]
@[simp] theorem flushByte_brCursor (s : State) : (flushByte s).brCursor = s.brCursor := by
  simp [flushByte]
@[simp] theorem flushByte_busy (s : State) : (flushByte s).busy = s.busy := by
  simp [flushByte]
@[simp] theorem flushByte_trunc (s : State) : (flushByte s).trunc = s.trunc := by
  simp [flushByte]
@[simp] theorem flushByte_result (s : State) : (flushByte s).result = s.result := by
  simp [flushByte]
@[simp] theorem flushByte_detail (s : State) : (flushByte s).detail = s.detail := by
  simp [flushByte]
@[simp] theorem flushByte_lastop (s : State) : (flushByte s).lastop = s.lastop := by
  simp [flushByte]
@[simp] theorem flushByte_latch (s : State) : (flushByte s).latch = s.latch := by
  simp [flushByte]
@[simp] theorem flushByte_symCap (s : State) : (flushByte s).symCap = s.symCap := by
  simp [flushByte]
@[simp] theorem flushByte_packCap (s : State) : (flushByte s).packCap = s.packCap := by
  simp [flushByte]
@[simp] theorem flushByte_freq (s : State) : (flushByte s).freq = s.freq := by
  simp [flushByte]
@[simp] theorem flushByte_nodeLink (s : State) : (flushByte s).nodeLink = s.nodeLink := by
  simp [flushByte]
@[simp] theorem flushByte_nodeWeight (s : State) : (flushByte s).nodeWeight = s.nodeWeight := by
  simp [flushByte]
@[simp] theorem flushByte_codeValid (s : State) : (flushByte s).codeValid = s.codeValid := by
  simp [flushByte]
@[simp] theorem flushByte_codeLen (s : State) : (flushByte s).codeLen = s.codeLen := by
  simp [flushByte]
@[simp] theorem flushByte_codePat (s : State) : (flushByte s).codePat = s.codePat := by
  simp [flushByte]
@[simp] theorem flushByte_symIn (s : State) : (flushByte s).symIn = s.symIn := by
  simp [flushByte]
@[simp] theorem flushByte_pack (s : State) : (flushByte s).pack = (s.writePack s.packLen.toNat s.bwCur).pack := rfl
@[simp] theorem flushByte_symOut (s : State) : (flushByte s).symOut = s.symOut := by
  simp [flushByte]
@[simp] theorem flushByte_port (s : State) : (flushByte s).port = s.port := by
  simp [flushByte]
@[simp] theorem flushByte_readLog (s : State) : (flushByte s).readLog = s.readLog := by
  simp [flushByte]
@[simp] theorem flushByte_draws (s : State) : (flushByte s).draws = s.draws := by
  simp [flushByte]

/-! ### advanceReader -/

@[simp] theorem advanceReader_arg (s : State) : (advanceReader s).arg = s.arg := by
  unfold advanceReader; split <;> rfl
@[simp] theorem advanceReader_inLen (s : State) : (advanceReader s).inLen = s.inLen := by
  unfold advanceReader; split <;> rfl
@[simp] theorem advanceReader_root (s : State) : (advanceReader s).root = s.root := by
  unfold advanceReader; split <;> rfl
@[simp] theorem advanceReader_nodeCnt (s : State) : (advanceReader s).nodeCnt = s.nodeCnt := by
  unfold advanceReader; split <;> rfl
@[simp] theorem advanceReader_packLen (s : State) : (advanceReader s).packLen = s.packLen := by
  unfold advanceReader; split <;> rfl
@[simp] theorem advanceReader_trail (s : State) : (advanceReader s).trail = s.trail := by
  unfold advanceReader; split <;> rfl
@[simp] theorem advanceReader_symCnt (s : State) : (advanceReader s).symCnt = s.symCnt := by
  unfold advanceReader; split <;> rfl
@[simp] theorem advanceReader_outLen (s : State) : (advanceReader s).outLen = s.outLen := by
  unfold advanceReader; split <;> rfl
@[simp] theorem advanceReader_totalBits (s : State) : (advanceReader s).totalBits = s.totalBits := by
  unfold advanceReader; split <;> rfl
@[simp] theorem advanceReader_bwCur (s : State) : (advanceReader s).bwCur = s.bwCur := by
  unfold advanceReader; split <;> rfl
@[simp] theorem advanceReader_bwFree (s : State) : (advanceReader s).bwFree = s.bwFree := by
  unfold advanceReader; split <;> rfl
@[simp] theorem advanceReader_bwFin (s : State) : (advanceReader s).bwFin = s.bwFin := by
  unfold advanceReader; split <;> rfl
@[simp] theorem advanceReader_brCursor (s : State) : (advanceReader s).brCursor = s.brCursor := by
  unfold advanceReader; split <;> rfl
@[simp] theorem advanceReader_busy (s : State) : (advanceReader s).busy = s.busy := by
  unfold advanceReader; split <;> rfl
@[simp] theorem advanceReader_trunc (s : State) : (advanceReader s).trunc = s.trunc := by
  unfold advanceReader; split <;> rfl
@[simp] theorem advanceReader_result (s : State) : (advanceReader s).result = s.result := by
  unfold advanceReader; split <;> rfl
@[simp] theorem advanceReader_detail (s : State) : (advanceReader s).detail = s.detail := by
  unfold advanceReader; split <;> rfl
@[simp] theorem advanceReader_lastop (s : State) : (advanceReader s).lastop = s.lastop := by
  unfold advanceReader; split <;> rfl
@[simp] theorem advanceReader_latch (s : State) : (advanceReader s).latch = s.latch := by
  unfold advanceReader; split <;> rfl
@[simp] theorem advanceReader_symCap (s : State) : (advanceReader s).symCap = s.symCap := by
  unfold advanceReader; split <;> rfl
@[simp] theorem advanceReader_packCap (s : State) : (advanceReader s).packCap = s.packCap := by
  unfold advanceReader; split <;> rfl
@[simp] theorem advanceReader_freq (s : State) : (advanceReader s).freq = s.freq := by
  unfold advanceReader; split <;> rfl
@[simp] theorem advanceReader_nodeLink (s : State) : (advanceReader s).nodeLink = s.nodeLink := by
  unfold advanceReader; split <;> rfl
@[simp] theorem advanceReader_nodeWeight (s : State) : (advanceReader s).nodeWeight = s.nodeWeight := by
  unfold advanceReader; split <;> rfl
@[simp] theorem advanceReader_codeValid (s : State) : (advanceReader s).codeValid = s.codeValid := by
  unfold advanceReader; split <;> rfl
@[simp] theorem advanceReader_codeLen (s : State) : (advanceReader s).codeLen = s.codeLen := by
  unfold advanceReader; split <;> rfl
@[simp] theorem advanceReader_codePat (s : State) : (advanceReader s).codePat = s.codePat := by
  unfold advanceReader; split <;> rfl
@[simp] theorem advanceReader_symIn (s : State) : (advanceReader s).symIn = s.symIn := by
  unfold advanceReader; split <;> rfl
@[simp] theorem advanceReader_pack (s : State) : (advanceReader s).pack = s.pack := by
  unfold advanceReader; split <;> rfl
@[simp] theorem advanceReader_symOut (s : State) : (advanceReader s).symOut = s.symOut := by
  unfold advanceReader; split <;> rfl
@[simp] theorem advanceReader_port (s : State) : (advanceReader s).port = s.port := by
  unfold advanceReader; split <;> rfl
@[simp] theorem advanceReader_readLog (s : State) : (advanceReader s).readLog = s.readLog := by
  unfold advanceReader; split <;> rfl
@[simp] theorem advanceReader_draws (s : State) : (advanceReader s).draws = s.draws := by
  unfold advanceReader; split <;> rfl

/-! ### decodeFailed -/

@[simp] theorem decodeFailed_arg (s : State) : (decodeFailed s).arg = s.arg := rfl
@[simp] theorem decodeFailed_inLen (s : State) : (decodeFailed s).inLen = s.inLen := rfl
@[simp] theorem decodeFailed_root (s : State) : (decodeFailed s).root = s.root := rfl
@[simp] theorem decodeFailed_nodeCnt (s : State) : (decodeFailed s).nodeCnt = s.nodeCnt := rfl
@[simp] theorem decodeFailed_packLen (s : State) : (decodeFailed s).packLen = s.packLen := rfl
@[simp] theorem decodeFailed_trail (s : State) : (decodeFailed s).trail = s.trail := rfl
@[simp] theorem decodeFailed_symCnt (s : State) : (decodeFailed s).symCnt = s.symCnt := rfl
@[simp] theorem decodeFailed_outLen (s : State) : (decodeFailed s).outLen = 0#32 := rfl
@[simp] theorem decodeFailed_totalBits (s : State) : (decodeFailed s).totalBits = s.totalBits := rfl
@[simp] theorem decodeFailed_bwCur (s : State) : (decodeFailed s).bwCur = s.bwCur := rfl
@[simp] theorem decodeFailed_bwFree (s : State) : (decodeFailed s).bwFree = s.bwFree := rfl
@[simp] theorem decodeFailed_bwFin (s : State) : (decodeFailed s).bwFin = s.bwFin := rfl
@[simp] theorem decodeFailed_brPos (s : State) : (decodeFailed s).brPos = Config.anyBrPos s.draws := rfl
@[simp] theorem decodeFailed_brBit (s : State) : (decodeFailed s).brBit = Config.anyBrBit s.draws := rfl
@[simp] theorem decodeFailed_brCursor (s : State) : (decodeFailed s).brCursor = Config.anyBrCursor s.draws := rfl
@[simp] theorem decodeFailed_busy (s : State) : (decodeFailed s).busy = s.busy := rfl
@[simp] theorem decodeFailed_trunc (s : State) : (decodeFailed s).trunc = s.trunc := rfl
@[simp] theorem decodeFailed_result (s : State) : (decodeFailed s).result = s.result := rfl
@[simp] theorem decodeFailed_detail (s : State) : (decodeFailed s).detail = s.detail := rfl
@[simp] theorem decodeFailed_lastop (s : State) : (decodeFailed s).lastop = s.lastop := rfl
@[simp] theorem decodeFailed_latch (s : State) : (decodeFailed s).latch = s.latch := rfl
@[simp] theorem decodeFailed_symCap (s : State) : (decodeFailed s).symCap = s.symCap := rfl
@[simp] theorem decodeFailed_packCap (s : State) : (decodeFailed s).packCap = s.packCap := rfl
@[simp] theorem decodeFailed_freq (s : State) : (decodeFailed s).freq = s.freq := rfl
@[simp] theorem decodeFailed_nodeLink (s : State) : (decodeFailed s).nodeLink = s.nodeLink := rfl
@[simp] theorem decodeFailed_nodeWeight (s : State) : (decodeFailed s).nodeWeight = s.nodeWeight := rfl
@[simp] theorem decodeFailed_codeValid (s : State) : (decodeFailed s).codeValid = s.codeValid := rfl
@[simp] theorem decodeFailed_codeLen (s : State) : (decodeFailed s).codeLen = s.codeLen := rfl
@[simp] theorem decodeFailed_codePat (s : State) : (decodeFailed s).codePat = s.codePat := rfl
@[simp] theorem decodeFailed_symIn (s : State) : (decodeFailed s).symIn = s.symIn := rfl
@[simp] theorem decodeFailed_pack (s : State) : (decodeFailed s).pack = s.pack := rfl
@[simp] theorem decodeFailed_symOut (s : State) : (decodeFailed s).symOut = Memory.tabulate s.symCap (Config.anyFailedOut s.draws) := rfl
@[simp] theorem decodeFailed_port (s : State) : (decodeFailed s).port = s.port := rfl
@[simp] theorem decodeFailed_readLog (s : State) : (decodeFailed s).readLog = s.readLog := rfl
@[simp] theorem decodeFailed_draws (s : State) : (decodeFailed s).draws = s.draws := rfl

end Sys2Proof.Machine
end

