-- ==== Sys2Proof/Laws/Ops.lean ====
section
/-! SUPPORT. What each shared operation can do, said once: which fields it may change. -/

namespace Sys2Proof.Machine

/-! ### Every command completes -/

@[simp] theorem conclude_eq (op : Byte) (e : Ended) :
    conclude op e = .next (e.left.complete op e.result e.detail e.trunc) := rfl

@[simp] theorem Ended.done_left (s : State) : (Ended.done s).left = s := rfl
@[simp] theorem Ended.done_result (s : State) : (Ended.done s).result = .ok := rfl
@[simp] theorem Ended.done_detail (s : State) : (Ended.done s).detail = 0x00#8 := rfl
@[simp] theorem Ended.done_trunc (s : State) : (Ended.done s).trunc = false := rfl
@[simp] theorem Ended.raise_left (s : State) (c : Result) (d : Byte) : (Ended.raise s c d).left = s := rfl
@[simp] theorem Ended.raise_result (s : State) (c : Result) (d : Byte) :
    (Ended.raise s c d).result = c := rfl
@[simp] theorem Ended.raise_detail (s : State) (c : Result) (d : Byte) :
    (Ended.raise s c d).detail = d := rfl
@[simp] theorem Ended.raise_trunc (s : State) (c : Result) (d : Byte) :
    (Ended.raise s c d).trunc = false := rfl

/-- How the pseudocode of each command ends: the one place a proof about all commands starts from. -/
def bodyOf : Instr → State → Ended
  | .nop, s => .done s
  | .clear, s => .done (clearBody s)
  | .bwinit, s => .done (packerInit s)
  | .wrbits w, s => wrbitsBody w.toNat s
  | .putsym c, s => putsymBody c s
  | .finish, s => finishBody s
  | .brinit, s => .done (readerInit s)
  | .rdbit, s => rdbitBody s
  | .fclr, s => .done s.clearFreq
  | .fadd c, s => faddBody c s
  | .fcount, s => fcountBody s
  | .build, s => buildBody s
  | .tcheck, s => tcheckBody s
  | .codes, s => codesBody s
  | .encode, s => encodeBody s
  | .decode, s => decodeBody s

/-- What `exec` can do: always a next state, the completion of the command's body. -/
theorem exec_eq (i : Instr) (s : State) :
    exec i s = .next ((bodyOf i s).completed i.opcode) := by cases i <;> rfl

/-! ### Values -/

@[simp] theorem msbFirst_length {n : Nat} (v : BitVec n) (len : Nat) : (msbFirst v len).length = len := by
  simp [msbFirst]

theorem msbFirst_getElem {n : Nat} (v : BitVec n) (len j : Nat) (h : j < (msbFirst v len).length) :
    (msbFirst v len)[j] = v.getLsbD (len - 1 - j) := by simp [msbFirst]

/-- The fields of a node's window word are the node's fields (rule R47). -/
theorem NodeLink.ofWord_toWord (e : NodeLink) : NodeLink.ofWord e.toWord = e := by
  obtain ⟨a, b, c, d⟩ := e
  simp only [NodeLink.ofWord, NodeLink.toWord, NodeLink.mk.injEq]
  refine ⟨?_, ?_, ?_, ?_⟩
  · simp only [BitVec.getLsbD_append]; cases a <;> rfl
  all_goals
    apply BitVec.eq_of_getLsbD_eq
    intro i hi
    rw [BitVec.getLsbD_extractLsb']
    simp only [BitVec.getLsbD_append]
  · simp only [hi, decide_true, Bool.true_and, show ¬ 18 + i < 9 by omega, show ¬ 18 + i - 9 < 9 by omega,
      show 18 + i - 9 - 9 < 8 by omega, if_true, if_false]
    congr 1; omega
  · simp [hi]
  · simp only [hi, decide_true, Bool.true_and, show ¬ 9 + i < 9 by omega, show 9 + i - 9 < 9 by omega,
      if_true, if_false]
    congr 1; omega

/-! ### Reading what has been written: the number of the read does not matter -/

theorem freqAt_of_look {s : State} {i : Nat} {v : Word} (h : s.freq.look i = some v) (read : Nat) :
    s.freqAt read i = v := by simp [State.freqAt, h]

theorem linkAt_of_look {s : State} {i : Nat} {e : NodeLink} (h : s.nodeLink.look i = some e) (read : Nat) :
    s.linkAt read i = e := by simp [State.linkAt, h]

theorem freqAt_read {s : State} {i : Nat} (h : (s.freq.look i).isSome) (a b : Nat) :
    s.freqAt a i = s.freqAt b i := by
  obtain ⟨v, hv⟩ := Option.isSome_iff_exists.1 h
  rw [freqAt_of_look hv, freqAt_of_look hv]

theorem linkAt_read {s : State} {i : Nat} (h : (s.nodeLink.look i).isSome) (a b : Nat) :
    s.linkAt a i = s.linkAt b i := by
  obtain ⟨e, he⟩ := Option.isSome_iff_exists.1 h
  rw [linkAt_of_look he, linkAt_of_look he]

theorem symInAt_of_look {s : State} {i : Nat} {v : Byte} (h : s.symIn.look i = some v) (read : Nat) :
    s.symInAt read i = v := by simp [State.symInAt, h]

theorem symInAt_read {s : State} {i : Nat} (h : (s.symIn.look i).isSome) (a b : Nat) :
    s.symInAt a i = s.symInAt b i := by
  obtain ⟨v, hv⟩ := Option.isSome_iff_exists.1 h
  rw [symInAt_of_look hv, symInAt_of_look hv]

theorem incremented_of_look {s : State} {c : Byte} {v : Word} (h : s.freq.look c.toNat = some v)
    (hv : v ≠ BitVec.allOnes 32) : incremented s c = v + 1#32 := by
  simp only [incremented, freqAt_of_look h]
  exact if_neg hv

theorem mergedWeight_of_lt {s : State} {next sum : Nat} (h : sum < 2 ^ 32) :
    mergedWeight s next sum = BitVec.ofNat 32 sum := if_pos h

/-! ### Which fields an operation may change

Each relation says that `t` is `s` but for the fields it names; each is kept by doing nothing and by one
operation after another. -/

/-- Only the packer's fields (rule R90). -/
def OnlyPacker (s t : State) : Prop :=
  ∃ cur free fin total len trail pack, t =
    { s with
      bwCur := cur, bwFree := free, bwFin := fin, totalBits := total, packLen := len, trail := trail,
      pack := pack }

theorem OnlyPacker.refl (s : State) : OnlyPacker s s :=
  ⟨s.bwCur, s.bwFree, s.bwFin, s.totalBits, s.packLen, s.trail, s.pack, rfl⟩

theorem OnlyPacker.trans {s t u : State} (h : OnlyPacker s t) (k : OnlyPacker t u) : OnlyPacker s u := by
  obtain ⟨_, _, _, _, _, _, _, rfl⟩ := h
  obtain ⟨a, b, c, d, e, f, g, rfl⟩ := k
  exact ⟨a, b, c, d, e, f, g, rfl⟩

/-- Only FREQ. -/
def OnlyFreq (s t : State) : Prop := ∃ f, t = { s with freq := f }

theorem OnlyFreq.refl (s : State) : OnlyFreq s s := ⟨s.freq, rfl⟩

theorem OnlyFreq.trans {s t u : State} (h : OnlyFreq s t) (k : OnlyFreq t u) : OnlyFreq s u := by
  obtain ⟨_, rfl⟩ := h
  obtain ⟨f, rfl⟩ := k
  exact ⟨f, rfl⟩

/-- Only the two words of NODE. -/
def OnlyNodes (s t : State) : Prop := ∃ link weight, t = { s with nodeLink := link, nodeWeight := weight }

theorem OnlyNodes.refl (s : State) : OnlyNodes s s := ⟨s.nodeLink, s.nodeWeight, rfl⟩

theorem OnlyNodes.trans {s t u : State} (h : OnlyNodes s t) (k : OnlyNodes t u) : OnlyNodes s u := by
  obtain ⟨_, _, rfl⟩ := h
  obtain ⟨a, b, rfl⟩ := k
  exact ⟨a, b, rfl⟩

/-- Only CODE_VALID, CODE_LEN and CODE_PAT. -/
def OnlyCodes (s t : State) : Prop :=
  ∃ valid len pat, t = { s with codeValid := valid, codeLen := len, codePat := pat }

theorem OnlyCodes.refl (s : State) : OnlyCodes s s := ⟨s.codeValid, s.codeLen, s.codePat, rfl⟩

theorem OnlyCodes.trans {s t u : State} (h : OnlyCodes s t) (k : OnlyCodes t u) : OnlyCodes s u := by
  obtain ⟨_, _, _, rfl⟩ := h
  obtain ⟨a, b, c, rfl⟩ := k
  exact ⟨a, b, c, rfl⟩

/-- Only the reader, its cursor and SYM_OUT (rule R127). -/
def OnlyReader (s t : State) : Prop :=
  ∃ pos bit cursor out, t = { s with brPos := pos, brBit := bit, brCursor := cursor, symOut := out }

theorem OnlyReader.refl (s : State) : OnlyReader s s := ⟨s.brPos, s.brBit, s.brCursor, s.symOut, rfl⟩

theorem OnlyReader.trans {s t u : State} (h : OnlyReader s t) (k : OnlyReader t u) : OnlyReader s u := by
  obtain ⟨_, _, _, _, rfl⟩ := h
  obtain ⟨a, b, c, d, rfl⟩ := k
  exact ⟨a, b, c, d, rfl⟩

/-! ### The packer -/

theorem flushByte_only (s : State) : OnlyPacker s (flushByte s) := by
  unfold flushByte State.writePack
  split
  · exact ⟨_, _, s.bwFin, s.totalBits, _, s.trail, _, rfl⟩
  · exact ⟨_, _, s.bwFin, s.totalBits, _, s.trail, s.pack, rfl⟩

theorem appendBit_only (s : State) (b : Bool) : OnlyPacker s (appendBit s b) := by
  have h : OnlyPacker s (fillSlot s b) := ⟨_, _, s.bwFin, _, s.packLen, s.trail, s.pack, rfl⟩
  unfold appendBit
  dsimp only
  split
  · exact h.trans (flushByte_only _)
  · exact h

theorem pushBits_only (s : State) (bits : List Bool) : OnlyPacker s (pushBits s bits) := by
  unfold pushBits
  induction bits generalizing s with
  | nil => exact .refl s
  | cons b bits ih => exact (appendBit_only s b).trans (ih _)

theorem pushBits_append (s : State) (a b : List Bool) :
    pushBits s (a ++ b) = pushBits (pushBits s a) b := by simp [pushBits]

theorem packerInit_only (s : State) : OnlyPacker s (packerInit s) :=
  ⟨_, _, _, _, _, _, s.pack, rfl⟩

theorem finishStream_only (s : State) : OnlyPacker s (finishStream s) := by
  unfold finishStream
  split
  · obtain ⟨_, _, _, d, e, _, g, h⟩ := flushByte_only s
    rw [h]
    exact ⟨_, _, _, d, e, _, g, rfl⟩
  · exact ⟨_, _, _, s.totalBits, s.packLen, _, s.pack, rfl⟩

theorem putCode_only (s : State) (c : Byte) : OnlyPacker s (putCode s c) := pushBits_only s _

/-- FINISH writes the packer and nothing else, whether it completes or raises (rule R98). -/
theorem finishBody_only (s : State) : OnlyPacker s (finishBody s).left := by
  unfold finishBody
  split
  · exact .refl s
  · split
    · exact .refl s
    · exact finishStream_only s

/-- Packing writes the packer and nothing else, whether it completes or raises (rule R125). -/
theorem packSymbols_only (cs : List Byte) (s : State) : OnlyPacker s (packSymbols cs s).left := by
  induction cs generalizing s with
  | nil => exact finishBody_only s
  | cons c cs ih =>
    unfold packSymbols
    split
    · exact (putCode_only s c).trans (ih _)
    · exact .refl s

/-- A packing that completes has put every code and finished the stream. -/
theorem packSymbols_ok {cs : List Byte} {s : State} (h : (packSymbols cs s).result = .ok) :
    packSymbols cs s = .done (finishStream (cs.foldl putCode s)) := by
  induction cs generalizing s with
  | nil =>
    simp only [packSymbols, finishBody, List.foldl_nil] at h ⊢
    split at h
    · cases h
    · split at h
      · cases h
      · next h1 h2 => rw [if_neg h1, if_neg h2]
  | cons c cs ih =>
    unfold packSymbols at h ⊢
    split at h
    · next hf => simpa [hf] using ih h
    · cases h

/-- A multi-bit append either packs every bit or raises PACK_OVF and leaves the state (rule R94). -/
theorem appendBits_cases (s : State) (bits : List Bool) :
    (fits s bits.length = true ∧ appendBits s bits = .done (pushBits s bits)) ∨
      (fits s bits.length = false ∧ appendBits s bits = .raise s .packOvf Detail.none) := by
  unfold appendBits
  cases h : fits s bits.length <;> simp

/-- AppendBit by the slot it fills: the last free slot flushes the byte, any other does not (rule R92). -/
theorem appendBit_eq (s : State) (b : Bool) (h1 : 1 ≤ s.bwFree.toNat) (h8 : s.bwFree.toNat ≤ 8) :
    appendBit s b = if s.bwFree.toNat = 1 then flushByte (fillSlot s b) else fillSlot s b := by
  have key : s.bwFree - 1#4 = 0#4 ↔ s.bwFree.toNat = 1 := by
    generalize s.bwFree = f at *
    bv_omega
  unfold appendBit
  dsimp only
  rw [fillSlot_bwFree]
  simp only [key]

/-! ### The frequency table and the tree -/

theorem countInput_only (s : State) : OnlyFreq s (countInput s) := by
  have key : ∀ (cs : List Byte) (t : State), OnlyFreq t (cs.foldl countSymbol t) := by
    intro cs
    induction cs with
    | nil => exact fun t => .refl t
    | cons c cs ih => exact fun t => OnlyFreq.trans ⟨_, rfl⟩ (ih (countSymbol t c))
  exact OnlyFreq.trans ⟨_, rfl⟩ (key (inputSymbols s 0) s.clearFreq)

theorem writeNode_only (s : State) (i : Nat) (e : NodeLink) (v : Word) :
    OnlyNodes s (s.writeNode i e v) := by
  unfold State.writeNode State.writeWeight State.writeLink
  split
  · exact ⟨_, _, rfl⟩
  · exact .refl s

theorem enqueue_length (e : QEntry) (q : List QEntry) : (enqueue e q).length = q.length + 1 := by
  induction q with
  | nil => rfl
  | cons x q ih => unfold enqueue; split <;> simp [ih]

theorem leafQueue_length (s : State) : (leafQueue s).length = (leafSymbols s).length := by
  have key : ∀ (ls : List (Nat × Nat)) (q : List QEntry),
      (ls.foldl (fun q leaf => enqueue ⟨(s.freqAt 3 leaf.1).toNat, leaf.1, leaf.2⟩ q) q).length =
        q.length + ls.length := by
    intro ls
    induction ls with
    | nil => simp
    | cons x ls ih => intro q; rw [List.foldl_cons, ih, enqueue_length, List.length_cons]; omega
  rw [leafQueue, key]
  simp

theorem placeLeaves_only (f : Nat → Word) (ls : List (Nat × Nat)) (s : State) :
    OnlyNodes s (ls.foldl (placeLeaf f) s) := by
  induction ls generalizing s with
  | nil => exact .refl s
  | cons x ls ih => exact (writeNode_only s _ _ _).trans (ih _)

theorem mergeLoop_only (fuel : Nat) (q : List QEntry) (next m : Nat) (s : State) :
    OnlyNodes s (mergeLoop fuel q next m s) := by
  induction fuel generalizing q next m s with
  | zero => exact .refl s
  | succ fuel ih =>
    match q with
    | [] => exact .refl s
    | [_] => exact .refl s
    | x :: y :: q => exact (writeNode_only s _ _ _).trans (ih _ _ _ _)

/-- Building the tree changes NODE, ROOT, NODE_CNT, SYM_CNT, and clears every CODE_VALID; nothing else. -/
theorem buildTree_frame (s : State) :
    ∃ link weight root cnt total, buildTree s =
      { s with
        nodeLink := link, nodeWeight := weight, root := root, nodeCnt := cnt, symCnt := total,
        codeValid := 0#256 } := by
  unfold buildTree
  dsimp only
  split
  · exact ⟨s.nodeLink, s.nodeWeight, _, _, _, rfl⟩
  · obtain ⟨a, b, h⟩ := (placeLeaves_only (s.freqAt 2) (leafSymbols s).zipIdx s.invalidateCodes).trans
      (mergeLoop_only (leafSymbols s).length (leafQueue s) (leafSymbols s).length 0 _)
    exact ⟨a, b, _, _, _, by rw [h]; rfl⟩

/-! ### The code table -/

theorem leafCode_of_pos {tree : State} {p l : Nat} (h : 0 < l) : leafCode tree p l = (p, l) :=
  if_neg (Nat.pos_iff_ne_zero.1 h)

/-- Every code Walk gives has a length of 1 to 255 and a pattern below 2^length (rule R121 (a)). -/
theorem leafCode_range {tree : State} {p l : Nat} (hl : l ≤ 255) (hp : p < 2 ^ l) :
    1 ≤ (leafCode tree p l).2 ∧ (leafCode tree p l).2 ≤ 255 ∧
      (leafCode tree p l).1 < 2 ^ (leafCode tree p l).2 := by
  unfold leafCode
  split
  · exact ⟨Nat.succ_pos _, Nat.succ_le_of_lt (Fin.isLt _), Nat.mod_lt _ (by positivity)⟩
  · next h => exact ⟨Nat.pos_of_ne_zero h, hl, hp⟩

theorem walk_only (tree : State) (fuel : Nat) (n : NodeIx) (p l : Nat) (s : State) :
    OnlyCodes s (walk tree fuel n p l s) := by
  induction fuel generalizing n p l s with
  | zero => exact .refl s
  | succ fuel ih =>
    simp only [walk]
    split
    · exact (ih _ _ _ _).trans (ih _ _ _ _)
    · exact ⟨_, _, _, rfl⟩

theorem buildCodes_only (s : State) : OnlyCodes s (buildCodes s) := by
  have h : OnlyCodes s s.clearCodes := ⟨_, _, _, rfl⟩
  unfold buildCodes
  dsimp only
  split
  · exact h
  · split
    · exact h.trans (walk_only _ _ _ _ _ _)
    · exact h.trans ⟨_, _, _, rfl⟩

/-! ### The reader and the decoder -/

/-- Which positions are significant, as rule R100 counts them. -/
theorem significant_iff (s : State) :
    significant s = true ↔ s.brPos.toNat + 1 < s.packLen.toNat ∨
      (s.brPos.toNat + 1 = s.packLen.toNat ∧ s.trail.toNat ≤ s.brBit.toNat) := by
  unfold significant
  dsimp only
  split
  · simp; omega
  · split
    · simp; omega
    · split
      · simp; omega
      · simp; omega

theorem advanceReader_only (s : State) : OnlyReader s (advanceReader s) := by
  unfold advanceReader
  split
  · exact ⟨_, _, s.brCursor, s.symOut, rfl⟩
  · exact ⟨s.brPos, _, s.brCursor, s.symOut, rfl⟩

theorem writeSymOut_only (s : State) (i : Nat) (v : Byte) : OnlyReader s (s.writeSymOut i v) := by
  unfold State.writeSymOut
  split
  · exact ⟨s.brPos, s.brBit, s.brCursor, _, rfl⟩
  · exact .refl s

theorem setCursor_only (s : State) (n : NodeIx) : OnlyReader s { s with brCursor := n } :=
  ⟨s.brPos, s.brBit, n, s.symOut, rfl⟩

theorem moveCursor_only (s : State) (n : NodeIx) : OnlyReader s (moveCursor s n) :=
  (advanceReader_only s).trans (setCursor_only _ _)

theorem emitSymbol_only (s : State) (out : Nat) (c : Byte) : OnlyReader s (emitSymbol s out c) :=
  (writeSymOut_only s out c).trans (setCursor_only _ _)

theorem endGeneral_ok {cur : NodeIx} {out : Nat} {s t : State} {n : Nat}
    (h : endGeneral cur out s = .ok (t, n)) : cur = s.root ∧ t = s ∧ n = out := by
  unfold endGeneral at h
  split at h
  · cases h
  · next hc => cases h; exact ⟨by simpa using hc, rfl, rfl⟩

theorem endDegenerate_ok {out : Nat} {s t : State} {n : Nat}
    (h : endDegenerate out s = .ok (t, n)) : out = s.symCnt.toNat ∧ t = s ∧ n = out := by
  unfold endDegenerate at h
  split at h
  · cases h
  · next hc => cases h; exact ⟨by simpa using hc, rfl, rfl⟩

theorem decodeGeneral_only (fuel : Nat) (cur : NodeIx) (out : Nat) (s t : State) (n : Nat)
    (h : decodeGeneral fuel cur out s = .ok (t, n)) : OnlyReader s t := by
  induction fuel generalizing cur out s with
  | zero => exact (endGeneral_ok h).2.1 ▸ .refl s
  | succ fuel ih =>
    simp only [decodeGeneral] at h
    split at h
    · split at h
      · exact (moveCursor_only s _).trans (ih _ _ _ h)
      · split at h
        · cases h
        · exact ((moveCursor_only s _).trans (emitSymbol_only _ _ _)).trans (ih _ _ _ h)
    · exact (endGeneral_ok h).2.1 ▸ .refl s

theorem decodeDegenerate_only (c : Byte) (fuel out : Nat) (s t : State) (n : Nat)
    (h : decodeDegenerate c fuel out s = .ok (t, n)) : OnlyReader s t := by
  induction fuel generalizing out s with
  | zero => exact (endDegenerate_ok h).2.1 ▸ .refl s
  | succ fuel ih =>
    simp only [decodeDegenerate] at h
    split at h
    · split at h
      · cases h
      · split at h
        · cases h
        · exact ((advanceReader_only s).trans (writeSymOut_only _ _ _)).trans (ih _ _ h)
    · exact (endDegenerate_ok h).2.1 ▸ .refl s

/-- Decoding the stream moves the reader and its cursor and writes SYM_OUT, nothing else (rule R127). -/
theorem decodeStream_only (s t : State) (n : Nat) (h : decodeStream s = .ok (t, n)) : OnlyReader s t := by
  unfold decodeStream at h
  dsimp only at h
  split at h
  · exact decodeGeneral_only _ _ _ _ _ _ h
  · exact decodeDegenerate_only _ _ _ _ _ _ h

end Sys2Proof.Machine
end

