-- ==== Sys2Proof/Laws/PerInstr.lean ====
section
/-! SUPPORT. One statement made for every instruction: its command word agrees with the match and mask of its
row in spec/opcode_table.source.json (the formats of spec/30_encoding.md rule R64). -/

namespace Sys2Proof.Laws.TableRow

/-- The "mask" of the instruction's row. -/
def mask : Instr → Word
  | .wrbits _ => 0xFFFFC0FF#32
  | .putsym _ | .fadd _ => 0xFFFF00FF#32
  | .nop | .clear | .bwinit | .finish | .brinit | .rdbit | .fclr | .fcount | .build | .tcheck
  | .codes | .encode | .decode => 0xFFFFFFFF#32

/-- The "match" of the instruction's row. -/
def pattern : Instr → Word
  | .nop => 0x00000000#32
  | .clear => 0x00000001#32
  | .bwinit => 0x00000010#32
  | .wrbits _ => 0x00000011#32
  | .putsym _ => 0x00000012#32
  | .finish => 0x00000013#32
  | .brinit => 0x00000020#32
  | .rdbit => 0x00000021#32
  | .fclr => 0x00000030#32
  | .fadd _ => 0x00000031#32
  | .fcount => 0x00000032#32
  | .build => 0x00000033#32
  | .tcheck => 0x00000040#32
  | .codes => 0x00000041#32
  | .encode => 0x00000050#32
  | .decode => 0x00000060#32

/-- The instruction's word has its row's pattern under its row's mask. -/
def Statement (i : Instr) : Prop := Sys2Proof.encode i &&& mask i = pattern i

theorem nop : Statement .nop := rfl
theorem clear : Statement .clear := rfl
theorem bwinit : Statement .bwinit := rfl
theorem wrbits (width : BitVec 6) : Statement (.wrbits width) := by
  simp only [Statement, mask, pattern, Sys2Proof.encode, formatW]; revert width; decide
theorem putsym (sym : Byte) : Statement (.putsym sym) := by
  simp only [Statement, mask, pattern, Sys2Proof.encode, formatS]; revert sym; decide +kernel
theorem finish : Statement .finish := rfl
theorem brinit : Statement .brinit := rfl
theorem rdbit : Statement .rdbit := rfl
theorem fclr : Statement .fclr := rfl
theorem fadd (sym : Byte) : Statement (.fadd sym) := by
  simp only [Statement, mask, pattern, Sys2Proof.encode, formatS]; revert sym; decide +kernel
theorem fcount : Statement .fcount := rfl
theorem build : Statement .build := rfl
theorem tcheck : Statement .tcheck := rfl
theorem codes : Statement .codes := rfl
theorem encode : Statement .encode := rfl
theorem decode : Statement .decode := rfl

end Sys2Proof.Laws.TableRow
end

