-- ==== Sys2Proof/Laws/Tree.lean ====
section
/-! SUPPORT. Inputs and trees that are written: every read of them gives the same symbols and the same nodes. -/

namespace Sys2Proof.Machine

/-- A written input reads alike at every pass over it. -/
theorem State.InputWritten.inputSymbols_read {s : State} (h : s.InputWritten) (a b : Nat) :
    inputSymbols s a = inputSymbols s b :=
  List.map_congr_left fun _ hi => symInAt_read (h _ (List.mem_range.1 hi)) a b

theorem State.TreeWritten.root {s : State} (h : s.TreeWritten) : (s.nodeLink.look s.root.toNat).isSome :=
  h [] s.root rfl

/-- A node on a path reads alike at every read. -/
theorem State.TreeWritten.linkAt_read {s : State} (h : s.TreeWritten) {bits : List Bool} {n : NodeIx}
    (hn : s.descend s.root bits = some n) (a b : Nat) : s.linkAt a n.toNat = s.linkAt b n.toNat :=
  Machine.linkAt_read (h bits n hn) a b

theorem descend_append (s : State) (n : NodeIx) (a b : List Bool) :
    s.descend n (a ++ b) = (s.descend n a).bind fun m => s.descend m b := by
  induction a generalizing n with
  | nil => rfl
  | cons x a ih =>
    simp only [List.cons_append, State.descend]
    split
    · exact ih _
    · rfl

/-- A set of written nodes that holds the root and the children of its Internal nodes holds every path. -/
theorem treeWritten_of_closed {s : State} (nodes : List NodeIx) (hroot : s.root ∈ nodes)
    (hclosed : ∀ n ∈ nodes, (s.nodeLink.look n.toNat).isSome ∧
      ((s.linkAt 0 n.toNat).internal = true →
        (s.linkAt 0 n.toNat).left ∈ nodes ∧ (s.linkAt 0 n.toNat).right ∈ nodes)) : s.TreeWritten := by
  have key : ∀ (bits : List Bool) (m n : NodeIx), m ∈ nodes → s.descend m bits = some n → n ∈ nodes := by
    intro bits
    induction bits with
    | nil => intro m n hm h; cases h; exact hm
    | cons b bits ih =>
      intro m n hm h
      simp only [State.descend] at h
      split at h
      · next hi =>
        have hc := (hclosed m hm).2 hi
        exact ih _ n (by cases b <;> simp [hc]) h
      · cases h
  exact fun bits n h => (hclosed n (key bits s.root n hroot h)).1

end Sys2Proof.Machine
end

