-- ==== Sys2Proof/Tests/Slice0.lean ====
section
/-! SUPPORT. Tests: the encodings written out from spec/30_encoding.md, small steps whose results stand in
spec/95_test_vectors.md, and for each statement with hypotheses a state and operands that meet them. -/

namespace Sys2Proof.Tests

open Sys2Proof.Machine

-- One theorem after the other: each kernel evaluation would take a thread of its own.
set_option Elab.async false

/-! ### Well-formedness and decoding -/

theorem test_wellFormed_wrbits_32 : (Instr.wrbits 32#6).wellFormed = true := by decide

/-- Width 33 is encodable and illegal (rule R67). -/
theorem test_illFormed_wrbits_33 : (Instr.wrbits 33#6).wellFormed = false := by decide

theorem test_illFormed_wrbits_63 : ¬ (Instr.wrbits 63#6).WellFormed := by
  simp [Instr.WellFormed, wrbitsMax]

/-- Rule R65, control: OP 0000_0000 and 0000_0001. -/
theorem test_decode_control :
    decode 0b00000000_00000000_00000000_00000000#32 = .ok .nop ∧
    decode 0b00000000_00000000_00000000_00000001#32 = .ok .clear := ⟨rfl, rfl⟩

/-- Rules R64, R65, the packer: WIDTH in bits 13 to 8, SYM in bits 15 to 8. -/
theorem test_decode_packer :
    decode 0b00000000_00000000_00000000_00010000#32 = .ok .bwinit ∧
    decode 0b00000000_00000000_00010011_00010001#32 = .ok (.wrbits 0b010011#6) ∧
    decode 0b00000000_00000000_10110001_00010010#32 = .ok (.putsym 0b10110001#8) ∧
    decode 0b00000000_00000000_00000000_00010011#32 = .ok .finish := ⟨rfl, rfl, rfl, rfl⟩

/-- Rule R65, the unpacker. -/
theorem test_decode_unpacker :
    decode 0b00000000_00000000_00000000_00100000#32 = .ok .brinit ∧
    decode 0b00000000_00000000_00000000_00100001#32 = .ok .rdbit := ⟨rfl, rfl⟩

/-- Rules R64, R65, the frequency table and the tree builder. -/
theorem test_decode_treeBuilder :
    decode 0b00000000_00000000_00000000_00110000#32 = .ok .fclr ∧
    decode 0b00000000_00000000_10000010_00110001#32 = .ok (.fadd 0b10000010#8) ∧
    decode 0b00000000_00000000_00000000_00110010#32 = .ok .fcount ∧
    decode 0b00000000_00000000_00000000_00110011#32 = .ok .build := ⟨rfl, rfl, rfl, rfl⟩

/-- Rule R65, the code table and the composites. -/
theorem test_decode_codeTable_and_composites :
    decode 0b00000000_00000000_00000000_01000000#32 = .ok .tcheck ∧
    decode 0b00000000_00000000_00000000_01000001#32 = .ok .codes ∧
    decode 0b00000000_00000000_00000000_01010000#32 = .ok .encode ∧
    decode 0b00000000_00000000_00000000_01100000#32 = .ok .decode := ⟨rfl, rfl, rfl, rfl⟩

/-- The illegal words of spec/95_test_vectors.md section 2.1, and the priority of section 2.8: an unknown
opcode with reserved bits set is a bad opcode. -/
theorem test_decode_illegal :
    [0x00000002#32, 0x000000FF#32, 0xFFFFFF02#32].map decode = List.replicate 3 (.error .badOpcode) ∧
    [0x00000100#32, 0x00010031#32, 0x00004011#32, 0x00020012#32, 0x80000060#32, 0x00000160#32,
      0x00006111#32].map decode = List.replicate 7 (.error .reservedSet) ∧
    [0x00002111#32, 0x00003F11#32].map decode = List.replicate 2 (.error .badWidth) := by decide

/-! ### Small states -/

/-- The state an instruction leaves. -/
def after (i : Instr) (s : State) : State :=
  match exec i s with
  | .next t => t
  | .fault f => nomatch f
  | .refused _ => s

/-- Every instruction completes from every state. -/
theorem exec_after (i : Instr) (s : State) : exec i s = .next (after i s) := by cases i <;> rfl

/-- A block with SYM_CAP = 4 and PACK_CAP = 2 right after reset. -/
def fresh : State := State.resetOf 4 2

/-- FREQ all 0, which is what FCLR leaves. -/
def zeroFreq : Memory Word := Memory.tabulate 256 fun _ => 0#32

/-- "aaab" loaded (spec/95_test_vectors.md section 1.2, scenario A). -/
def loaded : State :=
  { fresh with inLen := 4#32, symIn := [(0, 0x61#8), (1, 0x61#8), (2, 0x61#8), (3, 0x62#8)] }

/-- The tree, payload and codes that scenario A gives for "aaab". -/
def encoded : State :=
  { loaded with
    freq := (zeroFreq.put 0x61 3#32).put 0x62 1#32
    nodeLink := [(0, NodeLink.ofWord 0x0187FFFF#32), (1, NodeLink.ofWord 0x018BFFFF#32),
      (2, NodeLink.ofWord 0x80000001#32)]
    nodeWeight := [(0, 3#32), (1, 1#32), (2, 4#32)]
    root := 2#9
    nodeCnt := 3#10
    symCnt := 4#32
    codeValid := BitVec.twoPow 256 0x61 ||| BitVec.twoPow 256 0x62
    codeLen := ((Memory.tabulate 256 fun _ => 0#8).put 0x61 1#8).put 0x62 1#8
    codePat := (Memory.tabulate 256 fun _ => 0#255).put 0x61 1#255
    pack := [(0, 0xE0#8)]
    packLen := 1#32
    trail := 4#3
    totalBits := 4#32
    bwFin := true
    lastop := 0x50#8
    draws := 1 }

/-- A tree of three nodes with the given root entry, its leaves 'a' at 0 and `c` at 1. -/
def tree3 (link : Word) (c : Byte) : State :=
  { fresh with
    root := 2#9
    nodeCnt := 3#10
    nodeLink := [(0, NodeLink.leaf 0x61#8), (1, NodeLink.leaf c), (2, NodeLink.ofWord link)] }

/-- A single leaf 'a' with the stream of four 0 bits and the count 4, which is SYM_CAP. -/
def single : State :=
  { fresh with
    root := 0#9, nodeCnt := 1#10, nodeLink := [(0, NodeLink.leaf 0x61#8)], symCnt := 4#32
    pack := [(0, 0x00#8)], packLen := 1#32, trail := 4#3 }

/-- The code 10100101 for 'a' and one byte already packed. -/
def coded : State :=
  { fresh with
    codeValid := BitVec.twoPow 256 0x61, codeLen := [(0x61, 8#8)], codePat := [(0x61, 0xA5#255)]
    pack := [(0, 0x11#8)], packLen := 1#32 }

/-! ### One step each, from spec/95_test_vectors.md -/

/-- Section 2.1: NOP. -/
theorem test_nop_status : (after .nop fresh).statusWord = 0x00000004#32 := by decide +kernel

/-- Section 2.1: CLEAR after ENCODE "aaab" keeps PACK[0], makes CODE_LEN[61] read 1. -/
theorem test_clear_keeps_memories :
    let t := after .clear encoded
    (t.statusWord, t.root, t.bwStateWord, t.brStateWord, t.readLoc (.codeLen 0x61), t.readLoc (.pack 0)) =
      (0x01000004#32, 0x1FF#9, 0x00000800#32, 0x01FF0007#32, 0x00000001#32, 0xE0#32) := by decide +kernel

/-- Section 2.2: BWINIT after the packer has finished. -/
theorem test_bwinit_starts_again :
    let t := after .bwinit encoded
    (t.packLen, t.trail, t.bwStateWord, t.totalBits) = (0#32, 0#3, 0x00000800#32, 0#32) := by decide +kernel

/-- Section 2.2: WRBITS 3 of 5 leaves CUR A0, FREE 5; then WRBITS 6 of 3C flushes BE. -/
theorem test_wrbits_msb_first :
    let t := after (.wrbits 3#6) { fresh with arg := 0x5#32 }
    let u := after (.wrbits 6#6) { t with arg := 0x3C#32 }
    (t.bwStateWord, u.pack, u.bwStateWord, u.totalBits) =
      (0x000005A0#32, [(0, 0xBE#8)], 0x00000700#32, 9#32) := by decide +kernel

/-- Section 2.2, corner cases: an ARG wider than WIDTH sets TRUNC, even with no bit written. -/
theorem test_wrbits_trunc :
    let t := after (.wrbits 3#6) { fresh with arg := 0x1F#32 }
    let u := after (.wrbits 0#6) { t with arg := 0xFFFFFFFF#32 }
    (t.bwStateWord, t.statusWord, u.bwStateWord, u.statusWord) =
      (0x000005E0#32, 0x1100000C#32, 0x000005E0#32, 0x1100000C#32) := by decide +kernel

/-- Section 2.2: PUTSYM of the code 110. -/
theorem test_putsym_first_sent_bit :
    let s := { fresh with
      codeValid := BitVec.twoPow 256 0x62, codeLen := [(0x62, 3#8)], codePat := [(0x62, 6#255)] }
    ((after (.putsym 0x62#8) s).bwStateWord, (after (.putsym 0x7A#8) s).statusWord) =
      (0x000005C0#32, 0x12000206#32) := by decide +kernel

/-- Section 2.2, last row of the sequence: CUR 80, FREE 7 padded. -/
theorem test_finish_pads :
    let t := after .finish { fresh with bwCur := 0x80#8, bwFree := 7#4 }
    (t.pack, t.packLen, t.trail, t.bwStateWord) = ([(0, 0x80#8)], 1#32, 7#3, 0x00010800#32) := by
  decide +kernel

/-- Section 2.3: BRINIT after ENCODE "aaab". -/
theorem test_brinit_cursor_at_root : (after .brinit encoded).brStateWord = 0x00020007#32 := by
  decide +kernel

/-- Section 2.3: the fourth and the fifth RDBIT of ENCODE "aaab". -/
theorem test_rdbit_ends :
    let t := after .rdbit { encoded with brCursor := 2#9, brBit := 4#3 }
    (t.arg, t.brStateWord, (after .rdbit t).statusWord) = (0#32, 0x00020003#32, 0x21000802#32) := by
  decide +kernel

/-- Section 2.4: FCLR. -/
theorem test_fclr_zeroes :
    (after .fclr { fresh with freq := [(3, 7#32)] }).freq = zeroFreq := by decide +kernel

/-- Section 2.4: FADD at FFFFFFFE and at FFFFFFFF. -/
theorem test_fadd_ceiling :
    let t := after (.fadd 0#8) { fresh with freq := [(0, 0xFFFFFFFE#32)] }
    (t.freq, t.statusWord, (after (.fadd 0#8) t).statusWord) =
      ([(0, 0xFFFFFFFF#32)], 0x31000004#32, 0x31000606#32) := by decide +kernel

/-- Section 1.2: the frequencies of "aaab". -/
theorem test_fcount_counts : (after .fcount loaded).freq = encoded.freq := by decide +kernel

/-- Section 2.4: the weights FFFFFFFE and 1. -/
theorem test_build_largest_total :
    let t := after .build { fresh with freq := (zeroFreq.put 0 0xFFFFFFFE#32).put 1 1#32 }
    (t.root, t.nodeCnt, t.nodeLink.look 2, t.nodeWeight.look 2, t.symCnt) =
      (2#9, 3#10, some (NodeLink.ofWord 0x80000001#32), some 0xFFFFFFFF#32, 0xFFFFFFFF#32) := by
  decide +kernel

/-- Section 2.5: a child that is the root, and a child NIL. -/
theorem test_tcheck_defects :
    ((after .tcheck (tree3 0x80000002#32 0x62#8)).statusWord,
      (after .tcheck (tree3 0x803FE001#32 0x62#8)).statusWord) = (0x40040402#32, 0x40030402#32) := by
  decide +kernel

/-- Section 1.2: a = "1", b = "0" for the tree of "aaab". -/
theorem test_codes_aaab :
    let t := after .codes (tree3 0x80000001#32 0x62#8)
    (t.readLoc (.codeLen 0x61), t.readLoc (.codePat 0x61 0), t.readLoc (.codeLen 0x62),
      t.readLoc (.codePat 0x62 0), t.readLoc (.codeLen 0x63)) =
      (0x80000001#32, 1#32, 0x80000001#32, 0#32, 0#32) := by decide +kernel

/-- Scenario A, the whole state ENCODE leaves. -/
theorem test_encode_aaab : after .encode loaded = encoded := by decide +kernel

/-- Scenario A: DECODE restores "aaab". -/
theorem test_decode_aaab :
    let t := after .decode encoded
    (t.symOut, t.outLen, t.brPos, t.brStateWord, t.statusWord) =
      (loaded.symIn, 4#32, 0#32, 0x00020003#32, 0x60000000#32) := by decide +kernel

/-- Section 2.7: a padding bit set is no data; a 1 bit in a single leaf's stream is DEGEN_ONE_BIT. -/
theorem test_decode_padding_and_one_bit :
    ((after .decode { encoded with pack := [(0, 0xEF#8)] }).symOut,
      (after .decode { single with pack := [(0, 0x10#8)] }).statusWord) =
      (loaded.symIn, 0x60050402#32) := by decide +kernel

/-- Section 2.1: the DECODE word with bit 31 set, as a step. -/
theorem test_step_illegal_word :
    (match step { fresh with latch := some 0x80000060#32, busy := true } with
      | .next t => t.statusWord
      | .fault f => nomatch f
      | .refused _ => 0#32) = 0x60020106#32 := by decide +kernel

/-- Rule R70: WRBITSI and LOADIN as host accesses. -/
theorem test_assemble :
    assemble 0 [.wrbitsi 5#32 3, .loadin [0x61#8]] =
      some [.write 0x00C#22 5#32, .write 0x008#22 0x00000311#32, .poll 0,
        .write 0x100000#22 0x61#32, .write 0x014#22 1#32] ∧
    assemble 0 [.wrbits 33] = none := by decide +kernel

/-- More bytes than SYM_IN has addresses are refused, as `WR SYM_IN[262144]` is (log 21). -/
theorem test_loadin_refused (bytes : List Byte) (h : 262144 < bytes.length) :
    (Stmt.loadin bytes).assemble 0 = none ∧ (Stmt.wr (.loc (.symIn 262144)) 0#32).assemble 0 = none :=
  ⟨if_neg (by simpa [Config.capMax] using h), by decide +kernel⟩

/-! ### Witnesses: what meets the hypotheses of each statement -/

theorem fresh_inv : fresh.Inv := by constructor <;> decide +kernel

theorem loaded_inv : loaded.Inv := by constructor <;> decide +kernel

theorem loaded_written : loaded.InputWritten := by unfold State.InputWritten; decide +kernel

theorem coded_inv : coded.Inv := by constructor <;> decide +kernel

theorem test_witness_DecodeOfEncodeIsTheCommand :
    (Instr.wrbits 32#6).WellFormed ∧ (Instr.fadd 0xFF#8).WellFormed := by
  simp [Instr.WellFormed, wrbitsMax]

theorem test_witness_DecodedWordIsTheEncoding : decode 0x00002011#32 = .ok (.wrbits 32#6) := rfl

/-- Words for each clause that refuses, at the ends of its range where it has one. -/
theorem test_witness_DecodingProcedure_refusals :
    (∀ w ∈ [0x02#32, 0xFF#32], ¬ (w.toNat % 256 ∈ nOpcodes ++ sOpcodes ++ [wOpcode])) ∧
    (∀ w ∈ [0x00000100#32, 0x80000060#32], w.toNat % 256 ∈ nOpcodes ∧ w.toNat / 256 ≠ 0) ∧
    (∀ w ∈ [0x00010031#32, 0x80000012#32], w.toNat % 256 ∈ sOpcodes ∧ w.toNat / 65536 ≠ 0) ∧
    (∀ w ∈ [0x00004011#32, 0x80000011#32], w.toNat % 256 = wOpcode ∧ w.toNat / 16384 ≠ 0) ∧
    (∀ w ∈ [0x00002111#32, 0x00003F11#32],
      w.toNat % 256 = wOpcode ∧ w.toNat / 16384 = 0 ∧ 32 < w.toNat / 256 % 64) := by
  simp [nOpcodes, sOpcodes, wOpcode]

/-- Words for each clause that accepts, at the ends of its range where it has one. -/
theorem test_witness_DecodingProcedure_commands :
    (∀ w ∈ [0x00000000#32, 0x00000060#32], w.toNat % 256 ∈ nOpcodes ∧ w.toNat / 256 = 0) ∧
    (∀ w ∈ [0x00000012#32, 0x0000FF12#32], w.toNat % 256 = 0x12 ∧ w.toNat / 65536 = 0) ∧
    (∀ w ∈ [0x00000031#32, 0x0000FF31#32], w.toNat % 256 = 0x31 ∧ w.toNat / 65536 = 0) ∧
    (∀ w ∈ [0x00000011#32, 0x00002011#32],
      w.toNat % 256 = wOpcode ∧ w.toNat / 16384 = 0 ∧ w.toNat / 256 % 64 ≤ 32) := by
  simp [nOpcodes, wOpcode]

/-- The last clause of the procedure, for each rejection. -/
theorem test_witness_DecodingProcedure_step :
    ∀ x ∈ [(0x00000002#32, Illegal.badOpcode), (0x80000060#32, .reservedSet), (0x00002111#32, .badWidth)],
      let s := { fresh with latch := some x.1, busy := true }
      s.latch = some x.1 ∧ decode x.1 = .error x.2 ∧ s.port = [] ∧
        { s with port := [.idle, .poll 0] }.port = .idle :: [.poll 0] ∧
        { s with port := [.poll 0] }.port = .poll 0 :: [] ∧ s.busy = true := by decide +kernel

theorem test_witness_StepRunsTheLatchedCommand :
    let s := { fresh with latch := some 0x60#32, busy := true }
    (s.latch = some 0x60#32 ∧ decode 0x60#32 = .ok .decode) ∧
    s.port = [] ∧
    { s with port := [.idle, .poll 0] }.port = .idle :: [.poll 0] ∧
    ({ s with port := [.poll 0] }.port = .poll 0 :: [] ∧ { s with port := [.poll 0] }.busy = true) ∧
    fresh.latch = none ∧ fresh.port = [] := ⟨⟨rfl, rfl⟩, rfl, rfl, ⟨rfl, rfl⟩, rfl, rfl⟩

theorem test_witness_AcceptedCommandCompletes :
    let s := { fresh with latch := some 0x2111#32, busy := true }
    s.latch = some 0x2111#32 ∧ s.hostMove = none := ⟨rfl, rfl⟩

theorem test_witness_OnlyPossibleResults :
    (Instr.wrbits 32#6).WellFormed ∧
      exec (.wrbits 32#6) fresh = .next (after (.wrbits 32#6) fresh) :=
  ⟨by simp [Instr.WellFormed, wrbitsMax], rfl⟩

theorem test_witness_RaiseLeavesTheState :
    let s := { fresh with bwFin := true }
    Instr.finish ≠ .encode ∧ Instr.finish ≠ .decode ∧ exec .finish s = .next (after .finish s) ∧
      (after .finish s).result ≠ .ok := by
  refine ⟨by decide, by decide, rfl, by decide +kernel⟩

theorem test_witness_StatusWordFields : fresh.busy = false ∧ encoded.busy = false := ⟨rfl, rfl⟩

/-- Each clause, for a POLL to see no busy read and for one to see two. -/
theorem test_witness_PollEnds :
    ∀ n ∈ [0, 2],
      let s := { fresh with latch := some 0#32, busy := true, port := [.poll n] }
      let t := { fresh with port := [.poll n] }
      (s.port = .poll n :: [] ∧ s.busy = true ∧ s.latch = some 0#32) ∧
        (t.port = .poll n :: [] ∧ t.busy = false) := by decide +kernel

theorem test_witness_NopOnlyCompletes :
    ∀ w ∈ [0x00000100#32, 0xFFFFFF00#32], w.toNat % 256 = 0 ∧ w.toNat / 256 ≠ 0 := by
  simp

/-- The widest write of the second byte: PACK is full after it. -/
theorem test_witness_WrbitsAppendsArg :
    coded.Inv ∧ coded.PackWritten ∧ (8#6).toNat ≤ 32 ∧ coded.bwFin = false ∧
      coded.packLen.toNat + (8 - coded.bwFree.toNat + (8#6).toNat) / 8 = coded.packCap :=
  ⟨coded_inv, by unfold State.PackWritten; decide +kernel, by decide, rfl, rfl⟩

theorem test_witness_PutsymAppendsTheCode :
    coded.Inv ∧ coded.PackWritten ∧ coded.bwFin = false ∧ coded.validAt 0x61#8 = true ∧
      coded.packLen.toNat + (8 - coded.bwFree.toNat + (coded.codeLenAt 0x61#8).toNat) / 8 = coded.packCap :=
  ⟨coded_inv, by unfold State.PackWritten; decide +kernel, rfl, by decide +kernel, by decide +kernel⟩

/-- Both clauses: the last byte of PACK free and one bit short of full, and nothing partial. -/
theorem test_witness_FinishPadsThePartialByte :
    let s := { coded with bwCur := 0xFE#8, bwFree := 1#4 }
    (s.Inv ∧ s.bwFin = false ∧ s.bwFree.toNat < 8 ∧ s.packLen.toNat + 1 = s.packCap) ∧
    (coded.Inv ∧ coded.bwFin = false ∧ coded.bwFree.toNat = 8) := by
  refine ⟨⟨?_, rfl, by decide, rfl⟩, coded_inv, rfl, rfl⟩
  constructor <;> decide +kernel

/-- Each clause: a finished packer; one bit too many; no code; a code that is one bit too long; no room for
the padded byte. -/
theorem test_witness_WhenPackerCommandsRaise :
    let s := { coded with packLen := 2#32, bwCur := 0xFE#8, bwFree := 1#4 }
    { s with bwFin := true }.bwFin = true ∧ s.bwFin = false ∧
    s.packCap + 1 = s.packLen.toNat + newBytes s (1#6).toNat ∧
    s.validAt 0x62#8 = false ∧
    (s.validAt 0x61#8 = true ∧ s.packCap + 1 = s.packLen.toNat + newBytes s (s.codeLenAt 0x61#8).toNat) ∧
    (s.bwFree.toNat < 8 ∧ s.packCap + 1 = s.packLen.toNat + 1) := by decide +kernel

theorem test_witness_SplitWriteIsOneWrite : 32 + 0 ≤ 32 ∧ 0 + 32 ≤ 32 ∧ 15 + 17 ≤ 32 := by decide

/-- One command of each kind. -/
theorem test_witness_PackerCommandsFrame :
    coded.Inv ∧ (∃ w, Instr.wrbits 8#6 = .wrbits w) ∧ (∃ c, Instr.putsym 0x61#8 = .putsym c) ∧
    exec (.wrbits 8#6) coded = .next (after (.wrbits 8#6) coded) ∧
    exec (.putsym 0x61#8) coded = .next (after (.putsym 0x61#8) coded) ∧
    exec .finish coded = .next (after .finish coded) :=
  ⟨coded_inv, ⟨_, rfl⟩, ⟨_, rfl⟩, rfl, rfl, rfl⟩

/-- PACK_LEN one past the capacity; just past the last significant bit; the last significant bit; a byte
before the last. -/
theorem test_witness_RdbitReadsTheNextBit :
    let s := { encoded with brBit := 3#3 }
    let t := { encoded with packLen := 2#32, brBit := 0#3 }
    { s with packLen := 3#32 }.packLen.toNat = s.packCap + 1 ∧
    (s.packLen.toNat ≤ s.packCap ∧ ¬(s.brPos.toNat + 1 < s.packLen.toNat ∨
      (s.brPos.toNat + 1 = s.packLen.toNat ∧ s.trail.toNat ≤ s.brBit.toNat))) ∧
    (s.packLen.toNat ≤ s.packCap ∧ s.brPos.toNat + 1 = s.packLen.toNat ∧
      s.trail.toNat ≤ { s with brBit := 4#3 }.brBit.toNat) ∧
    (t.packLen.toNat ≤ t.packCap ∧ t.brPos.toNat + 1 < t.packLen.toNat) := by decide +kernel

/-- No bits, and as many as PACK holds. -/
theorem test_witness_ReaderInvertsWriter :
    fresh.Inv ∧ fresh.packLen = 0#32 ∧ fresh.bwFree = 8#4 ∧ fresh.bwFin = false ∧
      (([] : List Bool).length + 7) / 8 ≤ fresh.packCap ∧
      ((List.replicate 16 true).length + 7) / 8 = fresh.packCap :=
  ⟨fresh_inv, rfl, rfl, rfl, by decide, rfl⟩

theorem test_witness_FaddCountsOneSymbol :
    { fresh with freq := [(0xFF, 0xFFFFFFFF#32)] }.freqAt 0 (0xFF#8).toNat = 0xFFFFFFFF#32 ∧
    (let s := { fresh with freq := [(0xFF, 0xFFFFFFFE#32)] };
      s.freqAt 0 (0xFF#8).toNat ≠ 0xFFFFFFFF#32 ∧ s.freq.look (0xFF#8).toNat = some 0xFFFFFFFE#32) := by
  decide +kernel

/-- IN_LEN at SYM_CAP and one past it. -/
theorem test_witness_FcountCountsTheInput :
    loaded.Inv ∧ loaded.inLen.toNat = loaded.symCap ∧ loaded.symCap < { loaded with inLen := 5#32 }.inLen.toNat ∧
      { loaded with inLen := 5#32 }.Inv := by
  refine ⟨loaded_inv, rfl, by decide, ?_⟩
  constructor <;> decide +kernel

/-- An entry that ties on the weight with one before and one behind it. -/
theorem test_witness_QueueKeepsTheRemovalOrder :
    let q : List QEntry := [⟨1, 0x62, 1⟩, ⟨2, 0x61, 0⟩, ⟨2, 256, 3⟩]
    let e : QEntry := ⟨2, 0x63, 2⟩
    q.Pairwise (fun a b => a.weight < b.weight ∨ (a.weight = b.weight ∧ a.key < b.key)) ∧
      (∀ x ∈ q, x.key ≠ e.key) ∧ enqueue e q = [⟨1, 0x62, 1⟩, ⟨2, 0x61, 0⟩, ⟨2, 0x63, 2⟩, ⟨2, 256, 3⟩] := by
  decide

/-- FREQ with two leaves of total 2^32 − 1. -/
def twoLeaves : State := { fresh with freq := (zeroFreq.put 0 0xFFFFFFFE#32).put 255 1#32 }

/-- Total 2^32; no leaf; a single leaf of the largest weight and the largest symbol. -/
theorem test_witness_BuildOfFewLeaves :
    totalWeight { fresh with freq := (zeroFreq.put 0 0xFFFFFFFF#32).put 255 1#32 } = 2 ^ 32 ∧
    (let s := { fresh with freq := zeroFreq }; totalWeight s < 2 ^ 32 ∧ leafSymbols s = []) ∧
    (let s := { fresh with freq := zeroFreq.put 255 0xFFFFFFFF#32 };
      totalWeight s < 2 ^ 32 ∧ leafSymbols s = [(255#8).toNat]) := by decide +kernel

theorem test_witness_BuildAllocatesTheNodes :
    totalWeight twoLeaves + 1 = 2 ^ 32 ∧ leafSymbols twoLeaves = [0, 255] ∧
      (leafSymbols twoLeaves)[1]? = some 255 := by decide +kernel

theorem twoLeaves_freqWritten : twoLeaves.FreqWritten := by unfold State.FreqWritten; decide +kernel

/-- Two leaves make one merge. -/
theorem test_witness_BuildKeepsTheWeightInvariant :
    twoLeaves.FreqWritten ∧ leafSymbols twoLeaves ≠ [] ∧ 0 + 1 < (leafSymbols twoLeaves).length ∧ exec .build twoLeaves = .next (after .build twoLeaves) ∧
      (after .build twoLeaves).result = .ok := by
  exact ⟨twoLeaves_freqWritten, by decide +kernel, by decide +kernel, rfl, by decide +kernel⟩

theorem test_witness_BuiltTreePassesTheCheck :
    exec .build twoLeaves = .next (after .build twoLeaves) ∧ (after .build twoLeaves).result = .ok ∧
      exec .tcheck (after .build twoLeaves) = .next (after .tcheck (after .build twoLeaves)) := by
  refine ⟨rfl, by decide +kernel, rfl⟩

theorem test_witness_BuildDependsOnFreqAlone :
    let s' := { twoLeaves with arg := 7#32, root := 5#9, pack := [(0, 1#8)] }
    twoLeaves.FreqWritten ∧ (∀ c, c < 256 → twoLeaves.freq.look c = s'.freq.look c) ∧
      exec .build twoLeaves = .next (after .build twoLeaves) ∧ exec .build s' = .next (after .build s') ∧
      (after .build twoLeaves).result = .ok := by
  refine ⟨twoLeaves_freqWritten, fun _ _ => rfl, rfl, rfl, by decide +kernel⟩

/-- ROOT NIL; NODE_CNT 512 and ROOT = NODE_CNT; the roots of three-node trees for each clause. -/
theorem test_witness_TreeCheckFindsDefects :
    fresh.root = 0x1FF#9 ∧
    (single.root ≠ 0x1FF#9 ∧ 511 < { single with nodeCnt := 512#10 }.nodeCnt.toNat ∧
      { single with nodeCnt := 0#10 }.nodeCnt.toNat ≤ single.root.toNat) ∧
    (single.nodeCnt.toNat ≤ 511 ∧ single.root.toNat < single.nodeCnt.toNat ∧
      (single.linkAt 0 single.root.toNat).internal = false) ∧
    (let s := tree3 0x80000003#32 0x62#8;
      s.linkAt 0 s.root.toNat = ⟨true, 0#8, 3#9, 0#9⟩ ∧ s.nodeCnt.toNat ≤ (3#9).toNat) ∧
    (let s := tree3 0x80000002#32 0x62#8; s.linkAt 0 s.root.toNat = ⟨true, 0#8, 2#9, 0#9⟩ ∧ 2#9 = s.root) ∧
    (let s := tree3 0x8003FE01#32 0x62#8;
      s.linkAt 0 s.root.toNat = ⟨true, 0#8, 1#9, 0x1FF#9⟩ ∧ (1#9).toNat < s.nodeCnt.toNat ∧ 1#9 ≠ s.root ∧
        (s.linkAt 0 (1#9).toNat).internal = false ∧ s.nodeCnt.toNat ≤ (0x1FF#9).toNat) ∧
    (let s := tree3 0x80000201#32 0x62#8;
      s.linkAt 0 s.root.toNat = ⟨true, 0#8, 1#9, 1#9⟩ ∧ (1#9).toNat < s.nodeCnt.toNat ∧ 1#9 ≠ s.root) ∧
    (∀ c ∈ [0x61#8, 0x62#8],
      let s := tree3 0x80000001#32 c
      s.linkAt 0 s.root.toNat = ⟨true, 0#8, 1#9, 0#9⟩ ∧ (1#9).toNat < s.nodeCnt.toNat ∧ 1#9 ≠ s.root ∧
        (s.linkAt 0 (1#9).toNat).internal = false ∧ (0#9).toNat < s.nodeCnt.toNat ∧ 0#9 ≠ s.root ∧ 0#9 ≠ 1#9 ∧
        (s.linkAt 0 (0#9).toNat).internal = false) := by decide +kernel

theorem test_witness_TreeCheckBoundIsNeverReached :
    let s := { fresh with nodeCnt := 511#10, root := 510#9 }
    s.nodeCnt.toNat ≤ 511 ∧ s.root.toNat < s.nodeCnt.toNat ∧ 512 ≤ 513 := by decide

theorem test_witness_CodesOfSmallTrees :
    validTree { single with nodeCnt := 0#10 } ≠ 0#8 ∧ fresh.root = 0x1FF#9 ∧
    single.nodeCnt.toNat ≤ 511 ∧ single.root.toNat < single.nodeCnt.toNat ∧
    single.nodeLink.look single.root.toNat = some (NodeLink.leaf 0x61#8) ∧
    (NodeLink.leaf 0x61#8).internal = false ∧ 0x62#8 ≠ (NodeLink.leaf 0x61#8).sym := by decide +kernel

/-- The tree of "ab": 'a' by the bit 0, 'b' by the bit 1. -/
def ab : State :=
  { tree3 0x80000200#32 0x62#8 with pack := [(0, 0x40#8)], packLen := 1#32, trail := 6#3 }

theorem ab_treeWritten : ab.TreeWritten :=
  treeWritten_of_closed [0#9, 1#9, 2#9] (by decide +kernel) (by decide +kernel)

theorem ab_paths : ab.IsPath [false] 0x61#8 ∧ ab.IsPath [true] 0x62#8 :=
  ⟨⟨0#9, by decide +kernel, by decide +kernel, by decide +kernel⟩,
    ⟨1#9, by decide +kernel, by decide +kernel, by decide +kernel⟩⟩

theorem test_witness_CodesAreThePaths :
    validTree ab = 0#8 ∧ ab.root ≠ 0x1FF#9 ∧ ab.TreeWritten ∧
      (ab.linkAt 0 ab.root.toNat).internal = true ∧
      ab.IsPath [false] 0x61#8 ∧ (after .codes ab).validAt 0x62#8 = true ∧
      (after .codes ab).validAt 0x63#8 = false :=
  ⟨by decide +kernel, by decide, ab_treeWritten, by decide +kernel, ab_paths.1, by decide +kernel,
    by decide +kernel⟩

theorem test_witness_CodesArePrefixFree :
    exec .codes ab = .next (after .codes ab) ∧ (after .codes ab).result = .ok ∧
      (after .codes ab).validAt 0x61#8 = true ∧ (after .codes ab).validAt 0x62#8 = true ∧ 0x61#8 ≠ 0x62#8 := by
  refine ⟨rfl, by decide +kernel, by decide +kernel, by decide +kernel, by decide⟩

/-- Ten code bits, which PACK_CAP = 1 does not hold. -/
def tooLong : State :=
  { State.resetOf 5 1 with
    inLen := 5#32, symIn := [(0, 0x61#8), (1, 0x62#8), (2, 0x63#8), (3, 0x64#8), (4, 0x61#8)] }

/-- No input; IN_LEN one past SYM_CAP; a stream that does not fit. -/
theorem test_witness_EncodeOfNothingAndItsRaises :
    fresh.inLen = 0#32 ∧ { loaded with inLen := 5#32 }.inLen.toNat = loaded.symCap + 1 ∧
    (tooLong.inLen.toNat ≤ tooLong.symCap ∧ tooLong.inLen ≠ 0#32 ∧
      tooLong.packCap < (tooLong.codedLength (buildCodes (encodeTree tooLong)) + 7) / 8) ∧
    exec .encode tooLong = .next (after .encode tooLong) ∧ (after .encode tooLong).result = .packOvf := by
  refine ⟨rfl, rfl, by decide +kernel, rfl, by decide +kernel⟩

theorem test_witness_EncodePacksTheCodes :
    loaded.Inv ∧ loaded.InputWritten ∧ loaded.inLen.toNat = loaded.symCap ∧ loaded.inLen ≠ 0#32 ∧
      (loaded.codedLength (buildCodes (encodeTree loaded)) + 7) / 8 ≤ loaded.packCap := by
  exact ⟨loaded_inv, loaded_written, rfl, by decide +kernel⟩

theorem test_witness_EncodeIsTheStepwiseRoute :
    loaded.Inv ∧ loaded.InputWritten ∧ exec .encode loaded = .next encoded ∧ encoded.result = .ok ∧
      loaded.inLen ≠ 0#32 ∧
      (execAll ([.fcount, .build, .codes, .bwinit] ++
        (List.range loaded.inLen.toNat).map (fun i => Instr.putsym (loaded.symInAt 0 i)) ++ [.finish])
        loaded).isSome = true := by
  refine ⟨loaded_inv, loaded_written, ?_, rfl, by decide, by decide +kernel⟩
  rw [exec_after, test_encode_aaab]

/-- The empty input, with an old code in CODE_LEN and CODE_PAT. -/
theorem test_witness_EncodeIsTheStepwiseRoute_empty :
    coded.Inv ∧ coded.InputWritten ∧ exec .encode coded = .next (after .encode coded) ∧
      (after .encode coded).result = .ok ∧ coded.inLen = 0#32 ∧
      (execAll ([.fcount, .build, .codes, .bwinit] ++
        (List.range coded.inLen.toNat).map (fun i => Instr.putsym (coded.symInAt 0 i)) ++ [.finish])
        coded).isSome = true := by
  refine ⟨coded_inv, fun _ h => absurd h (Nat.not_lt_zero _), exec_after .encode coded, ?_, rfl, ?_⟩ <;>
    decide +kernel

/-- The payload of "aaab" in a state where all else has changed. -/
theorem test_witness_RoundTripRestoresTheInput :
    let other := { encoded with
      arg := 1#32, inLen := 0#32, freq := [], codeValid := 0#256, codeLen := [], codePat := [], symIn := []
      pack := [(0, 0xE0#8), (1, 0xFF#8)], latch := some 0x60#32, busy := true, draws := 9 }
    loaded.Inv ∧ loaded.InputWritten ∧ exec .encode loaded = .next encoded ∧ encoded.result = .ok ∧
      encoded.SamePayload other ∧
      other.symCap = encoded.symCap ∧ other.packCap = encoded.packCap ∧
      exec .decode other = .next (after .decode other) := by
  refine ⟨loaded_inv, loaded_written, ?_, rfl, ⟨rfl, rfl, fun _ _ => ⟨rfl, rfl⟩, rfl, by decide +kernel, rfl, rfl⟩, rfl, rfl, rfl⟩
  rw [exec_after, test_encode_aaab]

/-- No bytes, and two bytes with padding. -/
theorem test_witness_DecodeOfTheEmptyTree :
    (fresh.root = 0x1FF#9 ∧ fresh.packLen.toNat ≤ fresh.packCap ∧ fresh.trail = 0#3) ∧
    (let s := { fresh with packLen := 2#32, trail := 7#3 };
      s.root = 0x1FF#9 ∧ s.packLen.toNat = s.packCap ∧ s.packLen ≠ 0#32) := by decide

theorem test_witness_DecodeOfASingleLeaf :
    single.packLen.toNat ≤ single.packCap ∧ single.packLen ≠ 0#32 ∧ single.nodeCnt.toNat ≤ 511 ∧
      single.root.toNat < single.nodeCnt.toNat ∧
      single.nodeLink.look single.root.toNat = some (NodeLink.leaf 0x61#8) ∧
      (NodeLink.leaf 0x61#8).internal = false ∧
      single.significantBits = List.replicate single.symCnt.toNat false ∧
      single.symCnt.toNat = single.symCap := by decide +kernel

theorem test_witness_DecodeFollowsThePaths :
    let coded := [([false], 0x61#8), ([true], 0x62#8)]
    ab.packLen.toNat ≤ ab.packCap ∧ ab.packLen ≠ 0#32 ∧ validTree ab = 0#8 ∧ ab.root ≠ 0x1FF#9 ∧
      ab.TreeWritten ∧ (ab.linkAt 0 ab.root.toNat).internal = true ∧ (∀ x ∈ coded, ab.IsPath x.1 x.2) ∧
      ab.significantBits = coded.flatMap Prod.fst ∧ coded.length ≤ ab.symCap ∧ ab.symCap ≤ 262144 := by
  refine ⟨by decide, by decide, by decide +kernel, by decide, ab_treeWritten, by decide +kernel, ?_,
    by decide +kernel, by decide, by decide⟩
  simp [ab_paths]

/-- Each clause, and a raise in the stream itself. -/
theorem test_witness_WhenDecodeRaises :
    { single with packLen := 3#32 }.packLen.toNat = single.packCap + 1 ∧
    (let s := { single with packLen := 0#32 };
      s.packLen.toNat ≤ s.packCap ∧ s.packLen = 0#32 ∧ s.trail ≠ 0#3) ∧
    (let s := { single with nodeCnt := 0#10 };
      s.packLen.toNat ≤ s.packCap ∧ s.packLen ≠ 0#32 ∧ validTree s ≠ 0#8) ∧
    (let s := { single with symCnt := 5#32 };
      exec .decode s = .next (after .decode s) ∧ (after .decode s).result ≠ .ok) := by
  refine ⟨by decide, by decide, by decide +kernel, rfl, by decide +kernel⟩

/-- An Internal root: "ab", then one bit of the three-leaf tree's second level; one symbol more than SYM_CAP. -/
theorem test_witness_WhenTheStreamIsMalformed :
    let s := { fresh with
      root := 4#9, nodeCnt := 5#10, packLen := 1#32, trail := 5#3, pack := [(0, 0x20#8)]
      nodeLink := [(0, NodeLink.leaf 0x61#8), (1, NodeLink.leaf 0x62#8), (2, NodeLink.leaf 0x63#8),
        (3, NodeLink.inner 1#9 2#9), (4, NodeLink.inner 0#9 3#9)] }
    exec .decode s = .next (after .decode s) ∧ s.packLen.toNat ≤ s.packCap ∧ s.packLen ≠ 0#32 ∧
    validTree s = 0#8 ∧ s.root ≠ 0x1FF#9 ∧ s.TreeWritten ∧ (s.linkAt 0 s.root.toNat).internal = true ∧
    s.IsPath [false] 0x61#8 ∧ s.significantBits = [false] ++ [false] ++ [true] ∧
    s.descend s.root [true] = some 3#9 ∧ (s.linkAt 0 (3#9).toNat).internal = true ∧
    { s with symCap := 1 }.symCap < [[false], [false]].length :=
  ⟨rfl, by decide, by decide, by decide +kernel, by decide,
    treeWritten_of_closed [0#9, 1#9, 2#9, 3#9, 4#9] (by decide +kernel) (by decide +kernel),
    by decide +kernel, ⟨0#9, by decide +kernel, by decide +kernel, by decide +kernel⟩, by decide +kernel, by decide +kernel,
    by decide +kernel, by decide⟩

/-- A Leaf root: four zeros, which is SYM_CAP, then a 1; a count that is not SYM_CNT; five zeros. -/
theorem test_witness_WhenTheStreamIsMalformed_leaf :
    (let s := { single with pack := [(0, 0x08#8)], trail := 3#3 };
      validTree s = 0#8 ∧ s.root ≠ 0x1FF#9 ∧ (s.linkAt 0 s.root.toNat).internal = false ∧
      s.significantBits = List.replicate 4 false ++ [true] ∧ 4 ≤ s.symCap) ∧
    (let s := { single with symCnt := 5#32 };
      s.significantBits = List.replicate 4 false ++ [] ∧ 4 ≤ s.symCap ∧ 4 ≠ s.symCnt.toNat) ∧
    (let s := { single with trail := 3#3 };
      s.significantBits = List.replicate 5 false ++ [] ∧ s.symCap < 5) := by decide +kernel

/-- The trees of those three states are written. -/
theorem test_witness_WhenTheStreamIsMalformed_leaf_written :
    { single with pack := [(0, 0x08#8)], trail := 3#3 }.TreeWritten ∧
    { single with symCnt := 5#32 }.TreeWritten ∧ { single with trail := 3#3 }.TreeWritten :=
  ⟨treeWritten_of_closed [0#9] (by decide +kernel) (by decide +kernel),
    treeWritten_of_closed [0#9] (by decide +kernel) (by decide +kernel),
    treeWritten_of_closed [0#9] (by decide +kernel) (by decide +kernel)⟩

theorem test_witness_DecodeWritesOnlyItsOutput :
    ab.symCap ≤ 262144 ∧ exec .decode ab = .next (after .decode ab) ∧ (after .decode ab).result = .ok ∧
      (after .decode ab).outLen.toNat ≤ 2 := by
  refine ⟨by decide, rfl, by decide +kernel, by decide +kernel⟩

/-- All padding bits of E0 flipped. -/
theorem test_witness_PaddingBitsAreNeverData :
    encoded.packLen ≠ 0#32 ∧
      (∀ b, encoded.trail.toNat ≤ b →
        (0xEF#8).getLsbD b = (encoded.packAt (encoded.packLen.toNat - 1)).getLsbD b) ∧
      exec .decode encoded = .next (after .decode encoded) := by
  refine ⟨by decide, fun b h => ?_, rfl⟩
  have h4 : 4 ≤ b := h
  show (0xEF#8).getLsbD b = (0xE0#8).getLsbD b
  rcases Nat.lt_or_ge b 8 with h8 | h8
  · interval_cases b <;> decide
  · simp [BitVec.getLsbD_of_ge _ _ h8]

theorem test_witness_OnlyNamedCommandsWrite :
    exec .tcheck ab = .next (after .tcheck ab) ∧
      Instr.tcheck ≠ .clear ∧ Instr.tcheck ≠ .rdbit ∧ Instr.tcheck ≠ .fclr ∧ (∀ c, Instr.tcheck ≠ .fadd c) ∧
      Instr.tcheck ≠ .fcount ∧ Instr.tcheck ≠ .encode ∧ Instr.tcheck ≠ .build ∧ Instr.tcheck ≠ .codes ∧
      (∀ w, Instr.tcheck ≠ .wrbits w) ∧ (∀ c, Instr.tcheck ≠ .putsym c) ∧ Instr.tcheck ≠ .finish ∧
      Instr.tcheck ≠ .bwinit ∧ Instr.tcheck ≠ .decode ∧ Instr.tcheck ≠ .brinit := by
  refine ⟨rfl, ?_⟩
  simp

theorem test_witness_ResetSatisfiesTheInvariant : 1 ≤ 1 ∧ 1 ≤ 262144 ∧ 262144 ≤ 262144 := by decide

/-- An engine step and a host step. -/
theorem test_witness_StepKeepsTheInvariant :
    let s := { fresh with latch := some 0x60#32, busy := true }
    (s.Inv ∧ step s = .next (after .decode s)) ∧
    ({ fresh with port := [.write 0x200004#22 0x1FF#32] }.Inv ∧
      step { fresh with port := [.write 0x200004#22 0x1FF#32] } = .next { fresh with pack := [(1, 0xFF#8)] }) := by
  refine ⟨⟨?_, rfl⟩, ?_, ?_⟩
  · constructor <;> decide +kernel
  · constructor <;> decide +kernel
  · exact congrArg Host.Outcome.next (by decide +kernel)

/-- The last word of each window. -/
theorem test_witness_AddressMapReachesEveryWord :
    ∀ l ∈ [Loc.reg .packCap, .freq 255, .nodeLink 510, .nodeWeight 510, .codeLen 255, .codePat 255 7,
      .symIn 262143, .pack 262143, .symOut 262143],
      l.exists 262144 262144 = true ∧ (l.addr.map fun a => locate 262144 262144 a) = some l := by
  decide +kernel

theorem test_witness_LowAddressBitsAreIgnored :
    (0x200004#22).extractLsb' 2 20 = (0x200007#22).extractLsb' 2 20 := by decide

theorem test_witness_HostReadHasNoSideEffect :
    { fresh with port := [.read 0x010#22, .idle] }.port = .read 0x010#22 :: [.idle] := rfl

/-- A write; a CHECK of ID that holds and one that does not. -/
theorem test_witness_HostAccessIsOneStep :
    { fresh with port := [.write 0x00C#22 7#32, .idle] }.port = .write 0x00C#22 7#32 :: [.idle] ∧
    (let s := { fresh with port := [.check 0x000#22 0xFF#32 0x46#32] };
      s.port = .check 0x000#22 0xFF#32 0x46#32 :: [] ∧ s.hostValue 0x000#22 &&& 0xFF#32 = 0x46#32) ∧
    (let s := { fresh with port := [.check 0x000#22 0xFF#32 0x47#32] };
      s.port = .check 0x000#22 0xFF#32 0x47#32 :: [] ∧ s.hostValue 0x000#22 &&& 0xFF#32 ≠ 0x47#32) := by
  decide +kernel

/-- An address for each clause. -/
theorem test_witness_HostReadsBackWhatItWrote :
    fresh.Inv ∧ fresh.busy = false ∧
    [0x00C#22, 0x014#22, 0x020#22, 0x028#22, 0x018#22, 0x01C#22, 0x024#22, 0x7FC#22, 0x1FF0#22, 0x1FF4#22,
      0x10000C#22, 0x200004#22].map fresh.locate =
      [.reg .arg, .reg .inLen, .reg .packLen, .reg .symCnt, .reg .root, .reg .nodeCnt, .reg .trail,
        .freq 255, .nodeLink 510, .nodeWeight 510, .symIn 3, .pack 1] :=
  ⟨fresh_inv, rfl, by decide +kernel⟩

/-- The first and the last address of each range, with SYM_CAP = 4 and PACK_CAP = 2. -/
theorem test_witness_UnmappedWordsReadZero :
    fresh.busy = false ∧
    ∀ a ∈ [0x048#22, 0x3FF#22, 0x800#22, 0xFFF#22, 0x1FF8#22, 0x1FFF#22, 0x2400#22, 0x3FFF#22, 0x6000#22,
      0xFFFFF#22, 0x100010#22, 0x1FFFFF#22, 0x200008#22, 0x2FFFFF#22, 0x300010#22, 0x3FFFFF#22],
      (0x048 ≤ a.toNat ∧ a.toNat < 0x400) ∨ (0x800 ≤ a.toNat ∧ a.toNat < 0x1000) ∨
      (0x1FF8 ≤ a.toNat ∧ a.toNat < 0x2000) ∨ (0x2400 ≤ a.toNat ∧ a.toNat < 0x4000) ∨
      (0x6000 ≤ a.toNat ∧ a.toNat < 0x100000) ∨
      (0x100000 + 4 * fresh.symCap ≤ a.toNat ∧ a.toNat < 0x200000) ∨
      (0x200000 + 4 * fresh.packCap ≤ a.toNat ∧ a.toNat < 0x300000) ∨
      0x300000 + 4 * fresh.symCap ≤ a.toNat := by
  simp [fresh, State.resetOf]

theorem test_witness_ReadOnlyWordsIgnoreWrites :
    [0x000#22, 0x004#22, 0x010#22, 0x02C#22, 0x030#22, 0x034#22, 0x038#22, 0x03C#22, 0x040#22, 0x044#22,
      0x23FC#22, 0x5FFC#22, 0x30000C#22].map fresh.locate =
      [.reg .id, .reg .version, .reg .status, .reg .outLen, .reg .totalBits, .reg .bwState, .reg .brPos,
        .reg .brState, .reg .symCap, .reg .packCap, .codeLen 255, .codePat 255 7, .symOut 3] ∧
    fresh.busy = false := by decide +kernel

theorem test_witness_AccessesWhileBusy :
    { fresh with latch := some 0#32, busy := true }.busy = true := rfl

theorem test_witness_CommandAcceptance :
    let s := { fresh with port := [.write 0x008#22 0x60#32, .idle] }
    s.port = .write 0x008#22 0x60#32 :: [.idle] ∧ s.busy = false ∧
      { s with latch := some 0#32, busy := true }.busy = true := ⟨rfl, rfl, rfl⟩

/-- Reset asserted while a command is latched. -/
theorem test_witness_HardwareResetFromAnyState :
    { encoded with latch := some 0x60#32, busy := true, port := [.reset] }.port = .reset :: [] := rfl

end Sys2Proof.Tests
end

section
/-! The reset state of every legal instance meets the invariant (rules R4, R157). -/

namespace Sys2Proof.Machine

/-- Rule R157 resets FREE to 8. -/
@[simp] theorem State.resetOf_bwFree (a b : Nat) : (State.resetOf a b).bwFree = 8#4 := rfl

/-- Rule R157 resets CUR to 0. -/
@[simp] theorem State.resetOf_bwCur (a b : Nat) : (State.resetOf a b).bwCur = 0#8 := rfl

/-- Rule R157 resets CODE_VALID to 0. -/
@[simp] theorem State.resetOf_validAt (a b : Nat) (c : Byte) : (State.resetOf a b).validAt c = false :=
  BitVec.getLsbD_zero

/-- Every memory starts empty, hence canonical at any size; only the parameters have to be legal. -/
theorem State.resetOf_inv {a b : Nat} (ha : 1 ≤ a ∧ a ≤ Config.capMax) (hb : 1 ≤ b ∧ b ≤ Config.capMax) :
    (State.resetOf a b).Inv where
  symCap_range := ha
  packCap_range := hb
  busy_iff_latched := rfl
  free_range := by simp
  free_slots_zero := by simp
  freq_wf := Memory.nil_wf _
  nodeLink_wf := Memory.nil_wf _
  nodeWeight_wf := Memory.nil_wf _
  codeLen_wf := Memory.nil_wf _
  codePat_wf := Memory.nil_wf _
  symIn_wf := Memory.nil_wf _
  pack_wf := Memory.nil_wf _
  symOut_wf := Memory.nil_wf _
  valid_written := by simp

/-- SYM_CAP of the instance lies in the range of rule R4. -/
theorem symCap_in_range : 1 ≤ Config.symCap ∧ Config.symCap ≤ Config.capMax :=
  ⟨Nat.succ_pos _, Config.symCapLessOne.isLt⟩

/-- PACK_CAP of the instance lies in the range of rule R4. -/
theorem packCap_in_range : 1 ≤ Config.packCap ∧ Config.packCap ≤ Config.capMax :=
  ⟨Nat.succ_pos _, Config.packCapLessOne.isLt⟩

/-- Settles O48: the invariant holds for any legal capacities, those of the instance among them. -/
theorem resetSatisfiesTheInvariant : Obligations.ResetSatisfiesTheInvariant :=
  ⟨State.resetOf_inv symCap_in_range packCap_in_range,
    fun _ _ ha ha' hb hb' => State.resetOf_inv ⟨ha, ha'⟩ ⟨hb, hb'⟩⟩

end Sys2Proof.Machine
end

section
/-! Every named update, every command and every host access keeps the invariant of `State.Inv`. -/

namespace Sys2Proof.Machine

variable {s : State}

/-! ### Memories -/

theorem State.writeLink_nodeLink (s : State) (i : Nat) (e : NodeLink) :
    (s.writeLink i e).nodeLink = if i < Config.nodeMax then s.nodeLink.put i e else s.nodeLink := by
  unfold State.writeLink; split <;> rfl

theorem State.writeWeight_nodeWeight (s : State) (i : Nat) (v : Word) :
    (s.writeWeight i v).nodeWeight = if i < Config.nodeMax then s.nodeWeight.put i v else s.nodeWeight := by
  unfold State.writeWeight; split <;> rfl

theorem State.writeSymIn_symIn (s : State) (i : Nat) (v : Byte) :
    (s.writeSymIn i v).symIn = if i < s.symCap then s.symIn.put i v else s.symIn := by
  unfold State.writeSymIn; split <;> rfl

theorem State.writePack_pack (s : State) (i : Nat) (v : Byte) :
    (s.writePack i v).pack = if i < s.packCap then s.pack.put i v else s.pack := by
  unfold State.writePack; split <;> rfl

theorem State.writeSymOut_symOut (s : State) (i : Nat) (v : Byte) :
    (s.writeSymOut i v).symOut = if i < s.symCap then s.symOut.put i v else s.symOut := by
  unfold State.writeSymOut; split <;> rfl

theorem State.Inv.writeFreq (h : s.Inv) (c : Byte) (v : Word) : (s.writeFreq c v).Inv :=
  { h with freq_wf := Memory.put_wf v c.isLt h.freq_wf }

theorem State.Inv.clearFreq (h : s.Inv) : s.clearFreq.Inv :=
  { h with freq_wf := Memory.tabulate_wf _ _ }

theorem State.Inv.writeLink (h : s.Inv) (i : Nat) (e : NodeLink) : (s.writeLink i e).Inv := by
  unfold State.writeLink
  split
  · next hi => exact { h with nodeLink_wf := Memory.put_wf e hi h.nodeLink_wf }
  · exact h

theorem State.Inv.writeWeight (h : s.Inv) (i : Nat) (v : Word) : (s.writeWeight i v).Inv := by
  unfold State.writeWeight
  split
  · next hi => exact { h with nodeWeight_wf := Memory.put_wf v hi h.nodeWeight_wf }
  · exact h

theorem State.Inv.writeNode (h : s.Inv) (i : Nat) (e : NodeLink) (v : Word) : (s.writeNode i e v).Inv :=
  (h.writeLink i e).writeWeight i v

theorem State.Inv.writeSymIn (h : s.Inv) (i : Nat) (v : Byte) : (s.writeSymIn i v).Inv := by
  unfold State.writeSymIn
  split
  · next hi => exact { h with symIn_wf := Memory.put_wf v hi h.symIn_wf }
  · exact h

theorem State.Inv.writePack (h : s.Inv) (i : Nat) (v : Byte) : (s.writePack i v).Inv := by
  unfold State.writePack
  split
  · next hi => exact { h with pack_wf := Memory.put_wf v hi h.pack_wf }
  · exact h

theorem State.Inv.writeSymOut (h : s.Inv) (i : Nat) (v : Byte) : (s.writeSymOut i v).Inv := by
  unfold State.writeSymOut
  split
  · next hi => exact { h with symOut_wf := Memory.put_wf v hi h.symOut_wf }
  · exact h

/-! ### The code table -/

@[simp] theorem State.invalidateCodes_validAt (s : State) (c : Byte) :
    s.invalidateCodes.validAt c = false := by simp [State.validAt]

@[simp] theorem State.clearCodes_validAt (s : State) (c : Byte) : s.clearCodes.validAt c = false := by
  simp [State.validAt]

theorem State.writeCode_validAt (s : State) (c d : Byte) (p l : Nat) :
    (s.writeCode c p l).validAt d = (s.validAt d || decide (d = c)) := by
  simp only [State.validAt, State.writeCode_codeValid, BitVec.getLsbD_or, BitVec.getLsbD_twoPow,
    BitVec.toNat_inj, eq_comm (a := c)]
  simp [show c.toNat < 256 from c.isLt]

theorem State.Inv.invalidateCodes (h : s.Inv) : s.invalidateCodes.Inv :=
  { h with valid_written := by simp }

theorem State.Inv.clearCodes (h : s.Inv) : s.clearCodes.Inv :=
  { h with
    codeLen_wf := Memory.tabulate_wf _ _
    codePat_wf := Memory.tabulate_wf _ _
    valid_written := by simp }

theorem State.Inv.writeCode (h : s.Inv) (c : Byte) (p l : Nat) : (s.writeCode c p l).Inv :=
  { h with
    codeLen_wf := Memory.put_wf _ c.isLt h.codeLen_wf
    codePat_wf := Memory.put_wf _ c.isLt h.codePat_wf
    valid_written := fun d hd => by
      by_cases hdc : d = c
      · simp [hdc]
      · have hne : d.toNat ≠ c.toNat := fun e => hdc (BitVec.eq_of_toNat_eq e)
        simp only [State.writeCode_validAt, hdc, decide_false, Bool.or_false] at hd
        simpa [Memory.look_put_ne _ _ hne] using h.valid_written d hd }

theorem State.Inv.walk (h : s.Inv) (tree : State) (fuel : Nat) (n : NodeIx) (p l : Nat) :
    (walk tree fuel n p l s).Inv := by
  induction fuel generalizing n p l s with
  | zero => exact h
  | succ fuel ih =>
    simp only [Machine.walk]
    split
    · exact ih (ih h _ _ _) _ _ _
    · exact h.writeCode _ _ _

theorem State.Inv.buildCodes (h : s.Inv) : (buildCodes s).Inv := by
  unfold Machine.buildCodes
  dsimp only
  split
  · exact h.clearCodes
  · split
    · exact h.clearCodes.walk _ _ _ _ _
    · exact h.clearCodes.writeCode _ _ _

/-! ### The packer -/

theorem setBit_getLsbD (v : Byte) (i j : Nat) (b : Bool) :
    (setBit v i b).getLsbD j = if j = i ∧ i < 8 then b else v.getLsbD j := by
  unfold setBit
  by_cases hj : j < 8
  · cases b <;> by_cases hij : i = j <;> simp [hj, hij, eq_comm]
  · have hne : ¬(j = i ∧ i < 8) := by omega
    simp [hne, BitVec.getLsbD_of_ge _ _ (Nat.le_of_not_lt hj)]

/-- What AppendBit leaves in FREE: one slot fewer, or eight once the byte is flushed (rule R92). -/
theorem State.Inv.fillSlot_free (h : s.Inv) (b : Bool) :
    (fillSlot s b).bwFree.toNat = s.bwFree.toNat - 1 := by
  have := h.free_range
  simp only [fillSlot_bwFree]
  generalize s.bwFree = f at *
  bv_omega

/-- A packer operation keeps the invariant if it keeps FREE, the free slots and the form of PACK. -/
theorem State.Inv.of_onlyPacker {t : State} (h : s.Inv) (only : OnlyPacker s t)
    (free : 1 ≤ t.bwFree.toNat ∧ t.bwFree.toNat ≤ 8)
    (slots : ∀ i, i < t.bwFree.toNat → t.bwCur.getLsbD i = false)
    (pack : t.pack.wf s.packCap) : t.Inv := by
  obtain ⟨_, _, _, _, _, _, _, rfl⟩ := only
  exact { h with free_range := free, free_slots_zero := slots, pack_wf := pack }

theorem State.Inv.flush_pack (h : s.Inv) (b : Bool) :
    (flushByte (fillSlot s b)).pack.wf s.packCap := by
  have hp := (h.writePack s.packLen.toNat (fillSlot s b).bwCur).pack_wf
  rw [State.writePack_packCap, State.writePack_pack] at hp
  rw [flushByte_pack, State.writePack_pack]
  exact hp

theorem State.Inv.appendBit (h : s.Inv) (b : Bool) : (appendBit s b).Inv := by
  have hfree := h.free_range
  refine h.of_onlyPacker (appendBit_only s b) ?_ ?_ ?_ <;>
    rw [appendBit_eq s b hfree.1 hfree.2] <;> split
  · simp
  · rw [h.fillSlot_free]; omega
  · simp
  · next hne =>
    intro i hi
    rw [h.fillSlot_free] at hi
    rw [fillSlot_bwCur, setBit_getLsbD, if_neg (by omega)]
    exact h.free_slots_zero i (by omega)
  · exact h.flush_pack b
  · exact h.pack_wf

theorem State.Inv.pushBits (h : s.Inv) (bits : List Bool) : (pushBits s bits).Inv := by
  induction bits generalizing s with
  | nil => exact h
  | cons b bits ih => exact ih (h.appendBit b)

theorem State.Inv.packerInit (h : s.Inv) : (packerInit s).Inv :=
  { h with free_range := by simp [Machine.packerInit], free_slots_zero := by simp [Machine.packerInit] }

theorem State.Inv.finishStream (h : s.Inv) : (finishStream s).Inv := by
  refine h.of_onlyPacker (finishStream_only s) ?_ ?_ ?_ <;> unfold Machine.finishStream <;> split
  · simp
  · simp
  · simp
  · simp
  · simpa using (h.writePack s.packLen.toNat s.bwCur).pack_wf
  · exact h.pack_wf

theorem State.Inv.finishBody (h : s.Inv) : (finishBody s).left.Inv := by
  unfold Machine.finishBody
  split
  · exact h
  · split
    · exact h
    · exact h.finishStream

theorem State.Inv.appendBits (h : s.Inv) (bits : List Bool) : (appendBits s bits).left.Inv := by
  rcases appendBits_cases s bits with ⟨-, e⟩ | ⟨-, e⟩ <;> rw [e]
  · exact h.pushBits bits
  · exact h

theorem wrbitsBody_left (width : Nat) (s : State) :
    (wrbitsBody width s).left = s ∨ (wrbitsBody width s).left = (appendBits s (argBits s width)).left := by
  unfold wrbitsBody
  split
  · exact .inl rfl
  · split
    · exact .inl rfl
    · dsimp only
      split <;> exact .inr rfl

theorem putsymBody_left (c : Byte) (s : State) :
    (putsymBody c s).left = s ∨ (putsymBody c s).left = (appendBits s (codeBits s c)).left := by
  unfold putsymBody
  split
  · exact .inl rfl
  · split
    · exact .inl rfl
    · exact .inr rfl

/-! ### The frequency table and the tree builder -/

theorem State.Inv.countInput (h : s.Inv) : (countInput s).Inv := by
  have key : ∀ (cs : List Byte) (t : State), t.Inv → (cs.foldl countSymbol t).Inv := by
    intro cs
    induction cs with
    | nil => exact fun t ht => ht
    | cons c cs ih => exact fun t ht => ih _ (ht.writeFreq c _)
  exact key _ _ h.clearFreq

theorem State.Inv.placeLeaves (h : s.Inv) (f : Nat → Word) (leaves : List (Nat × Nat)) :
    (leaves.foldl (placeLeaf f) s).Inv := by
  induction leaves generalizing s with
  | nil => exact h
  | cons x xs ih => exact ih (h.writeNode _ _ _)

theorem State.Inv.mergeLoop (h : s.Inv) (fuel : Nat) (q : List QEntry) (next m : Nat) :
    (mergeLoop fuel q next m s).Inv := by
  induction fuel generalizing q next m s with
  | zero => exact h
  | succ fuel ih =>
    match q with
    | [] => exact h
    | [_] => exact h
    | _ :: _ :: _ => exact ih (h.writeNode _ _ _) _ _ _

theorem State.Inv.buildTree (h : s.Inv) : (buildTree s).Inv := by
  unfold Machine.buildTree
  dsimp only
  split
  · exact { h.invalidateCodes with }
  · exact { (h.invalidateCodes.placeLeaves (s.freqAt 2) _).mergeLoop _ _ _ _ with }

/-! ### The encoder and the decoder -/

theorem State.Inv.packSymbols (h : s.Inv) (cs : List Byte) : (packSymbols cs s).left.Inv := by
  induction cs generalizing s with
  | nil => exact h.finishBody
  | cons c cs ih =>
    unfold Machine.packSymbols
    split
    · exact ih (h.pushBits _)
    · exact h

theorem State.Inv.encodeBody (h : s.Inv) : (encodeBody s).left.Inv := by
  have ht : (encodeTree s).Inv := h.countInput.buildTree.packerInit
  unfold Machine.encodeBody
  dsimp only
  split
  · exact h
  · split
    · exact { ht with }
    · split
      · exact ht.buildCodes
      · split
        · exact ht.buildCodes.packSymbols _
        · exact ht.buildCodes

theorem State.Inv.advanceReader (h : s.Inv) : (advanceReader s).Inv := by
  unfold Machine.advanceReader
  split <;> exact { h with }

theorem State.Inv.moveCursor (h : s.Inv) (n : NodeIx) : (moveCursor s n).Inv :=
  { h.advanceReader with }

theorem State.Inv.emitSymbol (h : s.Inv) (out : Nat) (c : Byte) : (emitSymbol s out c).Inv :=
  { h.writeSymOut out c with }

theorem State.Inv.readerInit (h : s.Inv) : (readerInit s).Inv := { h with }

theorem State.Inv.decodeFailed (h : s.Inv) : (decodeFailed s).Inv :=
  { h with symOut_wf := Memory.tabulate_wf _ _ }

theorem State.Inv.decodeGeneral (h : s.Inv) {fuel out n : Nat} {cur : NodeIx} {t : State}
    (e : decodeGeneral fuel cur out s = .ok (t, n)) : t.Inv := by
  induction fuel generalizing cur out s with
  | zero => exact (endGeneral_ok e).2.1 ▸ h
  | succ fuel ih =>
    simp only [Machine.decodeGeneral] at e
    split at e
    · split at e
      · exact ih (h.moveCursor _) e
      · split at e
        · cases e
        · exact ih ((h.moveCursor _).emitSymbol _ _) e
    · exact (endGeneral_ok e).2.1 ▸ h

theorem State.Inv.decodeDegenerate (h : s.Inv) {c : Byte} {fuel out n : Nat} {t : State}
    (e : decodeDegenerate c fuel out s = .ok (t, n)) : t.Inv := by
  induction fuel generalizing out s with
  | zero => exact (endDegenerate_ok e).2.1 ▸ h
  | succ fuel ih =>
    simp only [Machine.decodeDegenerate] at e
    split at e
    · split at e
      · cases e
      · split at e
        · cases e
        · exact ih (h.advanceReader.writeSymOut _ _) e
    · exact (endDegenerate_ok e).2.1 ▸ h

theorem State.Inv.decodeStream (h : s.Inv) {n : Nat} {t : State} (e : decodeStream s = .ok (t, n)) :
    t.Inv := by
  unfold Machine.decodeStream at e
  dsimp only at e
  split at e
  · exact h.decodeGeneral e
  · exact h.decodeDegenerate e

theorem State.Inv.decodeBody (h : s.Inv) : (decodeBody s).left.Inv := by
  unfold Machine.decodeBody
  dsimp only
  split
  · exact h.decodeFailed
  · split
    · exact h.decodeFailed
    · split
      · exact h.readerInit
      · split
        · exact h.decodeFailed
        · split
          · exact h.decodeFailed
          · next e => exact { h.readerInit.decodeStream e with }

/-! ### The engine -/

theorem State.Inv.clearBody (h : s.Inv) : (clearBody s).Inv :=
  { h with
    free_range := by simp [Machine.clearBody]
    free_slots_zero := by simp [Machine.clearBody]
    valid_written := by simp [Machine.clearBody, State.validAt] }

/-- What a body leaves when it either raises and keeps the state or completes with `t`. -/
theorem State.Inv.raiseOrDone (h : s.Inv) {p : Prop} [Decidable p] {code : Result} {d : Byte} {t : State}
    (ht : t.Inv) : (if p then Ended.raise s code d else Ended.done t).left.Inv := by
  split
  · exact h
  · exact ht

theorem State.Inv.complete (h : s.Inv) (op : Byte) (code : Result) (d : Byte) (t : Bool) :
    (s.complete op code d t).Inv :=
  { h with busy_iff_latched := rfl }

/-- The pseudocode of every command keeps the invariant, whether it completes or raises. -/
theorem State.Inv.bodyOf (h : s.Inv) (i : Instr) : (bodyOf i s).left.Inv := by
  cases i with
  | nop => exact h
  | clear => exact h.clearBody
  | bwinit => exact h.packerInit
  | wrbits w =>
    rcases wrbitsBody_left w.toNat s with e | e <;> simp only [Machine.bodyOf, e]
    · exact h
    · exact h.appendBits _
  | putsym c =>
    rcases putsymBody_left c s with e | e <;> simp only [Machine.bodyOf, e]
    · exact h
    · exact h.appendBits _
  | finish => exact h.finishBody
  | brinit => exact h.readerInit
  | rdbit =>
    simp only [Machine.bodyOf, rdbitBody]
    split
    · exact h
    · exact h.raiseOrDone { h.advanceReader with }
  | fclr => exact h.clearFreq
  | fadd c =>
    simp only [Machine.bodyOf, faddBody]
    exact h.raiseOrDone (h.writeFreq c _)
  | fcount => exact h.raiseOrDone h.countInput
  | build =>
    simp only [Machine.bodyOf, buildBody]
    exact h.raiseOrDone h.buildTree
  | tcheck => exact h.raiseOrDone h
  | codes => exact h.raiseOrDone h.buildCodes
  | encode => exact h.encodeBody
  | decode => exact h.decodeBody

theorem State.Inv.engineStep {t : State} (h : s.Inv) (e : engineStep s = .next t) : t.Inv := by
  unfold Machine.engineStep at e
  split at e
  · cases e; exact h
  · split at e
    · rw [exec_eq] at e
      cases e
      exact (h.bodyOf _).complete _ _ _ _
    · cases e
      exact h.complete _ _ _ _

/-! ### The host -/

theorem State.Inv.writeReg (h : s.Inv) (r : Reg) (v : Word) : (s.writeReg r v).Inv := by
  cases r with
  | cmd => exact { h with busy_iff_latched := rfl }
  | arg | inLen | root | nodeCnt | packLen | trail | symCnt => exact { h with }
  | id | version | status | outLen | totalBits | bwState | brPos | brState | symCap | packCap => exact h

theorem State.Inv.writeLoc (h : s.Inv) (l : Loc) (v : Word) : (s.writeLoc l v).Inv := by
  cases l with
  | reg r => exact h.writeReg r v
  | freq c => exact h.writeFreq _ _
  | nodeLink i => exact h.writeLink _ _
  | nodeWeight i => exact h.writeWeight _ _
  | symIn i => exact h.writeSymIn _ _
  | pack i => exact h.writePack _ _
  | codeLen | codePat | symOut | unmapped => exact h

theorem State.Inv.hostWrite (h : s.Inv) (a : Addr) (v : Word) : (s.hostWrite a v).Inv := by
  unfold State.hostWrite
  split
  · exact h
  · exact h.writeLoc _ v

theorem State.Inv.hostRead (h : s.Inv) (a : Addr) : (s.hostRead a).Inv := { h with }

theorem State.Inv.withPort (h : s.Inv) (rest : List HostOp) : (s.withPort rest).Inv := { h with }

theorem State.Inv.hardwareReset (h : s.Inv) : s.hardwareReset.Inv :=
  { State.resetOf_inv h.symCap_range h.packCap_range with }

theorem State.Inv.hostMove {t : State} (h : s.Inv) (e : s.hostMove = some t) : t.Inv := by
  unfold State.hostMove at e
  split at e
  · cases e
  · cases e
  · cases e; exact (h.withPort _).hostWrite _ _
  · cases e; exact (h.withPort _).hostRead _
  · cases e; exact (h.withPort _).hostRead _
  · cases e; exact (h.withPort _).hardwareReset
  · split at e
    · split at e
      · cases e
      · cases e; exact (h.withPort _).hostRead _
    · cases e; exact (h.withPort _).hostRead _

theorem State.Inv.yielded (h : s.Inv) : s.yielded.Inv := by
  unfold State.yielded
  split
  · exact h.withPort _
  · exact h

/-- Settles O49: the host's move and the engine's, each by the lemmas on what they are made of. -/
theorem stepKeepsTheInvariant : Obligations.StepKeepsTheInvariant := by
  intro s t h e
  unfold step at e
  split at e
  · next hm => cases e; exact h.hostMove hm
  · exact h.yielded.engineStep e

end Sys2Proof.Machine
end

section
/-! The host port: what a word of the map is, and what reading back a written word gives
(spec/20_memory.md rules R44 to R52). -/

namespace Sys2Proof.Machine

/-! ### The address map -/

theorem wordIndex_lt (a : Addr) : wordIndex a < 0x100000 := by
  have := a.isLt
  unfold wordIndex
  omega

/-- The location lies within the memory it names, or is unmapped. -/
def Loc.InMap (symCap packCap : Nat) (l : Loc) : Prop := l = .unmapped ∨ l.exists symCap packCap = true

/-- Every location of the map lies within the memory it names (rule R44). -/
theorem locate_inMap (symCap packCap : Nat) (a : Addr) :
    (locate symCap packCap a).InMap symCap packCap := by
  have ha := wordIndex_lt a
  have gap : Loc.unmapped.InMap symCap packCap := .inl rfl
  have table : ∀ {c : Nat}, c < 256 → (Loc.freq c).InMap symCap packCap ∧
      (Loc.codeLen c).InMap symCap packCap := fun h => ⟨.inr (decide_eq_true h), .inr (decide_eq_true h)⟩
  have node : ∀ {i : Nat}, i < 511 → (Loc.nodeLink i).InMap symCap packCap ∧
      (Loc.nodeWeight i).InMap symCap packCap :=
    fun h => ⟨.inr (decide_eq_true h), .inr (decide_eq_true h)⟩
  have pattern : ∀ {c w : Nat}, c < 256 → w < 8 → (Loc.codePat c w).InMap symCap packCap :=
    fun hc hw => .inr (Bool.and_eq_true_iff.2 ⟨decide_eq_true hc, decide_eq_true hw⟩)
  unfold locate
  refine iteInduction (fun _ => ?_) fun _ => ?_
  · cases registers[wordIndex a]? with
    | none => exact gap
    | some r => exact .inr rfl
  refine iteInduction (fun _ => (table (by omega)).1) fun _ => ?_
  refine iteInduction (fun _ => gap) fun _ => ?_
  refine iteInduction (fun _ => ?_) fun _ => ?_
  · exact iteInduction (fun _ => (node (by omega)).1) fun _ => (node (by omega)).2
  refine iteInduction (fun _ => gap) fun _ => ?_
  refine iteInduction (fun _ => (table (by omega)).2) fun _ => ?_
  refine iteInduction (fun _ => gap) fun _ => ?_
  refine iteInduction (fun _ => pattern (by omega) (by omega)) fun _ => ?_
  refine iteInduction (fun _ => gap) fun _ => ?_
  refine iteInduction (fun _ => iteInduction (fun h => .inr (decide_eq_true h)) fun _ => gap) fun _ => ?_
  refine iteInduction (fun _ => iteInduction (fun h => .inr (decide_eq_true h)) fun _ => gap) fun _ => ?_
  exact iteInduction (fun h => .inr (decide_eq_true h)) fun _ => gap

theorem State.locate_exists {s : State} {a : Addr} {l : Loc} (h : s.locate a = l) (hl : l ≠ .unmapped) :
    l.exists s.symCap s.packCap = true := by
  subst h
  exact (locate_inMap s.symCap s.packCap a).resolve_left hl

/-! ### Writing a word -/

theorem State.writeReg_symCap (s : State) (r : Reg) (v : Word) : (s.writeReg r v).symCap = s.symCap := by
  cases r <;> rfl

theorem State.writeReg_packCap (s : State) (r : Reg) (v : Word) : (s.writeReg r v).packCap = s.packCap := by
  cases r <;> rfl

theorem State.writeLoc_symCap (s : State) (l : Loc) (v : Word) : (s.writeLoc l v).symCap = s.symCap := by
  cases l <;> simp [State.writeLoc, State.writeReg_symCap]

theorem State.writeLoc_packCap (s : State) (l : Loc) (v : Word) : (s.writeLoc l v).packCap = s.packCap := by
  cases l <;> simp [State.writeLoc, State.writeReg_packCap]

theorem State.writeLoc_busy {s : State} {l : Loc} (h : l ≠ .reg .cmd) (v : Word) :
    (s.writeLoc l v).busy = s.busy := by
  cases l with
  | reg r =>
    cases r with
    | cmd => exact absurd rfl h
    | _ => rfl
  | _ => simp [State.writeLoc]

/-- A host write while BUSY = 0 is the write of the word its address names (rule R52). -/
theorem State.hostWrite_of_idle {s : State} {a : Addr} {l : Loc} (hb : s.busy = false)
    (h : s.locate a = l) (v : Word) : s.hostWrite a v = s.writeLoc l v := by
  simp [State.hostWrite, hb, h]

theorem State.hostValue_of_idle {s : State} {a : Addr} {l : Loc} (hb : s.busy = false)
    (h : s.locate a = l) : s.hostValue a = s.readLoc l := by
  simp [State.hostValue, hb, h]

/-- Reading back a word just written while BUSY = 0: no write moves the map, and only one to CMD sets BUSY. -/
theorem State.hostValue_hostWrite {s : State} {a : Addr} {l : Loc} (hb : s.busy = false)
    (h : s.locate a = l) (hl : l ≠ .reg .cmd) (v : Word) :
    (s.hostWrite a v).hostValue a = (s.writeLoc l v).readLoc l := by
  rw [State.hostWrite_of_idle hb h]
  refine State.hostValue_of_idle ((State.writeLoc_busy hl v).trans hb) ?_
  rw [State.locate, State.writeLoc_symCap, State.writeLoc_packCap]
  exact h

/-! ### Fields of a word -/

/-- A field in the low bits, written and read back. -/
theorem extractLsb'_setWidth (v : Word) (len : Nat) :
    (v.extractLsb' 0 len).setWidth 32 = v &&& BitVec.ofNat 32 (2 ^ len - 1) := by
  apply BitVec.eq_of_getLsbD_eq
  intro i hi
  have hm : (BitVec.ofNat 32 (2 ^ len - 1)).getLsbD i = decide (i < len) := by
    simp only [BitVec.getLsbD_ofNat, hi, decide_true, Bool.true_and, Nat.testBit_two_pow_sub_one]
  rw [BitVec.getLsbD_and, hm]
  simp [hi, BitVec.getLsbD_extractLsb', Bool.and_comm]

/-- Word 0 of a node entry reads back but for its reserved bits [30:26] (rule R47). -/
theorem NodeLink.toWord_ofWord (w : Word) : (NodeLink.ofWord w).toWord = w &&& 0x83FFFFFF#32 := by
  apply BitVec.eq_of_getLsbD_eq
  intro i hi
  simp only [NodeLink.ofWord, NodeLink.toWord, BitVec.getLsbD_append, BitVec.getLsbD_extractLsb',
    BitVec.getLsbD_and, BitVec.getLsbD_ofBool, BitVec.getLsbD_zero]
  interval_cases i <;> simp

/-! ### Reading back an entry -/

theorem State.freqAt_writeFreq (s : State) {c : Nat} (hc : c < 256) (v : Word) (read : Nat) :
    (s.writeFreq (BitVec.ofNat 8 c) v).freqAt read c = v := by
  apply freqAt_of_look
  simp [Nat.mod_eq_of_lt hc]

theorem State.linkAt_writeLink (s : State) {i : Nat} (hi : i < Config.nodeMax) (e : NodeLink) (read : Nat) :
    (s.writeLink i e).linkAt read i = e := by
  apply linkAt_of_look
  rw [State.writeLink_nodeLink, if_pos hi, Memory.look_put_same]

theorem State.weightAt_writeWeight (s : State) {i : Nat} (hi : i < Config.nodeMax) (v : Word) :
    (s.writeWeight i v).weightAt i = v := by
  rw [State.weightAt, State.writeWeight_nodeWeight, if_pos hi, Memory.look_put_same, Option.getD_some]

theorem State.symInAt_writeSymIn (s : State) {i : Nat} (hi : i < s.symCap) (v : Byte) (read : Nat) :
    (s.writeSymIn i v).symInAt read i = v := by
  apply symInAt_of_look
  rw [State.writeSymIn_symIn, if_pos hi, Memory.look_put_same]

theorem State.packAt_writePack (s : State) {i : Nat} (hi : i < s.packCap) (v : Byte) :
    (s.writePack i v).packAt i = v := by
  rw [State.packAt, State.writePack_pack, if_pos hi, Memory.look_put_same, Option.getD_some]

/-- A write whose index the memory may lack changes no other entry. -/
theorem Memory.look_ite_put_ne {α : Type} {m : Memory α} {p : Prop} [Decidable p] {i j : Nat} (v : α)
    (h : j ≠ i) : Memory.look (if p then m.put i v else m) j = Memory.look m j := by
  split
  · exact Memory.look_put_ne m v h
  · rfl

/-- Settles O55: the write is the one of the word located, and the map bounds the index of an entry. -/
theorem hostReadsBackWhatItWrote : Obligations.HostReadsBackWhatItWrote := by
  intro s a v _ hb
  have write := fun {l} (h : s.locate a = l) => State.hostWrite_of_idle hb h v
  have read := fun {l} (h : s.locate a = l) (hl : l ≠ .reg .cmd) => State.hostValue_hostWrite hb h hl v
  refine ⟨fun h => ?_, fun h => ?_, fun h => ?_, fun h => ?_, fun h => ?_, fun h => ?_, fun h => ?_,
    fun c h => ?_, fun i h => ?_, fun i h => ?_, fun i h => ?_, fun i h => ?_⟩ <;>
    rw [read h (by simp), write h]
  · exact ⟨rfl, rfl⟩
  · exact ⟨rfl, rfl⟩
  · exact ⟨rfl, rfl⟩
  · exact ⟨rfl, rfl⟩
  · exact ⟨rfl, extractLsb'_setWidth v 9⟩
  · exact ⟨rfl, extractLsb'_setWidth v 10⟩
  · exact ⟨rfl, extractLsb'_setWidth v 3⟩
  · have hc : c < 256 := of_decide_eq_true (State.locate_exists h (by simp))
    refine ⟨rfl, State.freqAt_writeFreq s hc v 0, fun j hj => ?_⟩
    exact Memory.look_put_ne _ _ (by simpa [Nat.mod_eq_of_lt hc] using hj)
  · have hi : i < 511 := of_decide_eq_true (State.locate_exists h (by simp))
    refine ⟨?_, ?_, fun j hj => ?_⟩
    · simp only [State.writeLoc, State.writeLink]; split <;> rfl
    · rw [State.writeLoc, State.readLoc, State.linkAt_writeLink s hi, NodeLink.toWord_ofWord]
    · rw [State.writeLoc, State.writeLink_nodeLink, Memory.look_ite_put_ne _ hj]
  · have hi : i < 511 := of_decide_eq_true (State.locate_exists h (by simp))
    refine ⟨?_, State.weightAt_writeWeight s hi v, fun j hj => ?_⟩
    · simp only [State.writeLoc, State.writeWeight]; split <;> rfl
    · rw [State.writeLoc, State.writeWeight_nodeWeight, Memory.look_ite_put_ne _ hj]
  · have hi : i < s.symCap := of_decide_eq_true (State.locate_exists h (by simp))
    refine ⟨?_, ?_, fun j hj => ?_⟩
    · simp only [State.writeLoc, State.writeSymIn]; split <;> rfl
    · rw [State.writeLoc, State.readLoc, State.symInAt_writeSymIn s hi]
      exact extractLsb'_setWidth v 8
    · rw [State.writeLoc, State.writeSymIn_symIn, Memory.look_ite_put_ne _ hj]
  · have hi : i < s.packCap := of_decide_eq_true (State.locate_exists h (by simp))
    refine ⟨?_, ?_, fun j hj => ?_⟩
    · simp only [State.writeLoc, State.writePack]; split <;> rfl
    · rw [State.writeLoc, State.readLoc, State.packAt_writePack s hi]
      exact extractLsb'_setWidth v 8
    · rw [State.writeLoc, State.writePack_pack, Memory.look_ite_put_ne _ hj]

/-! ### Registers -/

/-- The words of the register block, by their addresses (rule R11). -/
theorem locate_register (symCap packCap : Nat) {a : Addr} {r : Reg} (ha : wordIndex a < 0x100)
    (h : registers[wordIndex a]? = some r) : locate symCap packCap a = .reg r := by
  unfold locate
  rw [if_pos ha, h]

/-- The address of a register reaches it (rules R11, R44). -/
theorem locate_offset (symCap packCap : Nat) (r : Reg) :
    locate symCap packCap (BitVec.ofNat 22 r.offset) = .reg r := by
  cases r <;> exact locate_register _ _ (by decide) rfl

/-- A register as the host reads it by its address while BUSY = 0. -/
theorem State.hostValue_register {s : State} (hb : s.busy = false) (r : Reg) :
    s.hostValue (BitVec.ofNat 22 r.offset) = s.readReg r :=
  State.hostValue_of_idle hb (locate_offset _ _ r)

/-- Settles O52: the two constants stand before the question whether BUSY = 1. -/
theorem idAndVersionNeverChange : Obligations.IdAndVersionNeverChange := by
  intro s
  have hid : s.locate 0x000#22 = .reg .id := locate_offset _ _ .id
  have hver : s.locate 0x004#22 = .reg .version := locate_offset _ _ .version
  unfold State.hostValue
  rw [hid, hver]
  cases s.busy <;> exact ⟨rfl, rfl⟩

/-- The fields of STATUS, where they stand in its word (rule R18). -/
theorem State.statusWord_fields (s : State) :
    s.statusWord.getLsbD 0 = s.busy ∧ s.statusWord.getLsbD 1 = s.err ∧ s.statusWord.getLsbD 2 = s.empty ∧
    s.statusWord.getLsbD 3 = s.trunc ∧ s.statusWord.extractLsb' 4 4 = 0#4 ∧
    s.statusWord.extractLsb' 8 8 = s.result.code ∧ s.statusWord.extractLsb' 16 8 = s.detail ∧
    s.statusWord.extractLsb' 24 8 = s.lastop := by
  unfold State.statusWord
  simp (disch := decide) only [BitVec.extractLsb'_append_eq_of_le, BitVec.extractLsb'_append_eq_of_add_le,
    BitVec.getLsbD_append]
  simp

/-- Settles O9: STATUS stands at its address and its word is made of these fields. -/
theorem statusWordFields : Obligations.StatusWordFields := by
  intro s hb
  have hv : s.hostValue statusAddr = s.statusWord := State.hostValue_register hb .status
  obtain ⟨hbusy, herr, hempty, htrunc, hzero, hresult, hdetail, hlastop⟩ := s.statusWord_fields
  rw [hv]
  refine ⟨hbusy.trans hb, herr, hempty, htrunc, hzero, ?_, hdetail, hlastop⟩
  rw [hresult]
  cases s.result <;> rfl

/-- The fields of BW_STATE, where they stand in its word (rule R27). -/
theorem State.bwStateWord_fields (s : State) :
    s.bwStateWord.extractLsb' 0 8 = s.bwCur ∧ s.bwStateWord.extractLsb' 8 4 = s.bwFree ∧
    s.bwStateWord.extractLsb' 12 4 = 0#4 ∧ s.bwStateWord.getLsbD 16 = s.bwFin ∧
    s.bwStateWord.extractLsb' 17 15 = 0#15 := by
  unfold State.bwStateWord
  simp (disch := decide) only [BitVec.extractLsb'_append_eq_of_le, BitVec.extractLsb'_append_eq_of_add_le,
    BitVec.getLsbD_append]
  simp

/-- The fields of BR_STATE, where they stand in its word (rule R29). -/
theorem State.brStateWord_fields (s : State) :
    s.brStateWord.extractLsb' 0 3 = s.brBit ∧ s.brStateWord.extractLsb' 3 13 = 0#13 ∧
    s.brStateWord.extractLsb' 16 9 = s.brCursor ∧ s.brStateWord.extractLsb' 25 7 = 0#7 := by
  unfold State.brStateWord
  simp (disch := decide) only [BitVec.extractLsb'_append_eq_of_le, BitVec.extractLsb'_append_eq_of_add_le]
  simp

/-- The registers rule R11 marks read-only. -/
theorem State.writeReg_readOnly (s : State) (v : Word) :
    ∀ r ∈ [Reg.id, .version, .status, .outLen, .totalBits, .bwState, .brPos, .brState, .symCap, .packCap],
      s.writeReg r v = s := by
  simp [State.writeReg]

/-- A write leaves the state if, in an idle block, the word it names is not written. -/
theorem State.hostWrite_ignored {s : State} {a : Addr} {l : Loc} {v : Word} (h : s.locate a = l)
    (hl : s.writeLoc l v = s) : s.hostWrite a v = s := by
  unfold State.hostWrite
  split
  · rfl
  · rw [h, hl]

/-- Settles O57: each word by its location, the packed ones by their fields. -/
theorem readOnlyWordsIgnoreWrites : Obligations.ReadOnlyWordsIgnoreWrites := by
  intro s a v
  refine ⟨fun h => ?_, fun hb => ?_⟩
  · rcases h with ⟨r, hr, h⟩ | ⟨c, h⟩ | ⟨c, w, h⟩ | ⟨i, h⟩
    · exact State.hostWrite_ignored h (s.writeReg_readOnly v r hr)
    · exact State.hostWrite_ignored h rfl
    · exact State.hostWrite_ignored h rfl
    · exact State.hostWrite_ignored h rfl
  · have reg := State.hostValue_register hb
    have bw : s.hostValue 0x034#22 = s.bwStateWord := reg .bwState
    have br : s.hostValue 0x03C#22 = s.brStateWord := reg .brState
    obtain ⟨hcur, hfree, hgap, hfin, hhigh⟩ := s.bwStateWord_fields
    obtain ⟨hbit, hgap', hcursor, hhigh'⟩ := s.brStateWord_fields
    rw [bw, br]
    refine ⟨reg .cmd, reg .outLen, reg .totalBits, reg .brPos, reg .symCap, reg .packCap, hcur, hfree, hgap,
      hfin, hhigh, hbit, hgap', hcursor,
      hhigh', fun c h => ?_, fun c w h j hj => ?_, fun i h => ?_⟩ <;>
      rw [State.hostValue_of_idle hb h, State.readLoc]
    · simp (disch := decide) only [BitVec.extractLsb'_append_eq_of_le,
        BitVec.extractLsb'_append_eq_of_add_le, BitVec.getLsbD_append]
      simp
    · simp [hj]
    · constructor <;> apply BitVec.eq_of_getLsbD_eq <;> intro k hk <;> simp [hk]
      omega

/-- STATUS after reset: only EMPTY is 1 (rules R11, R157). -/
theorem State.statusWord_resetOf (a b : Nat) : (State.resetOf a b).statusWord = 4#32 := by
  change ((((((0#8 ++ 0#8) ++ 0#8) ++ 0#4) ++ BitVec.ofBool false) ++ BitVec.ofBool (decide (nilIx = nilIx))) ++
    BitVec.ofBool (decide (Result.ok ≠ .ok))) ++ BitVec.ofBool false = 4#32
  decide

/-- BW_STATE after reset: FREE is 8 (rules R11, R157). -/
theorem State.bwStateWord_resetOf (a b : Nat) : (State.resetOf a b).bwStateWord = 0x800#32 := by
  change (((0#15 ++ BitVec.ofBool false) ++ 0#4) ++ 8#4) ++ 0#8 = 0x800#32
  decide

/-- BR_STATE after reset: the cursor is NIL, the bit 7 (rules R11, R157). -/
theorem State.brStateWord_resetOf (a b : Nat) : (State.resetOf a b).brStateWord = 0x01FF0007#32 := by
  change ((0#7 ++ nilIx) ++ 0#13) ++ 7#3 = 0x01FF0007#32
  decide

/-- The reset values of rule R11. -/
theorem State.readReg_resetOf (a b : Nat) :
    registers.map (State.resetOf a b).readReg =
      [0x48554646#32, 1#32, 0#32, 0#32, 4#32, 0#32, 0x1FF#32, 0#32, 0#32, 0#32, 0#32, 0#32, 0#32,
        0x800#32, 0#32, 0x01FF0007#32, BitVec.ofNat 32 a, BitVec.ofNat 32 b] := by
  simp only [registers, List.map, State.readReg, State.statusWord_resetOf, State.bwStateWord_resetOf,
    State.brStateWord_resetOf]
  rfl

/-- Settles O60: the host's move at `reset` is `hardwareReset`, whose registers are those of the reset state. -/
theorem hardwareResetFromAnyState : Obligations.HardwareResetFromAnyState := by
  intro s rest hport
  refine ⟨(s.withPort rest).hardwareReset, ?_, rfl, State.readReg_resetOf s.symCap s.packCap, rfl, rfl,
    State.resetOf_validAt s.symCap s.packCap⟩
  simp [step, State.hostMove, hport]

end Sys2Proof.Machine
end

section
/-! Which state each command may write, whether it completes or raises (spec/10_state.md). -/

namespace Sys2Proof.Machine

variable {s t : State}

theorem appendBits_only (s : State) (bits : List Bool) : OnlyPacker s (appendBits s bits).left := by
  rcases appendBits_cases s bits with ⟨-, e⟩ | ⟨-, e⟩ <;> rw [e]
  · exact pushBits_only s bits
  · exact .refl s

/-- WRBITS, PUTSYM and FINISH write the packer alone (rule R90). -/
theorem packerCommand_only (i : Instr) (s : State)
    (h : (∃ w, i = .wrbits w) ∨ (∃ c, i = .putsym c) ∨ i = .finish) :
    OnlyPacker s (bodyOf i s).left := by
  rcases h with ⟨w, rfl⟩ | ⟨c, rfl⟩ | rfl
  · rcases wrbitsBody_left w.toNat s with e | e <;> simp only [bodyOf, e]
    · exact .refl s
    · exact appendBits_only s _
  · rcases putsymBody_left c s with e | e <;> simp only [bodyOf, e]
    · exact .refl s
    · exact appendBits_only s _
  · exact finishBody_only s

/-- A body that raises without an effect or completes with one state leaves one of these two. -/
theorem raiseOrDone_left {p : Prop} [Decidable p] {code : Result} {d : Byte} :
    (if p then Ended.raise s code d else Ended.done t).left = s ∨
      (if p then Ended.raise s code d else Ended.done t).left = t := by
  split
  · exact .inl rfl
  · exact .inr rfl

/-- FCLR, FADD and FCOUNT write FREQ alone. -/
theorem freqCommand_only (i : Instr) (s : State) (h : i = .fclr ∨ (∃ c, i = .fadd c) ∨ i = .fcount) :
    OnlyFreq s (bodyOf i s).left := by
  rcases h with rfl | ⟨c, rfl⟩ | rfl
  · exact ⟨_, rfl⟩
  · simp only [bodyOf, faddBody]
    split
    · exact .refl s
    · exact ⟨_, rfl⟩
  · simp only [bodyOf, fcountBody]
    split
    · exact .refl s
    · exact countInput_only s

/-- BUILD writes NODE, the tree registers and CODE_VALID. -/
theorem buildBody_frame (s : State) :
    ∃ link weight root cnt total valid, (buildBody s).left =
      { s with
        nodeLink := link, nodeWeight := weight, root := root, nodeCnt := cnt, symCnt := total,
        codeValid := valid } := by
  unfold buildBody
  split
  · exact ⟨s.nodeLink, s.nodeWeight, s.root, s.nodeCnt, s.symCnt, s.codeValid, rfl⟩
  · obtain ⟨a, b, c, d, e, h⟩ := buildTree_frame s
    exact ⟨a, b, c, d, e, _, h⟩

/-- CODES writes the code table alone. -/
theorem codesBody_only (s : State) : OnlyCodes s (codesBody s).left := by
  unfold codesBody
  split
  · exact .refl s
  · exact buildCodes_only s

/-- ENCODE writes FREQ, the tree, the code table and the packer (rule R125). -/
theorem encodeBody_frame (s : State) :
    ∃ freq link weight root cnt total valid len pat cur free fin bits plen trail pack, (encodeBody s).left =
      { s with
        freq := freq, nodeLink := link, nodeWeight := weight, root := root, nodeCnt := cnt,
        symCnt := total, codeValid := valid, codeLen := len, codePat := pat, bwCur := cur,
        bwFree := free, bwFin := fin, totalBits := bits, packLen := plen, trail := trail,
        pack := pack } := by
  obtain ⟨f, hf⟩ := countInput_only s
  obtain ⟨a, b, c, d, e, ht⟩ := buildTree_frame (countInput s)
  have htree : encodeTree s = packerInit { s with
      freq := f, nodeLink := a, nodeWeight := b, root := c, nodeCnt := d, symCnt := e,
      codeValid := 0#256 } := by rw [encodeTree, ht, hf]
  obtain ⟨v, l, p, hc⟩ := buildCodes_only (encodeTree s)
  unfold encodeBody
  dsimp only
  split
  · exact ⟨s.freq, s.nodeLink, s.nodeWeight, s.root, s.nodeCnt, s.symCnt, s.codeValid, s.codeLen,
      s.codePat, s.bwCur, s.bwFree, s.bwFin, s.totalBits, s.packLen, s.trail, s.pack, rfl⟩
  · split
    · rw [htree]
      exact ⟨_, _, _, _, _, _, _, s.codeLen, s.codePat, _, _, _, _, _, _, s.pack, rfl⟩
    · split
      · rw [hc, htree]
        exact ⟨_, _, _, _, _, _, _, _, _, _, _, _, _, _, _, s.pack, rfl⟩
      · split
        · obtain ⟨_, _, _, _, _, _, _, hp⟩ :=
            packSymbols_only (inputSymbols (buildCodes (encodeTree s)) 1) (buildCodes (encodeTree s))
          rw [hp, hc, htree]
          exact ⟨_, _, _, _, _, _, _, _, _, _, _, _, _, _, _, _, rfl⟩
        · rw [hc, htree]
          exact ⟨_, _, _, _, _, _, _, _, _, _, _, _, _, _, _, s.pack, rfl⟩

/-- DECODE writes the reader, OUT_LEN and SYM_OUT (rule R127). -/
theorem decodeBody_frame (s : State) :
    ∃ pos bit cursor len out, (decodeBody s).left =
      { s with brPos := pos, brBit := bit, brCursor := cursor, outLen := len, symOut := out } := by
  have failed : ∃ pos bit cursor len out, decodeFailed s =
      { s with brPos := pos, brBit := bit, brCursor := cursor, outLen := len, symOut := out } :=
    ⟨_, _, _, _, _, rfl⟩
  unfold decodeBody
  dsimp only
  split
  · exact failed
  · split
    · exact failed
    · split
      · exact ⟨_, _, _, _, s.symOut, rfl⟩
      · split
        · exact failed
        · split
          · exact failed
          · next h =>
            obtain ⟨_, _, _, _, rfl⟩ := decodeStream_only _ _ _ h
            exact ⟨_, _, _, _, _, rfl⟩

/-- Settles O47: each command by the lemma that says what it may write. -/
theorem onlyNamedCommandsWrite : Obligations.OnlyNamedCommandsWrite := by
  intro i s t h
  rw [exec_eq] at h
  cases h
  simp only [Ended.completed]
  cases i with
  | nop => simp [bodyOf]
  | clear => simp [bodyOf, clearBody]
  | bwinit => simp [bodyOf]
  | wrbits w =>
    obtain ⟨_, _, _, _, _, _, _, e⟩ := packerCommand_only (.wrbits w) s (.inl ⟨w, rfl⟩)
    simp [e]
  | putsym c =>
    obtain ⟨_, _, _, _, _, _, _, e⟩ := packerCommand_only (.putsym c) s (.inr (.inl ⟨c, rfl⟩))
    simp [e]
  | finish =>
    obtain ⟨_, _, _, _, _, _, _, e⟩ := packerCommand_only .finish s (.inr (.inr rfl))
    simp [e]
  | brinit => simp [bodyOf]
  | rdbit =>
    simp only [bodyOf, rdbitBody]
    split
    · simp
    · split <;> simp
  | fclr => simp [bodyOf]
  | fadd c =>
    obtain ⟨_, e⟩ := freqCommand_only (.fadd c) s (.inr (.inl ⟨c, rfl⟩))
    simp [e]
  | fcount =>
    obtain ⟨_, e⟩ := freqCommand_only .fcount s (.inr (.inr rfl))
    simp [e]
  | build =>
    obtain ⟨_, _, _, _, _, _, e⟩ := buildBody_frame s
    simp [bodyOf, e]
  | tcheck =>
    simp only [bodyOf, tcheckBody]
    split <;> simp
  | codes =>
    obtain ⟨_, _, _, e⟩ := codesBody_only s
    simp [bodyOf, e]
  | encode =>
    obtain ⟨_, _, _, _, _, _, _, _, _, _, _, _, _, _, _, _, e⟩ := encodeBody_frame s
    simp [bodyOf, e]
  | decode =>
    obtain ⟨_, _, _, _, _, e⟩ := decodeBody_frame s
    simp [bodyOf, e]

/-! ### FADD and the queue -/

/-- Settles O23: the check and the increment of FADD, the counter read anew by each. -/
theorem faddCountsOneSymbol : Obligations.FaddCountsOneSymbol := by
  intro s c
  refine ⟨fun h => ?_, fun h => ?_⟩ <;> rw [exec_eq]
  · have hb : bodyOf (.fadd c) s = .raise s .freqOvf Detail.none := if_pos h
    rw [hb]
    rfl
  · have hb : bodyOf (.fadd c) s = .done (s.writeFreq c (incremented s c)) := if_neg h
    rw [hb]
    refine ⟨_, rfl, rfl, ⟨incremented s c, Memory.look_put_same _ _ _, fun w hw => ?_⟩,
      fun j hj => Memory.look_put_ne _ _ hj⟩
    have hne : w ≠ BitVec.allOnes 32 := fun e => h (by rw [freqAt_of_look hw, e]; rfl)
    have hlt : w.toNat ≠ 2 ^ 32 - 1 := fun e => hne (BitVec.eq_of_toNat_eq (by rw [e, BitVec.toNat_allOnes]))
    rw [incremented_of_look hw hne, BitVec.toNat_add, show (1#32).toNat = 1 from rfl]
    have := w.isLt
    omega

theorem QEntry.before_iff (a b : QEntry) :
    a.before b = true ↔ a.weight < b.weight ∨ (a.weight = b.weight ∧ a.key < b.key) := by
  simp [QEntry.before]

/-- Inserting adds exactly the entry, whatever the order of the queue. -/
theorem enqueue_perm (e : QEntry) (q : List QEntry) : (enqueue e q).Perm (e :: q) := by
  induction q with
  | nil => exact .refl _
  | cons x q ih =>
    unfold enqueue
    split
    · exact .refl _
    · exact (ih.cons x).trans (.swap e x q)

/-- Settles O25: by induction on the queue, the entry going before the first one it is not after. -/
theorem queueKeepsTheRemovalOrder : Obligations.QueueKeepsTheRemovalOrder := by
  intro q e hq hkey
  refine ⟨?_, enqueue_perm e q⟩
  induction q with
  | nil => simp [enqueue]
  | cons x q ih =>
    obtain ⟨hx, hq⟩ := List.pairwise_cons.1 hq
    have hne : x.key ≠ e.key := hkey x (by simp)
    unfold enqueue
    split
    · next hb =>
      rw [QEntry.before_iff] at hb
      refine List.pairwise_cons.2 ⟨fun y hy => ?_, List.pairwise_cons.2 ⟨hx, hq⟩⟩
      rcases List.mem_cons.1 hy with rfl | hy
      · exact hb
      · have := hx y hy
        omega
    · next hb =>
      rw [QEntry.before_iff] at hb
      refine List.pairwise_cons.2 ⟨fun y hy => ?_, ih hq fun y hy => hkey y (by simp [hy])⟩
      rcases List.mem_cons.1 ((enqueue_perm e q).mem_iff.1 hy) with rfl | hy
      · omega
      · exact hx y hy

end Sys2Proof.Machine
end

section
/-! The tree a node memory stores, as data: its nodes, its leaves' symbols and their paths (rules R31, R72), and
what Visit finds of it (rule R116). -/

namespace Sys2Proof.Machine

/-- A binary tree whose nodes carry their index in NODE and whose leaves carry their symbol. -/
inductive CodeTree where
  | leaf (n : NodeIx) (c : Byte)
  | node (n : NodeIx) (left right : CodeTree)

namespace CodeTree

/-- The index of the topmost node. -/
def root : CodeTree → NodeIx
  | .leaf n _ => n
  | .node n _ _ => n

/-- The indices of all nodes, in the order of Visit. -/
def nodes : CodeTree → List Nat
  | .leaf n _ => [n.toNat]
  | .node n l r => n.toNat :: (l.nodes ++ r.nodes)

/-- The leaves, left to right: the path to each, 0 for child0 and 1 for child1, and its symbol. -/
def paths : CodeTree → List (List Bool × Byte)
  | .leaf _ c => [([], c)]
  | .node _ l r =>
    l.paths.map (fun x => (false :: x.1, x.2)) ++ r.paths.map (fun x => (true :: x.1, x.2))

/-- The symbols of the leaves, left to right. -/
def symbols (T : CodeTree) : List Byte := T.paths.map Prod.snd

/-- The memory holds the tree: every node of it has been written, as an Internal node with its children or as a
Leaf with its symbol. -/
def StoredIn (m : Memory NodeLink) : CodeTree → Prop
  | .leaf n c => ∃ e, m.look n.toNat = some e ∧ e.internal = false ∧ e.sym = c
  | .node n l r => ∃ e, m.look n.toNat = some e ∧ e.internal = true ∧ e.left = l.root ∧ e.right = r.root ∧
      l.StoredIn m ∧ r.StoredIn m

@[simp] theorem symbols_leaf (n : NodeIx) (c : Byte) : (leaf n c).symbols = [c] := rfl

@[simp] theorem symbols_node (n : NodeIx) (l r : CodeTree) :
    (node n l r).symbols = l.symbols ++ r.symbols := by
  simp [symbols, paths, Function.comp_def]

@[simp] theorem root_leaf (n : NodeIx) (c : Byte) : (leaf n c).root = n := rfl

@[simp] theorem root_node (n : NodeIx) (l r : CodeTree) : (node n l r).root = n := rfl

theorem root_mem_nodes (T : CodeTree) : T.root.toNat ∈ T.nodes := by
  cases T <;> simp [root, nodes]

theorem exists_mem_paths (T : CodeTree) : ∃ x, x ∈ T.paths := by
  induction T with
  | leaf n c => exact ⟨([], c), by simp [paths]⟩
  | node n l r ihl _ =>
    obtain ⟨x, hx⟩ := ihl
    exact ⟨(false :: x.1, x.2), by simp [paths, hx]⟩

theorem symbols_length_pos (T : CodeTree) : 0 < T.symbols.length := by
  obtain ⟨x, hx⟩ := T.exists_mem_paths
  rw [symbols, List.length_map]
  exact List.length_pos_of_mem hx

/-- A path goes through as many Internal nodes as it is long, and each has leaves off the path. -/
theorem length_lt_of_mem_paths {T : CodeTree} {bits : List Bool} {c : Byte} (h : (bits, c) ∈ T.paths) :
    bits.length < T.symbols.length := by
  induction T generalizing bits with
  | leaf n d => simp_all [paths]
  | node n l r ihl ihr =>
    have hl := l.symbols_length_pos
    have hr := r.symbols_length_pos
    simp only [paths, List.mem_append, List.mem_map, Prod.mk.injEq, Prod.exists] at h
    simp only [symbols_node, List.length_append]
    rcases h with ⟨b, d, hm, rfl, rfl⟩ | ⟨b, d, hm, rfl, rfl⟩
    · have := ihl hm
      simp; omega
    · have := ihr hm
      simp; omega

/-- With 256 symbols and no symbol twice, no path is longer than 255 (rule R119). -/
theorem length_le_of_mem_paths {T : CodeTree} (hT : T.symbols.Nodup) {bits : List Bool} {c : Byte}
    (h : (bits, c) ∈ T.paths) : bits.length ≤ 255 := by
  have hlt := length_lt_of_mem_paths h
  have hcard : T.symbols.length ≤ 256 := by
    have hsub : (T.symbols.map BitVec.toNat).Subperm (List.range 256) := by
      refine List.Nodup.subperm (hT.map fun a b e => BitVec.eq_of_toNat_eq e) fun n hn => ?_
      obtain ⟨c, -, rfl⟩ := List.mem_map.1 hn
      exact List.mem_range.2 c.isLt
    simpa using hsub.length_le
  omega

/-- Where no symbol is twice, a symbol has one path. -/
theorem path_unique {T : CodeTree} (hT : T.symbols.Nodup) {a b : List Bool} {c : Byte}
    (ha : (a, c) ∈ T.paths) (hb : (b, c) ∈ T.paths) : a = b :=
  congrArg Prod.fst (List.inj_on_of_nodup_map hT ha hb rfl)

/-- A tree is stored in every memory that reads alike at its nodes. -/
theorem StoredIn.congr {m m' : Memory NodeLink} {T : CodeTree} (h : T.StoredIn m)
    (hm : ∀ n ∈ T.nodes, m'.look n = m.look n) : T.StoredIn m' := by
  induction T with
  | leaf n c =>
    obtain ⟨e, he, h⟩ := h
    exact ⟨e, (hm _ (by simp [nodes])).trans he, h⟩
  | node n l r ihl ihr =>
    obtain ⟨e, he, hi, hl, hr, hsl, hsr⟩ := h
    exact ⟨e, (hm _ (by simp [nodes])).trans he, hi, hl, hr,
      ihl hsl fun k hk => hm k (by simp [nodes, hk]), ihr hsr fun k hk => hm k (by simp [nodes, hk])⟩

end CodeTree

/-! ### Paths -/

section Child

variable {m : Memory NodeLink} {T : CodeTree} {c : Byte}

/-- The first bit of a path leads to a child, and the rest is a path of its subtree. -/
theorem CodeTree.StoredIn.child {b : Bool} {bits : List Bool} (h : T.StoredIn m) (hp : (b :: bits, c) ∈ T.paths) :
    ∃ (e : NodeLink) (U : CodeTree), m.look T.root.toNat = some e ∧ e.internal = true ∧
      (if b then e.right else e.left) = U.root ∧ U.StoredIn m ∧ (bits, c) ∈ U.paths := by
  cases T with
  | leaf n d => simp [paths] at hp
  | node n l r =>
    obtain ⟨e, he, hi, hl, hr, hsl, hsr⟩ := h
    cases b with
    | false => exact ⟨e, l, he, hi, hl, hsl, by simpa [paths] using hp⟩
    | true => exact ⟨e, r, he, hi, hr, hsr, by simpa [paths] using hp⟩

/-- Where a path ends there is a Leaf of its symbol. -/
theorem CodeTree.StoredIn.pathEnd (h : T.StoredIn m) (hp : ([], c) ∈ T.paths) :
    ∃ e, m.look T.root.toNat = some e ∧ e.internal = false ∧ e.sym = c := by
  cases T with
  | leaf n d =>
    obtain rfl : c = d := by simpa [paths] using hp
    exact h
  | node n l r => simp [paths] at hp

end Child

/-- Following bits down a stored tree ends at the Leaf they are the path of. -/
theorem CodeTree.StoredIn.descend_path {s : State} {T : CodeTree} (h : T.StoredIn s.nodeLink)
    {bits : List Bool} {c : Byte} (hb : (bits, c) ∈ T.paths) :
    ∃ n, s.descend T.root bits = some n ∧ (s.linkAt 0 n.toNat).internal = false ∧
      (s.linkAt 0 n.toNat).sym = c := by
  induction T generalizing bits with
  | leaf n d =>
    obtain ⟨e, he, hi, hs⟩ := h
    obtain ⟨rfl, rfl⟩ : bits = [] ∧ c = d := by simpa [paths] using hb
    exact ⟨n, rfl, by rw [linkAt_of_look he]; exact ⟨hi, hs⟩⟩
  | node n l r ihl ihr =>
    obtain ⟨e, he, hi, hl, hr, hsl, hsr⟩ := h
    simp only [paths, List.mem_append, List.mem_map, Prod.mk.injEq, Prod.exists] at hb
    rcases hb with ⟨b, d, hm, rfl, rfl⟩ | ⟨b, d, hm, rfl, rfl⟩
    · simpa [State.descend, root, linkAt_of_look he, hi, hl] using ihl hsl hm
    · simpa [State.descend, root, linkAt_of_look he, hi, hr] using ihr hsr hm

/-- Wherever bits lead in a stored tree there is a subtree of it, and its paths continue the bits. -/
theorem CodeTree.StoredIn.subtree {s : State} {T : CodeTree} (h : T.StoredIn s.nodeLink)
    {bits : List Bool} {n : NodeIx} (hd : s.descend T.root bits = some n) :
    ∃ U : CodeTree, U.root = n ∧ U.StoredIn s.nodeLink ∧
      ∀ x ∈ U.paths, (bits ++ x.1, x.2) ∈ T.paths := by
  induction bits generalizing T with
  | nil =>
    cases hd
    exact ⟨T, rfl, h, fun x hx => hx⟩
  | cons b bits ih =>
    simp only [State.descend] at hd
    cases T with
    | leaf m c =>
      obtain ⟨e, he, hi, -⟩ := h
      simp [root, linkAt_of_look he, hi] at hd
    | node m l r =>
      obtain ⟨e, he, hi, hl, hr, hsl, hsr⟩ := h
      simp only [root, linkAt_of_look he, hi, if_true, hl, hr] at hd
      cases b with
      | false =>
        obtain ⟨U, hU, hs, hp⟩ := ih hsl hd
        exact ⟨U, hU, hs, fun x hx => by simpa [paths] using hp x hx⟩
      | true =>
        obtain ⟨U, hU, hs, hp⟩ := ih hsr hd
        exact ⟨U, hU, hs, fun x hx => by simpa [paths] using hp x hx⟩

/-- The paths of rule R72 are those of the tree stored below the root. -/
theorem CodeTree.StoredIn.isPath_iff {s : State} {T : CodeTree} (h : T.StoredIn s.nodeLink)
    (hroot : T.root = s.root) (bits : List Bool) (c : Byte) : s.IsPath bits c ↔ (bits, c) ∈ T.paths := by
  refine ⟨fun ⟨n, hn, hi, hc⟩ => ?_, fun hb => ?_⟩
  · rw [← hroot] at hn
    obtain ⟨U, hU, hs, hp⟩ := h.subtree hn
    cases U with
    | leaf m d =>
      obtain ⟨e, he, -, hd⟩ := hs
      have : d = c := by rw [← hc, ← hU, root, linkAt_of_look he, hd]
      simpa [this] using hp ([], d) (by simp [paths])
    | node m l r =>
      obtain ⟨e, he, hi', -⟩ := hs
      rw [← hU, root, linkAt_of_look he, hi'] at hi
      cases hi
  · obtain ⟨n, hn, h⟩ := h.descend_path hb
    exact ⟨n, hroot ▸ hn, h⟩

theorem CodeTree.StoredIn.root_written {m : Memory NodeLink} {T : CodeTree} (h : T.StoredIn m) :
    (m.look T.root.toNat).isSome := by
  cases T with
  | leaf n c => obtain ⟨e, he, -⟩ := h; simp [root, he]
  | node n l r => obtain ⟨e, he, -⟩ := h; simp [root, he]

theorem CodeTree.StoredIn.treeWritten {s : State} {T : CodeTree} (h : T.StoredIn s.nodeLink)
    (hroot : T.root = s.root) : s.TreeWritten := by
  intro bits n hn
  obtain ⟨U, rfl, hs, -⟩ := h.subtree (hroot ▸ hn)
  exact hs.root_written

/-! ### Visit -/

theorem visit_visited {s : State} {fuel : Nat} {n : NodeIx} {v : Visited} (h : n.toNat ∈ v.nodes) :
    visit s fuel n v = .error Detail.sharedOrCycle := by
  cases fuel with
  | zero => rfl
  | succ fuel => simp only [visit, if_pos h]

theorem visit_leaf {s : State} {fuel : Nat} {n : NodeIx} {v : Visited} (h : n.toNat ∉ v.nodes)
    (hi : (s.linkAt 0 n.toNat).internal = false) :
    visit s (fuel + 1) n v = if (s.linkAt 0 n.toNat).sym ∈ v.syms then .error Detail.dupSymbol
      else .ok ⟨n.toNat :: v.nodes, (s.linkAt 1 n.toNat).sym :: v.syms⟩ := by
  simp [visit, if_neg h, hi]

theorem visit_internal {s : State} {fuel : Nat} {n : NodeIx} {v : Visited} (h : n.toNat ∉ v.nodes)
    (hi : (s.linkAt 0 n.toNat).internal = true) :
    visit s (fuel + 1) n v =
      if s.nodeCnt.toNat ≤ (s.linkAt 0 n.toNat).left.toNat then .error Detail.badChild
      else (visit s fuel (s.linkAt 0 n.toNat).left { v with nodes := n.toNat :: v.nodes }).bind fun v' =>
        if s.nodeCnt.toNat ≤ (s.linkAt 0 n.toNat).right.toNat then .error Detail.badChild
        else visit s fuel (s.linkAt 0 n.toNat).right v' := by
  simp only [visit, if_neg h, hi, if_true]
  split
  · rfl
  · cases visit s fuel (s.linkAt 0 n.toNat).left { v with nodes := n.toNat :: v.nodes } <;> rfl

/-- Every defect has a DETAIL of its own, none of them 0 (rule R137). -/
theorem visit_error_ne {s : State} {fuel : Nat} {n : NodeIx} {v : Visited} {d : Byte}
    (h : visit s fuel n v = .error d) : d ≠ Detail.none := by
  induction fuel generalizing n v with
  | zero => cases h; decide
  | succ fuel ih =>
    by_cases hv : n.toNat ∈ v.nodes
    · rw [visit_visited hv] at h; cases h; decide
    cases hi : (s.linkAt 0 n.toNat).internal with
    | false =>
      rw [visit_leaf hv hi] at h
      split at h <;> cases h
      decide
    | true =>
      rw [visit_internal hv hi] at h
      split at h
      · cases h; decide
      cases hl : visit s fuel (s.linkAt 0 n.toNat).left { v with nodes := n.toNat :: v.nodes } with
      | error d' =>
        rw [hl] at h
        cases h
        exact ih hl
      | ok v' =>
        rw [hl] at h
        change (if _ then _ else _) = _ at h
        split at h
        · cases h; decide
        · exact ih h

/-- Visit passes a stored tree whose nodes are in range and all different, as its symbols are. -/
theorem visit_of_stored {s : State} {T : CodeTree} (h : T.StoredIn s.nodeLink)
    (hcnt : ∀ n ∈ T.nodes, n < s.nodeCnt.toNat) {v : Visited} {fuel : Nat} (hfuel : T.nodes.length ≤ fuel)
    (hnodes : (T.nodes ++ v.nodes).Nodup) (hsyms : (T.symbols ++ v.syms).Nodup) :
    visit s fuel T.root v = .ok ⟨T.nodes.reverse ++ v.nodes, T.symbols.reverse ++ v.syms⟩ := by
  induction T generalizing v fuel with
  | leaf n c =>
    obtain ⟨e, he, hi, hc⟩ := h
    obtain ⟨fuel, rfl⟩ : ∃ k, fuel = k + 1 := ⟨fuel - 1, by simp [CodeTree.nodes] at hfuel; omega⟩
    simp only [CodeTree.nodes, CodeTree.symbols_leaf, List.singleton_append, List.nodup_cons] at hnodes hsyms
    have he' := fun r => linkAt_of_look he r
    rw [CodeTree.root, visit_leaf hnodes.1 (by rw [he', hi]), he', he', hc, if_neg hsyms.1]
    rfl
  | node n l r ihl ihr =>
    obtain ⟨e, he, hi, hl, hr, hsl, hsr⟩ := h
    obtain ⟨fuel, rfl⟩ : ∃ k, fuel = k + 1 := ⟨fuel - 1, by simp [CodeTree.nodes] at hfuel; omega⟩
    simp only [CodeTree.nodes, List.length_cons, List.length_append] at hfuel
    simp only [CodeTree.nodes, CodeTree.symbols_node, List.cons_append, List.nodup_cons, List.append_assoc]
      at hnodes hsyms
    have swap : ∀ {α : Type} (a b c : List α), (a ++ (b ++ c)).Perm (b ++ (a.reverse ++ c)) := fun a b c =>
      (a.reverse_perm.symm.append_right _).trans (List.perm_append_comm_assoc _ _ _)
    have hcl : ∀ k ∈ l.nodes, k < s.nodeCnt.toNat := fun k hk => hcnt k (by simp [CodeTree.nodes, hk])
    have hcr : ∀ k ∈ r.nodes, k < s.nodeCnt.toNat := fun k hk => hcnt k (by simp [CodeTree.nodes, hk])
    have hleft := ihl hsl hcl (v := { v with nodes := n.toNat :: v.nodes }) (fuel := fuel) (by omega)
      (by
        refine List.perm_middle.nodup_iff.2 (List.nodup_cons.2 ⟨?_, ?_⟩)
        · simp only [List.mem_append, not_or] at hnodes ⊢
          exact ⟨hnodes.1.1, hnodes.1.2.2⟩
        · exact hnodes.2.sublist ((List.Sublist.refl _).append (List.sublist_append_right _ _)))
      (hsyms.sublist ((List.Sublist.refl _).append (List.sublist_append_right _ _)))
    have hright := ihr hsr hcr (v := ⟨l.nodes.reverse ++ n.toNat :: v.nodes, l.symbols.reverse ++ v.syms⟩)
      (fuel := fuel) (by omega)
      (by
        have hmid := List.perm_middle (a := n.toNat) (l₁ := l.nodes ++ r.nodes) (l₂ := v.nodes)
        simp only [List.append_assoc] at hmid
        exact ((hmid.symm.trans (swap _ _ _)).nodup_iff).1 (List.nodup_cons.2 hnodes))
      (((swap _ _ _).nodup_iff).1 hsyms)
    have hroot : s.linkAt 0 n.toNat = e := linkAt_of_look he 0
    rw [CodeTree.root, visit_internal (fun hm => hnodes.1 (by simp [hm])) (by rw [hroot, hi]), hroot, hl, hr,
      if_neg (Nat.not_le.2 (hcl _ l.root_mem_nodes)), hleft]
    change (if _ then _ else _) = _
    rw [if_neg (Nat.not_le.2 (hcr _ r.root_mem_nodes)), hright]
    simp [CodeTree.nodes]

/-- What Visit passes is a stored tree, with no node and no symbol twice, once its nodes have been written. -/
theorem stored_of_visit {s : State} {fuel : Nat} {n : NodeIx} {v v' : Visited}
    (h : visit s fuel n v = .ok v')
    (hw : ∀ bits m, s.descend n bits = some m → (s.nodeLink.look m.toNat).isSome) :
    ∃ T : CodeTree, T.root = n ∧ T.StoredIn s.nodeLink ∧
      v' = ⟨T.nodes.reverse ++ v.nodes, T.symbols.reverse ++ v.syms⟩ ∧
      (v.nodes.Nodup → v'.nodes.Nodup) ∧ (v.syms.Nodup → v'.syms.Nodup) := by
  induction fuel generalizing n v v' with
  | zero => cases h
  | succ fuel ih =>
    obtain ⟨e, he⟩ := Option.isSome_iff_exists.1 (hw [] n rfl)
    have hread := fun r => linkAt_of_look he r
    by_cases hv : n.toNat ∈ v.nodes
    · rw [visit_visited hv] at h; cases h
    cases hi : e.internal with
    | false =>
      rw [visit_leaf hv (by rw [hread, hi]), hread, hread] at h
      split at h
      · cases h
      · next hs =>
        cases h
        exact ⟨.leaf n e.sym, rfl, ⟨e, he, hi, rfl⟩, rfl, fun hn => List.nodup_cons.2 ⟨hv, hn⟩,
          fun hn => List.nodup_cons.2 ⟨hs, hn⟩⟩
    | true =>
      have below : ∀ (b : Bool) bits m, s.descend (if b then e.right else e.left) bits = some m →
          (s.nodeLink.look m.toNat).isSome := fun b bits m hm =>
        hw (b :: bits) m (by simpa [State.descend, hread, hi] using hm)
      rw [visit_internal hv (by rw [hread, hi]), hread] at h
      split at h
      · cases h
      cases hl : visit s fuel e.left { v with nodes := n.toNat :: v.nodes } with
      | error d => rw [hl] at h; cases h
      | ok v₁ =>
        rw [hl] at h
        change (if _ then _ else _) = _ at h
        split at h
        · cases h
        obtain ⟨L, hLroot, hL, rfl, hLn, hLs⟩ := ih hl (below false)
        obtain ⟨R, hRroot, hR, rfl, hRn, hRs⟩ := ih h (below true)
        refine ⟨.node n L R, rfl, ⟨e, he, hi, hLroot.symm, hRroot.symm, hL, hR⟩, ?_, fun hn => ?_, fun hn => ?_⟩
        · simp [CodeTree.nodes]
        · exact hRn (hLn (List.nodup_cons.2 ⟨hv, hn⟩))
        · exact hRs (hLs hn)

/-! ### ValidTree -/

theorem validTree_of_nil {s : State} (h : s.root = nilIx) : validTree s = Detail.none := if_pos h

theorem root_ne_nil {s : State} (hcnt : s.nodeCnt.toNat ≤ 511) (hroot : s.root.toNat < s.nodeCnt.toNat) :
    s.root ≠ nilIx := fun e => by
  rw [e, show nilIx.toNat = 511 from rfl] at hroot
  omega

theorem validTree_of_visit_ok {s : State} {v : Visited} (hcnt : s.nodeCnt.toNat ≤ 511)
    (hroot : s.root.toNat < s.nodeCnt.toNat) (h : visit s visitFuel s.root ⟨[], []⟩ = .ok v) :
    validTree s = Detail.none := by
  have hin : ¬(Config.nodeMax < s.nodeCnt.toNat ∨ s.nodeCnt.toNat ≤ s.root.toNat) := by
    simp only [Config.nodeMax]; omega
  rw [validTree, if_neg (root_ne_nil hcnt hroot), if_neg hin, h]

theorem validTree_of_visit_error {s : State} {d : Byte} (hcnt : s.nodeCnt.toNat ≤ 511)
    (hroot : s.root.toNat < s.nodeCnt.toNat) (h : visit s visitFuel s.root ⟨[], []⟩ = .error d) :
    validTree s = d := by
  have hin : ¬(Config.nodeMax < s.nodeCnt.toNat ∨ s.nodeCnt.toNat ≤ s.root.toNat) := by
    simp only [Config.nodeMax]; omega
  rw [validTree, if_neg (root_ne_nil hcnt hroot), if_neg hin, h]

/-- A stored tree with nodes in range, all different, and symbols all different is valid. -/
theorem validTree_of_stored {s : State} {T : CodeTree} (h : T.StoredIn s.nodeLink) (hroot : T.root = s.root)
    (hcnt : s.nodeCnt.toNat ≤ 511) (hin : ∀ n ∈ T.nodes, n < s.nodeCnt.toNat) (hnodes : T.nodes.Nodup)
    (hsyms : T.symbols.Nodup) : validTree s = Detail.none := by
  have hlen : T.nodes.length ≤ visitFuel := by
    have := (hnodes.subperm fun n hn => List.mem_range.2 (hin n hn)).length_le
    rw [List.length_range] at this
    exact this.trans (hcnt.trans (by decide))
  have hv := visit_of_stored h hin (v := ⟨[], []⟩) hlen (by simpa using hnodes) (by simpa using hsyms)
  exact validTree_of_visit_ok hcnt (hroot ▸ hin _ T.root_mem_nodes) (hroot ▸ hv)

/-- A valid tree whose nodes have been written is a stored tree. -/
theorem stored_of_validTree {s : State} (h : validTree s = Detail.none) (hroot : s.root ≠ nilIx)
    (hw : s.TreeWritten) :
    ∃ T : CodeTree, T.root = s.root ∧ T.StoredIn s.nodeLink ∧ T.nodes.Nodup ∧ T.symbols.Nodup := by
  rw [validTree, if_neg hroot] at h
  split at h
  · cases h
  cases hv : visit s visitFuel s.root ⟨[], []⟩ with
  | error d =>
    rw [hv] at h
    exact absurd h (visit_error_ne hv)
  | ok v =>
    obtain ⟨T, hT, hs, rfl, hn, hc⟩ := stored_of_visit hv hw
    exact ⟨T, hT, hs, by simpa using hn, by simpa using hc⟩

/-! ### Small trees -/

theorem validTree_of_badRoot {s : State} (h : s.root ≠ nilIx)
    (hbad : 511 < s.nodeCnt.toNat ∨ s.nodeCnt.toNat ≤ s.root.toNat) : validTree s = Detail.badRoot := by
  rw [validTree, if_neg h]
  exact if_pos hbad

theorem validTree_of_leafRoot {s : State} (hcnt : s.nodeCnt.toNat ≤ 511)
    (hroot : s.root.toNat < s.nodeCnt.toNat) (hi : (s.linkAt 0 s.root.toNat).internal = false) :
    validTree s = Detail.none :=
  validTree_of_visit_ok hcnt hroot (visit_leaf (by simp) hi)

section InternalRoot

variable {s : State} {sym : Byte} {l r : NodeIx}

/-- Visit at an Internal root: child0 first, with the root visited. -/
theorem visit_root (hroot : s.linkAt 0 s.root.toNat = ⟨true, sym, l, r⟩) :
    visit s visitFuel s.root ⟨[], []⟩ =
      if s.nodeCnt.toNat ≤ l.toNat then .error Detail.badChild
      else (visit s 511 l ⟨[s.root.toNat], []⟩).bind fun v' =>
        if s.nodeCnt.toNat ≤ r.toNat then .error Detail.badChild else visit s 511 r v' := by
  have h := visit_internal (s := s) (fuel := 511) (n := s.root) (v := ⟨[], []⟩) (by simp) (by rw [hroot])
  rwa [hroot] at h

/-- Visit at an Internal root whose child0 is a Leaf: child1 next. -/
theorem visit_root_leafLeft (hroot : s.linkAt 0 s.root.toNat = ⟨true, sym, l, r⟩)
    (hl : l.toNat < s.nodeCnt.toNat) (hne : l ≠ s.root) (hleaf : (s.linkAt 0 l.toNat).internal = false) :
    visit s visitFuel s.root ⟨[], []⟩ =
      if s.nodeCnt.toNat ≤ r.toNat then .error Detail.badChild
      else visit s 511 r ⟨[l.toNat, s.root.toNat], [(s.linkAt 1 l.toNat).sym]⟩ := by
  have hnew : l.toNat ∉ [s.root.toNat] := by simpa [BitVec.toNat_inj] using hne
  rw [visit_root hroot, if_neg (Nat.not_le.2 hl), visit_leaf hnew hleaf, if_neg (by simp)]
  rfl

end InternalRoot

/-- Settles O31: Visit unfolded at the root, at child0 and at child1, in this order. -/
theorem treeCheckFindsDefects : Obligations.TreeCheckFindsDefects := by
  intro s
  refine ⟨?_, validTree_of_nil, validTree_of_badRoot, fun hcnt hroot => ⟨validTree_of_leafRoot hcnt hroot,
    fun sym l r hlink => ⟨fun hl => ?_, fun hl => ?_, fun hl hne hleaf => ⟨fun hr => ?_, fun hr he => ?_,
      fun hr hne' hrl hleaf' => ?_⟩⟩⟩⟩
  · rw [exec_eq]
    by_cases h : validTree s = 0#8
    · rw [if_pos h, show bodyOf .tcheck s = .done s from if_neg (not_not_intro h)]
      rfl
    · rw [if_neg h, show bodyOf .tcheck s = .raise s .malformed (validTree s) from if_pos h]
      rfl
  · exact validTree_of_visit_error hcnt hroot (by rw [visit_root hlink, if_pos hl]; rfl)
  · subst hl
    refine validTree_of_visit_error hcnt hroot ?_
    rw [visit_root hlink, if_neg (Nat.not_le.2 hroot), visit_visited (by simp)]
    rfl
  · exact validTree_of_visit_error hcnt hroot (by rw [visit_root_leafLeft hlink hl hne hleaf, if_pos hr]; rfl)
  · refine validTree_of_visit_error hcnt hroot ?_
    rw [visit_root_leafLeft hlink hl hne hleaf, if_neg (Nat.not_le.2 hr), visit_visited]
    · rfl
    · rcases he with rfl | rfl <;> simp
  · have hnew : r.toNat ∉ [l.toNat, s.root.toNat] := by simp [BitVec.toNat_inj, hne', hrl]
    have hv := visit_root_leafLeft hlink hl hne hleaf
    rw [if_neg (Nat.not_le.2 hr), visit_leaf hnew hleaf'] at hv
    simp only [List.mem_singleton] at hv
    split at hv
    · next h => rw [if_pos h]; exact validTree_of_visit_error hcnt hroot hv
    · next h => rw [if_neg h]; exact validTree_of_visit_ok hcnt hroot hv

end Sys2Proof.Machine
end

section
/-! The code table: what CODES writes for a tree, written or not (rules R118 to R121). -/

namespace Sys2Proof.Machine

/-! ### A path as a pattern -/

/-- The pattern of a path: its bits as a number, the first sent the most significant (rule R119). -/
def pathNat (bits : List Bool) : Nat := bits.foldl (fun p b => 2 * p + b.toNat) 0

theorem pathNat_concat (bits : List Bool) (b : Bool) : pathNat (bits ++ [b]) = 2 * pathNat bits + b.toNat := by
  simp [pathNat]

theorem pathNat_lt (bits : List Bool) : pathNat bits < 2 ^ bits.length := by
  induction bits using List.reverseRecOn with
  | nil => simp [pathNat]
  | append_singleton bits b ih =>
    rw [pathNat_concat, List.length_append, List.length_singleton, Nat.pow_succ]
    have := Bool.toNat_le b
    omega

theorem pathNat_testBit (bits : List Bool) {j : Nat} (hj : j < bits.length) :
    (pathNat bits).testBit (bits.length - 1 - j) = bits[j] := by
  induction bits using List.reverseRecOn with
  | nil => simp at hj
  | append_singleton bits b ih =>
    simp only [List.length_append, List.length_singleton] at hj ⊢
    rw [pathNat_concat]
    by_cases h : j < bits.length
    · rw [List.getElem_append_left h, ← ih h,
        show bits.length + 1 - 1 - j = (bits.length - 1 - j) + 1 by omega, Nat.testBit_add_one]
      congr 1
      have := Bool.toNat_le b
      omega
    · have hj' : j = bits.length := by omega
      subst hj'
      cases b <;> simp [Nat.testBit_zero] 

/-- Every pattern of a length is that of a path of that length. -/
theorem exists_pathNat (l p : Nat) (hp : p < 2 ^ l) : ∃ bits : List Bool, bits.length = l ∧ pathNat bits = p := by
  induction l generalizing p with
  | zero => exact ⟨[], rfl, by simp [pathNat]; omega⟩
  | succ l ih =>
    obtain ⟨bits, hl, hb⟩ := ih (p / 2) (by rw [Nat.pow_succ] at hp; omega)
    refine ⟨bits ++ [decide (p % 2 = 1)], by simp [hl], ?_⟩
    rw [pathNat_concat, hb]
    by_cases h : p % 2 = 1 <;> simp [h] <;> omega

/-- The first-sent bit order of a path's pattern gives the path back (rules R34, R97). -/
theorem msbFirst_pathNat (bits : List Bool) (h : bits.length ≤ 255) :
    msbFirst (BitVec.ofNat 255 (pathNat bits)) bits.length = bits := by
  apply List.ext_getElem (by simp)
  intro j hj hj'
  rw [msbFirst_getElem, BitVec.getLsbD_ofNat, pathNat_testBit bits hj']
  simp
  omega

/-! ### The code of a symbol -/

/-- The table gives `c` the code `bits`, a code of legal length (rules R32 to R34, R121 (a)). -/
structure State.HasCode (t : State) (c : Byte) (bits : List Bool) : Prop where
  valid : t.validAt c = true
  len : t.codeLen.look c.toNat = some (BitVec.ofNat 8 bits.length)
  pat : t.codePat.look c.toNat = some (BitVec.ofNat 255 (pathNat bits))
  length_pos : 1 ≤ bits.length
  length_le : bits.length ≤ 255

section HasCode

variable {s t : State} {c d : Byte} {bits bits' : List Bool}

theorem State.HasCode.codeLenAt (h : t.HasCode c bits) : (t.codeLenAt c).toNat = bits.length := by
  have := h.length_le
  simp [State.codeLenAt, h.len]
  omega

theorem State.HasCode.codePatAt (h : t.HasCode c bits) : t.codePatAt c = BitVec.ofNat 255 (pathNat bits) := by
  simp [State.codePatAt, h.pat]

theorem State.HasCode.codePatAt_lt (h : t.HasCode c bits) :
    (t.codePatAt c).toNat < 2 ^ (t.codeLenAt c).toNat := by
  rw [h.codePatAt, h.codeLenAt, BitVec.toNat_ofNat]
  exact (Nat.mod_le _ _).trans_lt (pathNat_lt bits)

/-- The bits PUTSYM appends are the code (rule R97). -/
theorem State.HasCode.codeBits (h : t.HasCode c bits) : codeBits t c = bits := by
  rw [Machine.codeBits, h.codePatAt, h.codeLenAt, msbFirst_pathNat bits h.length_le]

theorem State.HasCode.unique (h : t.HasCode c bits) (h' : t.HasCode c bits') : bits = bits' :=
  h.codeBits.symm.trans h'.codeBits

/-- A symbol's code is read from the three parts of the table and nothing else. -/
theorem State.HasCode.congr (h : s.HasCode c bits) (hv : t.codeValid = s.codeValid)
    (hl : t.codeLen = s.codeLen) (hp : t.codePat = s.codePat) : t.HasCode c bits :=
  { h with valid := by rw [State.validAt, hv]; exact h.valid, len := hl ▸ h.len, pat := hp ▸ h.pat }

theorem State.hasCode_writeCode_same (s : State) (c : Byte) (bits : List Bool) (h1 : 1 ≤ bits.length)
    (h2 : bits.length ≤ 255) : (s.writeCode c (pathNat bits) bits.length).HasCode c bits where
  valid := by simp [State.writeCode_validAt]
  len := Memory.look_put_same _ _ _
  pat := Memory.look_put_same _ _ _
  length_pos := h1
  length_le := h2

theorem State.hasCode_writeCode_ne {p l : Nat} (h : d ≠ c) :
    (s.writeCode c p l).HasCode d bits ↔ s.HasCode d bits := by
  have hne : d.toNat ≠ c.toNat := fun e => h (BitVec.eq_of_toNat_eq e)
  have hv : (s.writeCode c p l).validAt d = s.validAt d := by simp [State.writeCode_validAt, h]
  have hl : (s.writeCode c p l).codeLen.look d.toNat = s.codeLen.look d.toNat := Memory.look_put_ne _ _ hne
  have hp : (s.writeCode c p l).codePat.look d.toNat = s.codePat.look d.toNat := Memory.look_put_ne _ _ hne
  exact ⟨fun ⟨a, b, e, f, g⟩ => ⟨hv ▸ a, hl ▸ b, hp ▸ e, f, g⟩,
    fun ⟨a, b, e, f, g⟩ => ⟨hv.trans a, hl.trans b, hp.trans e, f, g⟩⟩

end HasCode

/-! ### Entries without a code -/

/-- CODE_LEN and CODE_PAT are 0 for every symbol without a code (rule R118). -/
def State.BlankWithoutCode (t : State) : Prop :=
  ∀ c : Byte, t.validAt c = false → t.codeLen.look c.toNat = some 0#8 ∧ t.codePat.look c.toNat = some 0#255

theorem State.clearCodes_look (s : State) (c : Byte) :
    s.clearCodes.codeLen.look c.toNat = some 0#8 ∧ s.clearCodes.codePat.look c.toNat = some 0#255 := by
  have hc : c.toNat < Config.alphabet := c.isLt
  simp [Memory.look_tabulate, hc]

theorem State.blank_clearCodes (s : State) : s.clearCodes.BlankWithoutCode := fun c _ => s.clearCodes_look c

theorem State.BlankWithoutCode.writeCode {s : State} (h : s.BlankWithoutCode) (c : Byte) (p l : Nat) :
    (s.writeCode c p l).BlankWithoutCode := by
  intro d hd
  simp only [State.writeCode_validAt, Bool.or_eq_false_iff, decide_eq_false_iff_not] at hd
  have hne : d.toNat ≠ c.toNat := fun e => hd.2 (BitVec.eq_of_toNat_eq e)
  simpa [Memory.look_put_ne _ _ hne] using h d hd.1

theorem State.BlankWithoutCode.walk {s : State} (h : s.BlankWithoutCode) (tree : State) (fuel : Nat)
    (n : NodeIx) (p l : Nat) : (walk tree fuel n p l s).BlankWithoutCode := by
  induction fuel generalizing n p l s with
  | zero => exact h
  | succ fuel ih =>
    simp only [Machine.walk]
    split
    · exact ih (ih h _ _ _) _ _ _
    · exact h.writeCode _ _ _

theorem buildCodes_blank (s : State) : (buildCodes s).BlankWithoutCode := by
  unfold buildCodes
  dsimp only
  split
  · exact s.blank_clearCodes
  · split
    · exact s.blank_clearCodes.walk _ _ _ _ _
    · exact s.blank_clearCodes.writeCode _ _ _

/-! ### CODES, by its root -/

theorem buildCodes_nil {s : State} (h : s.root = nilIx) : buildCodes s = s.clearCodes := if_pos h

theorem buildCodes_internal {s : State} (h : s.root ≠ nilIx)
    (hi : (s.linkAt rootRead s.root.toNat).internal = true) :
    buildCodes s = walk s walkDepth s.root 0 0 s.clearCodes := by
  simp [buildCodes, h, hi]

theorem buildCodes_leaf {s : State} (h : s.root ≠ nilIx)
    (hi : (s.linkAt rootRead s.root.toNat).internal = false) :
    buildCodes s = s.clearCodes.writeCode (s.linkAt rootRead s.root.toNat).sym 0 1 := by
  simp [buildCodes, h, hi]

/-- A CODES of a valid tree completes with the table built (rule R118). -/
theorem exec_codes_valid {s : State} (h : validTree s = 0#8) :
    exec .codes s = .next ((buildCodes s).complete 0x41#8 .ok 0x00#8 false) := by
  rw [exec_eq, show bodyOf .codes s = .done (buildCodes s) from if_neg (not_not_intro h)]
  rfl

theorem exec_codes_invalid {s : State} (h : validTree s ≠ 0#8) :
    exec .codes s = .next (s.complete 0x41#8 .malformed (validTree s) false) := by
  rw [exec_eq, show bodyOf .codes s = .raise s .malformed (validTree s) from if_pos h]
  rfl

/-- Settles O33: each case of the root has its table. -/
theorem codesOfSmallTrees : Obligations.CodesOfSmallTrees := by
  intro s
  refine ⟨exec_codes_invalid, fun h => ⟨_, exec_codes_valid (validTree_of_nil h), rfl, ?_, ?_⟩,
    fun e hcnt hroot he hi => ⟨_, exec_codes_valid (validTree_of_leafRoot hcnt hroot ?_), rfl, ?_⟩⟩
  · rw [buildCodes_nil h]; rfl
  · rw [buildCodes_nil h]; exact s.clearCodes_look
  · rw [linkAt_of_look he, hi]
  · have hb := buildCodes_leaf (root_ne_nil hcnt hroot) (by rw [linkAt_of_look he, hi])
    rw [linkAt_of_look he] at hb
    have hv : ∀ c : Byte, (buildCodes s).validAt c = decide (c = e.sym) := fun c => by
      simp [hb, State.writeCode_validAt]
    refine ⟨hv, ?_, ?_, fun c hc => buildCodes_blank s c (by simp [hv, hc])⟩
    · rw [hb]; exact Memory.look_put_same _ _ _
    · rw [hb]; exact Memory.look_put_same _ _ _

/-! ### The walk of a stored tree -/

/-- Each path written as the code of its symbol, in order. -/
def State.writePaths (s : State) (paths : List (List Bool × Byte)) : State :=
  paths.foldl (fun s x => s.writeCode x.2 (pathNat x.1) x.1.length) s

theorem State.writePaths_append (s : State) (a b : List (List Bool × Byte)) :
    s.writePaths (a ++ b) = (s.writePaths a).writePaths b := List.foldl_append

/-- The paths of a subtree, as they continue the path to it. -/
def CodeTree.pathsFrom (T : CodeTree) (pre : List Bool) : List (List Bool × Byte) :=
  T.paths.map fun x => (pre ++ x.1, x.2)

theorem CodeTree.pathsFrom_node (n : NodeIx) (l r : CodeTree) (pre : List Bool) :
    (CodeTree.node n l r).pathsFrom pre = l.pathsFrom (pre ++ [false]) ++ r.pathsFrom (pre ++ [true]) := by
  simp [CodeTree.pathsFrom, CodeTree.paths, Function.comp_def]

theorem CodeTree.pathsFrom_nil (T : CodeTree) : T.pathsFrom [] = T.paths := by simp [CodeTree.pathsFrom]

theorem walk_internal {tree s : State} {fuel p l : Nat} {n : NodeIx}
    (h : (tree.linkAt (walkRead p l) n.toNat).internal = true) :
    walk tree (fuel + 1) n p l s = walk tree fuel (tree.linkAt (walkRead p l) n.toNat).right (2 * p + 1) (l + 1)
      (walk tree fuel (tree.linkAt (walkRead p l) n.toNat).left (2 * p) (l + 1) s) := if_pos h

theorem walk_leaf {tree s : State} {fuel p l : Nat} {n : NodeIx}
    (h : (tree.linkAt (walkRead p l) n.toNat).internal = false) :
    walk tree (fuel + 1) n p l s = s.writeCode (tree.linkAt (walkRead p l) n.toNat).sym (leafCode tree p l).1
      (leafCode tree p l).2 := if_neg (by simp [h])

/-- Walk gives every Leaf of a stored tree its path, in whichever state the table is written (rule R119). -/
theorem walk_of_stored {tree : State} {T : CodeTree} (h : T.StoredIn tree.nodeLink) {fuel : Nat}
    (pre : List Bool) (hfuel : ∀ x ∈ T.paths, x.1.length < fuel) (hpre : ∀ n c, T = .leaf n c → pre ≠ [])
    (s : State) :
    walk tree fuel T.root (pathNat pre) pre.length s = s.writePaths (T.pathsFrom pre) := by
  induction T generalizing fuel pre s with
  | leaf n c =>
    obtain ⟨e, he, hi, hc⟩ := h
    obtain ⟨fuel, rfl⟩ : ∃ k, fuel = k + 1 :=
      ⟨fuel - 1, by have := hfuel ([], c) (by simp [CodeTree.paths]); simp at this; omega⟩
    have hpos : 0 < pre.length := List.length_pos_of_ne_nil (hpre n c rfl)
    have hlink := linkAt_of_look he (walkRead (pathNat pre) pre.length)
    rw [CodeTree.root_leaf, walk_leaf (by rw [hlink, hi]), hlink, hc, leafCode_of_pos hpos]
    simp [CodeTree.pathsFrom, CodeTree.paths, State.writePaths]
  | node n l r ihl ihr =>
    obtain ⟨e, he, hi, hl, hr, hsl, hsr⟩ := h
    obtain ⟨fuel, rfl⟩ : ∃ k, fuel = k + 1 := by
      obtain ⟨x, hx⟩ := (CodeTree.node n l r).exists_mem_paths
      exact ⟨fuel - 1, by have := hfuel x hx; omega⟩
    have hlink := linkAt_of_look he (walkRead (pathNat pre) pre.length)
    have hleft := ihl hsl (fuel := fuel) (pre ++ [false])
      (fun x hx => by simpa using hfuel (false :: x.1, x.2) (by simp [CodeTree.paths, hx]))
      (fun _ _ _ => by simp) s
    have hright := ihr hsr (fuel := fuel) (pre ++ [true])
      (fun x hx => by simpa using hfuel (true :: x.1, x.2) (by simp [CodeTree.paths, hx]))
      (fun _ _ _ => by simp) (s.writePaths (l.pathsFrom (pre ++ [false])))
    simp only [pathNat_concat, List.length_append, List.length_singleton, Bool.toNat_false, Bool.toNat_true,
      Nat.add_zero] at hleft hright
    rw [CodeTree.root_node, walk_internal (by rw [hlink, hi]), hlink, hl, hr, hleft, hright,
      CodeTree.pathsFrom_node, State.writePaths_append]

theorem State.writePaths_cons (s : State) (x : List Bool × Byte) (paths : List (List Bool × Byte)) :
    s.writePaths (x :: paths) = (s.writeCode x.2 (pathNat x.1) x.1.length).writePaths paths := rfl

/-- A symbol of no path keeps what the table says of it. -/
theorem State.writePaths_of_notMem {s : State} {paths : List (List Bool × Byte)} {c : Byte}
    (h : c ∉ paths.map Prod.snd) :
    (s.writePaths paths).validAt c = s.validAt c ∧
      ∀ bits, (s.writePaths paths).HasCode c bits ↔ s.HasCode c bits := by
  induction paths generalizing s with
  | nil => exact ⟨rfl, fun _ => Iff.rfl⟩
  | cons x paths ih =>
    simp only [List.map_cons, List.mem_cons, not_or] at h
    obtain ⟨hv, hc⟩ := ih (s := s.writeCode x.2 (pathNat x.1) x.1.length) h.2
    rw [State.writePaths_cons]
    exact ⟨by simp [hv, State.writeCode_validAt, h.1],
      fun bits => (hc bits).trans (State.hasCode_writeCode_ne h.1)⟩

/-- Where no symbol is twice, each path becomes the code of its symbol. -/
theorem State.hasCode_writePaths {s : State} {paths : List (List Bool × Byte)}
    (hnd : (paths.map Prod.snd).Nodup) (hlen : ∀ x ∈ paths, 1 ≤ x.1.length ∧ x.1.length ≤ 255)
    {x : List Bool × Byte} (hx : x ∈ paths) : (s.writePaths paths).HasCode x.2 x.1 := by
  induction paths generalizing s with
  | nil => simp at hx
  | cons y paths ih =>
    obtain ⟨hy, hnd⟩ := List.nodup_cons.1 hnd
    rw [State.writePaths_cons]
    rcases List.mem_cons.1 hx with rfl | hx
    · exact ((State.writePaths_of_notMem hy).2 _).2
        (s.hasCode_writeCode_same _ _ (hlen x (by simp)).1 (hlen x (by simp)).2)
    · exact ih hnd (fun z hz => hlen z (by simp [hz])) hx

/-- The tree has an Internal node at its root: every path has a bit. -/
theorem CodeTree.length_pos_of_internal {s : State} {T : CodeTree} (h : T.StoredIn s.nodeLink)
    (hi : (s.linkAt 0 T.root.toNat).internal = true) : (∀ x ∈ T.paths, 1 ≤ x.1.length) ∧
      ∀ n c, T ≠ .leaf n c := by
  cases T with
  | leaf n c =>
    obtain ⟨e, he, hf, -⟩ := h
    rw [CodeTree.root_leaf, linkAt_of_look he, hf] at hi
    cases hi
  | node n l r =>
    refine ⟨fun x hx => ?_, by simp⟩
    simp only [CodeTree.paths, List.mem_append, List.mem_map] at hx
    rcases hx with ⟨y, -, rfl⟩ | ⟨y, -, rfl⟩ <;> simp

/-- CODES of a stored tree with an Internal root writes its paths (rules R118, R119). -/
theorem buildCodes_of_stored {s : State} {T : CodeTree} (h : T.StoredIn s.nodeLink) (hroot : T.root = s.root)
    (hne : s.root ≠ nilIx) (hi : (s.linkAt 0 s.root.toNat).internal = true) (hsyms : T.symbols.Nodup) :
    buildCodes s = s.clearCodes.writePaths T.paths := by
  have hread : s.linkAt rootRead s.root.toNat = s.linkAt 0 s.root.toNat :=
    linkAt_read (hroot ▸ h.root_written) _ _
  rw [← hroot] at hi
  have hwalk := walk_of_stored h (fuel := walkDepth) [] (fun x hx =>
    Nat.lt_succ_of_le (CodeTree.length_le_of_mem_paths hsyms hx))
    (fun n c e => absurd e ((CodeTree.length_pos_of_internal h hi).2 n c)) s.clearCodes
  rw [buildCodes_internal hne (by rw [hread, ← hroot, hi]), ← hroot, ← T.pathsFrom_nil]
  exact hwalk

/-- The code table of such a tree: each symbol of a Leaf has its path, no other symbol a code. -/
theorem buildCodes_hasCode {s : State} {T : CodeTree} (h : T.StoredIn s.nodeLink) (hroot : T.root = s.root)
    (hne : s.root ≠ nilIx) (hi : (s.linkAt 0 s.root.toNat).internal = true) (hsyms : T.symbols.Nodup) :
    (∀ bits c, (bits, c) ∈ T.paths → (buildCodes s).HasCode c bits) ∧
      ∀ c, (buildCodes s).validAt c = true → c ∈ T.symbols := by
  rw [buildCodes_of_stored h hroot hne hi hsyms]
  rw [← hroot] at hi
  have hpos := (CodeTree.length_pos_of_internal h hi).1
  refine ⟨fun bits c hb => State.hasCode_writePaths hsyms (fun x hx =>
    ⟨hpos x hx, CodeTree.length_le_of_mem_paths hsyms hx⟩) hb, fun c hc => ?_⟩
  by_contra hmem
  rw [(State.writePaths_of_notMem hmem).1] at hc
  simp at hc

/-- The codes of a tree: the paths, or the one-bit code 0 for a single Leaf (rules R119, R120). -/
def CodeTree.codes : CodeTree → List (List Bool × Byte)
  | .leaf _ c => [([false], c)]
  | .node n l r => (CodeTree.node n l r).paths

theorem CodeTree.codes_symbols (T : CodeTree) : T.codes.map Prod.snd = T.symbols := by
  cases T <;> rfl

theorem CodeTree.codes_length {T : CodeTree} (hT : T.symbols.Nodup) :
    ∀ x ∈ T.codes, 1 ≤ x.1.length ∧ x.1.length ≤ 255 := by
  intro x hx
  cases T with
  | leaf n c =>
    rw [List.mem_singleton.1 hx]
    exact ⟨Nat.le_refl 1, by simp⟩
  | node n l r =>
    refine ⟨?_, CodeTree.length_le_of_mem_paths hT hx⟩
    rcases List.mem_append.1 hx with h | h <;> obtain ⟨y, -, rfl⟩ := List.mem_map.1 h <;> simp

/-- CODES of a stored tree writes its codes, whatever its root (rules R118 to R120). -/
theorem buildCodes_eq_writePaths {s : State} {T : CodeTree} (h : T.StoredIn s.nodeLink) (hroot : T.root = s.root)
    (hne : s.root ≠ nilIx) (hsyms : T.symbols.Nodup) : buildCodes s = s.clearCodes.writePaths T.codes := by
  cases T with
  | leaf n c =>
    obtain ⟨e, he, hi, rfl⟩ := h
    rw [CodeTree.root_leaf] at hroot
    have hlink := linkAt_of_look (hroot ▸ he) rootRead
    rw [buildCodes_leaf hne (by rw [hlink, hi]), hlink]
    rfl
  | node n l r =>
    obtain ⟨e, he, hi, -⟩ := id h
    rw [CodeTree.root_node] at hroot
    exact buildCodes_of_stored h hroot hne (by rw [linkAt_of_look (hroot ▸ he), hi]) hsyms

/-- Each code of a stored tree stands in the table CODES leaves. -/
theorem buildCodes_codes {s : State} {T : CodeTree} (h : T.StoredIn s.nodeLink) (hroot : T.root = s.root)
    (hne : s.root ≠ nilIx) (hsyms : T.symbols.Nodup) {bits : List Bool} {c : Byte} (hc : (bits, c) ∈ T.codes) :
    (buildCodes s).HasCode c bits := by
  rw [buildCodes_eq_writePaths h hroot hne hsyms]
  exact State.hasCode_writePaths (T.codes_symbols ▸ hsyms) (CodeTree.codes_length hsyms) hc

/-- Settles O34: the tree below the root is stored, so Walk writes its paths, which are those of rule R72. -/
theorem codesAreThePaths : Obligations.CodesAreThePaths := by
  intro s hvalid
  refine ⟨_, exec_codes_valid hvalid, ?_, buildCodes_blank s, fun hne hw hi => ?_⟩
  · obtain ⟨_, _, _, h⟩ := buildCodes_only s
    rw [h]
    rfl
  · obtain ⟨T, hroot, hs, -, hsyms⟩ := stored_of_validTree hvalid hne hw
    obtain ⟨hcode, hnone⟩ := buildCodes_hasCode hs hroot hne hi hsyms
    refine ⟨fun bits c hp => ?_, fun c hc => ?_⟩
    · have hc := hcode bits c ((hs.isPath_iff hroot bits c).1 hp)
      exact ⟨hc.valid, hc.length_pos, hc.length_le, hc.len, _, hc.pat, msbFirst_pathNat bits hc.length_le⟩
    · obtain ⟨⟨bits, d⟩, hmem, rfl⟩ := List.mem_map.1 (hnone c hc)
      exact ⟨bits, (hs.isPath_iff hroot bits d).2 hmem⟩

/-! ### Prefix freedom of every walk, also of a tree read anew at each call -/

/-- Neither list begins with the other. -/
def Apart (a b : List Bool) : Prop := ¬ a <+: b ∧ ¬ b <+: a

/-- What is apart from a path is apart from what continues it. -/
theorem Apart.append_right {a b : List Bool} (h : Apart a b) (c : List Bool) : Apart a (b ++ c) := by
  refine ⟨fun hp => ?_, fun hp => h.2 ((List.prefix_append b c).trans hp)⟩
  rcases List.prefix_or_prefix_of_prefix hp (List.prefix_append b c) with h' | h'
  · exact h.1 h'
  · exact h.2 h'

/-- Two ways on from a path are apart. -/
theorem apart_of_branch {a b : List Bool} {pre : List Bool} (ha : pre ++ [false] <+: a)
    (hb : b = pre ++ [true]) : Apart a b := by
  obtain ⟨x, rfl⟩ := ha
  subst hb
  constructor <;> simp [List.append_assoc, List.prefix_append_right_inj]

/-- Every valid entry of the table is a code and no two symbols' codes are prefixes (rule R121). -/
structure State.PrefixFree (t : State) : Prop where
  coded : ∀ c, t.validAt c = true → ∃ bits, t.HasCode c bits
  apart : ∀ c d a b, c ≠ d → t.HasCode c a → t.HasCode d b → Apart a b

theorem State.clearCodes_prefixFree (s : State) : s.clearCodes.PrefixFree where
  coded := by simp
  apart := fun c d a b _ h => absurd h.valid (by simp)

theorem State.PrefixFree.writeCode {s : State} (h : s.PrefixFree) {c : Byte} {bits : List Bool}
    (h1 : 1 ≤ bits.length) (h2 : bits.length ≤ 255)
    (hap : ∀ d a, d ≠ c → s.HasCode d a → Apart a bits) :
    (s.writeCode c (pathNat bits) bits.length).PrefixFree := by
  have hcode := s.hasCode_writeCode_same c bits h1 h2
  refine ⟨fun d hd => ?_, fun d e a b hne ha hb => ?_⟩
  · by_cases hdc : d = c
    · exact ⟨bits, hdc ▸ hcode⟩
    · rw [State.writeCode_validAt, decide_eq_false hdc, Bool.or_false] at hd
      obtain ⟨a, ha⟩ := h.coded d hd
      exact ⟨a, (State.hasCode_writeCode_ne hdc).2 ha⟩
  · by_cases hdc : d = c
    · subst hdc
      rw [ha.unique hcode]
      have := hap e b hne.symm ((State.hasCode_writeCode_ne hne.symm).1 hb)
      exact ⟨this.2, this.1⟩
    · rw [State.hasCode_writeCode_ne hdc] at ha
      by_cases hec : e = c
      · subst hec
        rw [hb.unique hcode]
        exact hap d a hdc ha
      · exact h.apart d e a b hne ha ((State.hasCode_writeCode_ne hec).1 hb)

/-- A walk from a path keeps its codes apart if every code is apart from the path: each code it leaves is
one from before or continues the path. -/
theorem walk_prefixFree (tree : State) {fuel : Nat} (n : NodeIx) {pre : List Bool} {s : State}
    (h : s.PrefixFree) (hpre : pre ≠ []) (hfuel : fuel + pre.length ≤ walkDepth)
    (hap : ∀ c a, s.HasCode c a → Apart a pre) :
    (walk tree fuel n (pathNat pre) pre.length s).PrefixFree ∧
      ∀ c a, (walk tree fuel n (pathNat pre) pre.length s).HasCode c a → s.HasCode c a ∨ pre <+: a := by
  induction fuel generalizing n pre s with
  | zero => exact ⟨h, fun c a ha => .inl ha⟩
  | succ fuel ih =>
    have hpos : 0 < pre.length := List.length_pos_of_ne_nil hpre
    have hmax : walkDepth = 256 := rfl
    cases hi : (tree.linkAt (walkRead (pathNat pre) pre.length) n.toNat).internal with
    | true =>
      rw [walk_internal hi]
      obtain ⟨hl, hlc⟩ := ih (tree.linkAt (walkRead (pathNat pre) pre.length) n.toNat).left
        (pre := pre ++ [false]) h (by simp) (by simp; omega)
        fun c a ha => (hap c a ha).append_right _
      obtain ⟨hr, hrc⟩ := ih (tree.linkAt (walkRead (pathNat pre) pre.length) n.toNat).right
        (pre := pre ++ [true]) hl (by simp) (by simp; omega)
        fun c a ha => (hlc c a ha).elim (fun ha => (hap c a ha).append_right _) fun ha => apart_of_branch ha rfl
      simp only [pathNat_concat, List.length_append, List.length_singleton, Bool.toNat_false,
        Bool.toNat_true, Nat.add_zero] at hlc hr hrc
      refine ⟨hr, fun c a ha => ?_⟩
      rcases hrc c a ha with ha | ha
      · exact (hlc c a ha).imp_right (List.prefix_append _ _).trans
      · exact .inr ((List.prefix_append _ _).trans ha)
    | false =>
      rw [walk_leaf hi, leafCode_of_pos hpos]
      refine ⟨h.writeCode hpos (by omega) fun d a _ ha => hap d a ha, fun c a ha => ?_⟩
      by_cases hc : c = (tree.linkAt (walkRead (pathNat pre) pre.length) n.toNat).sym
      · rw [hc] at ha
        exact .inr (ha.unique (s.hasCode_writeCode_same _ pre hpos (by omega)) ▸ List.prefix_refl _)
      · exact .inl ((State.hasCode_writeCode_ne hc).1 ha)

/-- The one code of a table just cleared is apart from no other. -/
theorem clearCodes_writeCode_prefixFree (s : State) (c : Byte) {p l : Nat} (h1 : 1 ≤ l) (h2 : l ≤ 255)
    (hp : p < 2 ^ l) : (s.clearCodes.writeCode c p l).PrefixFree := by
  obtain ⟨bits, rfl, rfl⟩ := exists_pathNat l p hp
  exact s.clearCodes_prefixFree.writeCode h1 h2 fun d a _ ha => absurd ha.valid (by simp)

/-- Rule R121 of every CODES: the root's children are walked from the paths 0 and 1; a root re-read as a Leaf
leaves one code. -/
theorem buildCodes_prefixFree (s : State) : (buildCodes s).PrefixFree := by
  by_cases hroot : s.root = nilIx
  · rw [buildCodes_nil hroot]
    exact s.clearCodes_prefixFree
  cases hi : (s.linkAt rootRead s.root.toNat).internal with
  | false =>
    rw [buildCodes_leaf hroot hi]
    exact clearCodes_writeCode_prefixFree s _ le_rfl (by decide) (by decide)
  | true =>
    rw [buildCodes_internal hroot hi]
    rw [show walkDepth = 255 + 1 from rfl]
    cases hi' : (s.linkAt (walkRead 0 0) s.root.toNat).internal with
    | true =>
      rw [walk_internal hi']
      obtain ⟨hl, hlc⟩ := walk_prefixFree s (fuel := 255) (s.linkAt (walkRead 0 0) s.root.toNat).left
        (pre := [false]) s.clearCodes_prefixFree (by simp) le_rfl
        fun c a ha => absurd ha.valid (by simp)
      exact (walk_prefixFree s (fuel := 255) (s.linkAt (walkRead 0 0) s.root.toNat).right
        (pre := [true]) hl (by simp) le_rfl fun c a ha => (hlc c a ha).elim
          (fun ha => absurd ha.valid (by simp)) fun ha => apart_of_branch (pre := []) ha rfl).1
    | false =>
      rw [walk_leaf hi']
      obtain ⟨h1, h2, h3⟩ := leafCode_range (tree := s) (p := 0) (l := 0) (by decide) (by decide)
      exact clearCodes_writeCode_prefixFree s _ h1 h2 h3

/-- Settles O35: the completion keeps the table, and the codes of valid entries are what they say. -/
theorem codesArePrefixFree : Obligations.CodesArePrefixFree := by
  intro s t h hok
  by_cases hvalid : validTree s = 0#8
  · rw [exec_codes_valid hvalid] at h
    cases h
    have hpf := buildCodes_prefixFree s
    have coded : ∀ c, ((buildCodes s).complete 0x41#8 .ok 0x00#8 false).validAt c = true → ∃ bits,
        ((buildCodes s).complete 0x41#8 .ok 0x00#8 false).HasCode c bits ∧ (buildCodes s).HasCode c bits := by
      intro c hc
      obtain ⟨bits, hb⟩ := hpf.coded c hc
      exact ⟨bits, hb.congr rfl rfl rfl, hb⟩
    refine ⟨fun c hc => ?_, fun c d hc hd hne => ?_⟩
    · obtain ⟨bits, hb, -⟩ := coded c hc
      exact ⟨hb.codeLenAt ▸ hb.length_pos, hb.codePatAt_lt⟩
    · obtain ⟨a, ha, ha'⟩ := coded c hc
      obtain ⟨b, hb, hb'⟩ := coded d hd
      rw [ha.codeBits, hb.codeBits]
      exact (hpf.apart c d a b hne ha' hb').1
  · rw [exec_codes_invalid hvalid] at h
    cases h
    cases hok

end Sys2Proof.Machine
end

section
/-! BUILD: the writes it makes as a list, and the tree it leaves (rules R107 to R113). -/

namespace Sys2Proof.Machine

/-! ### A run of node writes -/

/-- The entry a node write puts at an index. -/
structure NodeWrite where
  index : Nat
  link : NodeLink
  weight : Word

/-- Node writes in order. -/
def State.writeNodes (s : State) (ws : List NodeWrite) : State :=
  ws.foldl (fun s w => s.writeNode w.index w.link w.weight) s

@[simp] theorem State.writeNodes_nil (s : State) : s.writeNodes [] = s := rfl

theorem State.writeNodes_cons (s : State) (w : NodeWrite) (ws : List NodeWrite) :
    s.writeNodes (w :: ws) = (s.writeNode w.index w.link w.weight).writeNodes ws := rfl

theorem State.writeNodes_append (s : State) (a b : List NodeWrite) :
    s.writeNodes (a ++ b) = (s.writeNodes a).writeNodes b := List.foldl_append

theorem State.writeNodes_only (s : State) (ws : List NodeWrite) : OnlyNodes s (s.writeNodes ws) := by
  induction ws generalizing s with
  | nil => exact .refl s
  | cons w ws ih => exact (writeNode_only s _ _ _).trans (ih _)

theorem State.writeNode_look (s : State) {i : Nat} (hi : i < Config.nodeMax) (e : NodeLink) (v : Word) (j : Nat) :
    (s.writeNode i e v).nodeLink.look j = (if j = i then some e else s.nodeLink.look j) ∧
      (s.writeNode i e v).nodeWeight.look j = (if j = i then some v else s.nodeWeight.look j) := by
  simp only [State.writeNode, State.writeWeight_nodeLink, State.writeLink_nodeLink,
    State.writeWeight_nodeWeight, State.writeLink_nodeWeight, if_pos hi, Memory.look_put, and_self]

/-- Two memories read alike, in both words of an entry. -/
def State.SameNode (s t : State) (j : Nat) : Prop :=
  s.nodeLink.look j = t.nodeLink.look j ∧ s.nodeWeight.look j = t.nodeWeight.look j

theorem State.SameNode.trans {s t u : State} {j : Nat} (h : s.SameNode t j) (k : t.SameNode u j) :
    s.SameNode u j := ⟨h.1.trans k.1, h.2.trans k.2⟩

/-- An index no write names keeps its entry. -/
theorem State.writeNodes_other {s : State} {ws : List NodeWrite} {j : Nat} (h : ∀ w ∈ ws, w.index ≠ j) :
    (s.writeNodes ws).SameNode s j := by
  induction ws generalizing s with
  | nil => exact ⟨rfl, rfl⟩
  | cons w ws ih =>
    rw [State.writeNodes_cons]
    refine (ih fun x hx => h x (by simp [hx])).trans ?_
    have hne : j ≠ w.index := (h w (by simp)).symm
    unfold State.SameNode
    simp only [State.writeNode, State.writeWeight_nodeLink, State.writeLink_nodeLink,
      State.writeWeight_nodeWeight, State.writeLink_nodeWeight, Memory.look_ite_put_ne _ hne, and_self]

/-- What the writes leave at an index they name does not depend on the state before. -/
theorem State.writeNodes_same (s t : State) {ws : List NodeWrite} {j : Nat} (hj : j < Config.nodeMax)
    (h : ∃ w ∈ ws, w.index = j) : (s.writeNodes ws).SameNode (t.writeNodes ws) j := by
  have key : ∀ (ws : List NodeWrite) (s t : State), s.SameNode t j ∨ (∃ w ∈ ws, w.index = j) →
      (s.writeNodes ws).SameNode (t.writeNodes ws) j := by
    intro ws
    induction ws with
    | nil => exact fun s t h => h.elim id fun ⟨w, hw, _⟩ => absurd hw (by simp)
    | cons w ws ih =>
      intro s t h
      rw [State.writeNodes_cons, State.writeNodes_cons]
      apply ih
      by_cases hw : w.index = j
      · subst hw
        simp [State.SameNode, State.writeNode_look _ hj]
      · refine h.imp (fun h => ?_) fun ⟨x, hx, hxj⟩ => ⟨x, ?_, hxj⟩
        · exact ((State.writeNodes_other (s := s) (ws := [w]) (by simpa using hw)).trans h).trans
            ((fun k => ⟨k.1.symm, k.2.symm⟩ : _ → _)
              (State.writeNodes_other (s := t) (ws := [w]) (by simpa using hw)))
        · rcases List.mem_cons.1 hx with rfl | hx
          · exact absurd hxj hw
          · exact hx
  exact key ws s t (.inr h)

/-! ### The writes of BUILD -/

/-- The Leaves of `leaves`, numbered from 0, with their weights (rule R110). -/
def leafWrites (freq : Nat → Word) (leaves : List Nat) : List NodeWrite :=
  leaves.zipIdx.map fun x => ⟨x.2, NodeLink.leaf (BitVec.ofNat 8 x.1), freq x.1⟩

theorem placeLeaves_eq (freq : Nat → Word) (leaves : List Nat) (s : State) :
    leaves.zipIdx.foldl (placeLeaf freq) s = s.writeNodes (leafWrites freq leaves) := by
  rw [State.writeNodes, leafWrites, List.foldl_map]
  rfl

/-- The Internal nodes the merge loop writes, with `weigh` giving the WEIGHT of a sum at an index. -/
def mergeWrites (weigh : Nat → Nat → Word) : Nat → List QEntry → Nat → Nat → List NodeWrite
  | fuel + 1, x :: y :: q, next, m =>
    ⟨next, NodeLink.inner (BitVec.ofNat 9 x.index) (BitVec.ofNat 9 y.index), weigh next (x.weight + y.weight)⟩ ::
      mergeWrites weigh fuel (enqueue ⟨x.weight + y.weight, Config.alphabet + m, next⟩ q) (next + 1) (m + 1)
  | _, _, _, _ => []

theorem mergedWeight_writeNode (s : State) (i : Nat) (e : NodeLink) (v : Word) :
    mergedWeight (s.writeNode i e v) = mergedWeight s := by
  funext next sum
  simp [mergedWeight, State.writeNode]

theorem mergedWeight_writeNodes (s : State) (ws : List NodeWrite) :
    mergedWeight (s.writeNodes ws) = mergedWeight s := by
  induction ws generalizing s with
  | nil => rfl
  | cons w ws ih => rw [State.writeNodes_cons, ih, mergedWeight_writeNode]

theorem mergeLoop_eq (fuel : Nat) (q : List QEntry) (next m : Nat) (s : State) :
    mergeLoop fuel q next m s = s.writeNodes (mergeWrites (mergedWeight s) fuel q next m) := by
  induction fuel generalizing q next m s with
  | zero => rfl
  | succ fuel ih =>
    match q with
    | [] => rfl
    | [_] => rfl
    | x :: y :: q =>
      rw [mergeLoop, ih, mergedWeight_writeNode]
      rfl

/-- Each merge writes one node and takes one entry off the queue (rule R114). -/
theorem mergeWrites_indices (weigh : Nat → Nat → Word) {fuel : Nat} {q : List QEntry} (next m : Nat)
    (hfuel : q.length ≤ fuel) :
    (mergeWrites weigh fuel q next m).map NodeWrite.index = List.range' next (q.length - 1) := by
  induction fuel generalizing q next m with
  | zero => simp_all [mergeWrites]
  | succ fuel ih =>
    match q with
    | [] => rfl
    | [_] => rfl
    | x :: y :: q =>
      have hlen : (x :: y :: q).length - 1 = q.length + 1 := rfl
      rw [mergeWrites, List.map_cons, ih _ _ (by rw [enqueue_length]; simpa using hfuel), enqueue_length, hlen,
        List.range'_succ]
      rfl

/-- Weights that fit 32 bits together are never lost to a merge (rule R112). -/
theorem mergeWrites_weigh {weigh : Nat → Nat → Word}
    (h : ∀ next sum, sum < 2 ^ 32 → weigh next sum = BitVec.ofNat 32 sum) {fuel : Nat} {q : List QEntry}
    (next m : Nat) (hsum : (q.map QEntry.weight).sum < 2 ^ 32) :
    mergeWrites weigh fuel q next m = mergeWrites (fun _ sum => BitVec.ofNat 32 sum) fuel q next m := by
  induction fuel generalizing q next m with
  | zero => rfl
  | succ fuel ih =>
    match q with
    | [] => rfl
    | [_] => rfl
    | x :: y :: q =>
      simp only [List.map_cons, List.sum_cons] at hsum
      have hq : ((enqueue ⟨x.weight + y.weight, Config.alphabet + m, next⟩ q).map QEntry.weight).sum =
          x.weight + y.weight + (q.map QEntry.weight).sum := by
        rw [((enqueue_perm _ q).map _).sum_eq, List.map_cons, List.sum_cons]
      rw [mergeWrites, mergeWrites, ih _ _ (by omega), h _ _ (by omega)]

/-- All node writes of a BUILD: its leaves, then its merges (rules R110, R112). -/
def buildWrites (s : State) : List NodeWrite :=
  leafWrites (s.freqAt 2) (leafSymbols s) ++
    mergeWrites (mergedWeight s) (leafSymbols s).length (leafQueue s) (leafSymbols s).length 0

/-- BUILD with at least one leaf: the codes gone, the nodes written, the registers set (rule R112). -/
theorem buildTree_eq {s : State} (h : leafSymbols s ≠ []) :
    buildTree s = { s.invalidateCodes.writeNodes (buildWrites s) with
      root := BitVec.ofNat 9 (2 * (leafSymbols s).length - 2)
      nodeCnt := BitVec.ofNat 10 (2 * (leafSymbols s).length - 1)
      symCnt := BitVec.ofNat 32 (totalWeight s) } := by
  have hk : (leafSymbols s).length ≠ 0 := by simpa using h
  rw [buildTree, if_neg hk, mergeLoop_eq, placeLeaves_eq, buildWrites, State.writeNodes_append,
    mergedWeight_writeNodes]
  rfl

theorem buildTree_empty {s : State} (h : leafSymbols s = []) :
    buildTree s = { s.invalidateCodes with root := nilIx, nodeCnt := 0#10, symCnt := 0#32 } := by
  rw [buildTree, h]
  rfl

theorem leafSymbols_length_le (s : State) : (leafSymbols s).length ≤ 256 := by
  have := List.length_filter_le (fun c => decide (s.freqAt 1 c ≠ 0#32)) (List.range Config.alphabet)
  rwa [List.length_range] at this

/-- BUILD writes the nodes 0 to 2k−2, in this order (rule R110). -/
theorem buildWrites_indices (s : State) :
    (buildWrites s).map NodeWrite.index = List.range (2 * (leafSymbols s).length - 1) := by
  rw [buildWrites, List.map_append, mergeWrites_indices _ _ _ (leafQueue_length s).le, leafQueue_length,
    leafWrites, List.map_map]
  have hl : (leafSymbols s).zipIdx.map (NodeWrite.index ∘ fun x =>
      ⟨x.2, NodeLink.leaf (BitVec.ofNat 8 x.1), s.freqAt 2 x.1⟩) = List.range (leafSymbols s).length := by
    rw [List.range_eq_range', ← List.zipIdx_map_snd 0 (leafSymbols s)]
    rfl
  have happ := List.range'_append_1 (s := 0) (m := (leafSymbols s).length) (n := (leafSymbols s).length - 1)
  rw [Nat.zero_add] at happ
  rw [hl, List.range_eq_range', List.range_eq_range', happ]
  congr 1
  omega

end Sys2Proof.Machine
end

section
/-! The tree of BUILD: the forest the merge loop keeps, and that one valid tree is left (rules R107 to R113). -/

namespace Sys2Proof.Machine

/-! ### The leaves and the queue -/

theorem mem_leafSymbols {s : State} {c : Nat} :
    c ∈ leafSymbols s ↔ c < 256 ∧ s.freqAt 1 c ≠ 0#32 := by
  simp [leafSymbols, Config.alphabet]

theorem leafSymbols_nodup (s : State) : (leafSymbols s).Nodup := List.nodup_range.filter _

/-- The leaf symbols as bytes. -/
def leafBytes (s : State) : List Byte := (leafSymbols s).map (BitVec.ofNat 8)

theorem leafBytes_nodup (s : State) : (leafBytes s).Nodup := by
  refine List.Nodup.map_on (fun a ha b hb h => ?_) (leafSymbols_nodup s)
  have ha := (mem_leafSymbols.1 ha).1
  have hb := (mem_leafSymbols.1 hb).1
  have h := congrArg BitVec.toNat h
  rwa [BitVec.toNat_ofNat, BitVec.toNat_ofNat, Nat.mod_eq_of_lt ha, Nat.mod_eq_of_lt hb] at h

theorem mem_leafBytes {s : State} {c : Byte} : c ∈ leafBytes s ↔ s.freqAt 1 c.toNat ≠ 0#32 := by
  have hc : c.toNat < 256 := c.isLt
  simp only [leafBytes, List.mem_map, mem_leafSymbols]
  refine ⟨fun ⟨n, ⟨hn, hf⟩, e⟩ => ?_, fun h => ⟨c.toNat, ⟨hc, h⟩, by simp⟩⟩
  rw [← e, BitVec.toNat_ofNat, Nat.mod_eq_of_lt hn]
  exact hf

/-- The queue holds one entry per leaf, in whichever order they went in (rule R112). -/
theorem leafQueue_perm (s : State) : (leafQueue s).Perm
    ((leafSymbols s).zipIdx.map fun x => ⟨(s.freqAt 3 x.1).toNat, x.1, x.2⟩) := by
  have key : ∀ (leaves : List (Nat × Nat)) (q : List QEntry),
      (leaves.foldl (fun q x => enqueue ⟨(s.freqAt 3 x.1).toNat, x.1, x.2⟩ q) q).Perm
        (q ++ leaves.map fun x => ⟨(s.freqAt 3 x.1).toNat, x.1, x.2⟩) := by
    intro leaves
    induction leaves with
    | nil => simp
    | cons x leaves ih =>
      intro q
      refine (ih _).trans (((enqueue_perm _ q).append_right _).trans ?_)
      rw [List.map_cons]
      exact List.perm_middle.symm
  exact key _ []

theorem leafQueue_indices (s : State) :
    ((leafQueue s).map QEntry.index).Perm (List.range (leafSymbols s).length) := by
  refine ((leafQueue_perm s).map _).trans ?_
  rw [List.map_map, List.range_eq_range', ← List.zipIdx_map_snd 0 (leafSymbols s)]
  exact .refl _

theorem leafQueue_weights (s : State) :
    ((leafQueue s).map QEntry.weight).sum = ((leafSymbols s).map fun c => (s.freqAt 3 c).toNat).sum := by
  rw [((leafQueue_perm s).map _).sum_eq, List.map_map]
  conv_rhs => rw [← List.zipIdx_map_fst 0 (leafSymbols s), List.map_map]
  rfl

/-- What a filter leaves out adds nothing to a sum if it is 0. -/
theorem sum_filter_of_zero {α : Type} {f : α → Nat} {p : α → Bool} (l : List α)
    (h : ∀ x ∈ l, p x = false → f x = 0) : ((l.filter p).map f).sum = (l.map f).sum := by
  induction l with
  | nil => rfl
  | cons x l ih =>
    have ih := ih fun y hy => h y (by simp [hy])
    cases hp : p x with
    | true => simp [hp, ih]
    | false => simp [hp, ih, h x (by simp) hp]

/-- Of written counters the weights in the queue add up to the total (rule R112). -/
theorem leafQueue_total {s : State} (h : s.FreqWritten) :
    ((leafQueue s).map QEntry.weight).sum = totalWeight s := by
  rw [leafQueue_weights, leafSymbols, sum_filter_of_zero, totalWeight]
  · exact congrArg List.sum (List.map_congr_left fun c hc =>
      congrArg BitVec.toNat (freqAt_read (h c (List.mem_range.1 hc)) 3 0))
  · intro c hc hz
    rw [freqAt_read (h c (List.mem_range.1 hc)) 3 1]
    rw [show s.freqAt 1 c = 0#32 by simpa using hz]
    rfl

/-! ### BUILD is a function of FREQ -/

/-- Once the total fits, the writes of a BUILD on written counters add the weights exactly (rule R112). -/
theorem buildWrites_exact {s : State} (h : s.FreqWritten) (ht : totalWeight s < 2 ^ 32) :
    buildWrites s = leafWrites (s.freqAt 2) (leafSymbols s) ++
      mergeWrites (fun _ sum => BitVec.ofNat 32 sum) (leafSymbols s).length (leafQueue s)
        (leafSymbols s).length 0 := by
  rw [buildWrites, mergeWrites_weigh (fun _ _ hs => mergedWeight_of_lt hs) _ _ (by rwa [leafQueue_total h])]

section SameFreq

variable {s s' : State}

/-- The two states have the same counters, all of them written. -/
structure SameCounters (s s' : State) : Prop where
  written : s.FreqWritten
  same : ∀ c, c < 256 → s.freq.look c = s'.freq.look c

theorem SameCounters.written' (h : SameCounters s s') : s'.FreqWritten := fun c hc =>
  h.same c hc ▸ h.written c hc

theorem SameCounters.freqAt (h : SameCounters s s') (read : Nat) {c : Nat} (hc : c < 256) :
    s.freqAt read c = s'.freqAt read c := by
  obtain ⟨v, hv⟩ := Option.isSome_iff_exists.1 (h.written c hc)
  rw [freqAt_of_look hv, freqAt_of_look (h.same c hc ▸ hv)]

theorem SameCounters.totalWeight (h : SameCounters s s') : totalWeight s = totalWeight s' :=
  congrArg List.sum (List.map_congr_left fun _ hc => congrArg BitVec.toNat (h.freqAt 0 (List.mem_range.1 hc)))

theorem SameCounters.leafSymbols (h : SameCounters s s') : leafSymbols s = leafSymbols s' :=
  List.filter_congr fun _ hc => by rw [h.freqAt 1 (List.mem_range.1 hc)]

/-- A leaf is one of the 256 symbols, whatever its place. -/
theorem lt_of_mem_zipIdx_leafSymbols {x : Nat × Nat} (hx : x ∈ (Machine.leafSymbols s).zipIdx) : x.1 < 256 :=
  (mem_leafSymbols.1 (List.fst_mem_of_mem_zipIdx hx)).1

theorem SameCounters.leafQueue (h : SameCounters s s') : leafQueue s = leafQueue s' := by
  unfold Machine.leafQueue
  rw [← h.leafSymbols]
  refine List.foldl_ext _ _ _ fun q x hx => ?_
  rw [h.freqAt 3 (lt_of_mem_zipIdx_leafSymbols hx)]

theorem SameCounters.buildWrites (h : SameCounters s s') (ht : Machine.totalWeight s < 2 ^ 32) :
    buildWrites s = buildWrites s' := by
  have hleaf : leafWrites (s.freqAt 2) (Machine.leafSymbols s) = leafWrites (s'.freqAt 2) (Machine.leafSymbols s) :=
    List.map_congr_left fun x hx => by rw [h.freqAt 2 (lt_of_mem_zipIdx_leafSymbols hx)]
  rw [buildWrites_exact h.written ht, buildWrites_exact h.written' (h.totalWeight ▸ ht), hleaf, h.leafSymbols,
    h.leafQueue]

end SameFreq

/-! ### BUILD, by its total -/

theorem exec_build_ovf {s : State} (h : 2 ^ 32 ≤ totalWeight s) :
    exec .build s = .next (s.complete 0x33#8 .weightOvf 0x00#8 false) := by
  rw [exec_eq, bodyOf, buildBody, if_pos h]
  rfl

theorem exec_build_fits {s : State} (h : totalWeight s < 2 ^ 32) :
    exec .build s = .next ((buildTree s).complete 0x33#8 .ok 0x00#8 false) := by
  rw [exec_eq, bodyOf, buildBody, if_neg (Nat.not_le.2 h)]
  rfl

/-- Settles O30: the writes are a function of the counters, and a write leaves the same over any memory. -/
theorem buildDependsOnFreqAlone : Obligations.BuildDependsOnFreqAlone := by
  intro s s' t t' hw hsame ht ht' hok
  have h : SameCounters s s' := ⟨hw, hsame⟩
  by_cases hfit : totalWeight s < 2 ^ 32
  · rw [exec_build_fits hfit] at ht
    rw [exec_build_fits (h.totalWeight ▸ hfit)] at ht'
    cases ht
    cases ht'
    refine ⟨rfl, ?_⟩
    by_cases hleaf : leafSymbols s = []
    · simp [buildTree_empty hleaf, buildTree_empty (h.leafSymbols ▸ hleaf)]
    · simp only [buildTree_eq hleaf, buildTree_eq (h.leafSymbols ▸ hleaf), State.complete_root,
        State.complete_nodeCnt, State.complete_symCnt, State.complete_nodeLink, State.complete_nodeWeight]
      refine ⟨by rw [h.leafSymbols], by rw [h.leafSymbols], by rw [h.totalWeight], fun i hi => ?_⟩
      have hk := leafSymbols_length_le s
      have hi : i < 2 * (leafSymbols s).length - 1 := hi.trans_le (Nat.mod_le _ _)
      have hmem : ∃ w ∈ buildWrites s, w.index = i :=
        List.mem_map.1 (buildWrites_indices s ▸ List.mem_range.2 hi)
      rw [← h.buildWrites hfit]
      exact State.writeNodes_same _ _ (by simp only [Config.nodeMax]; omega) hmem
  · rw [exec_build_ovf (Nat.not_lt.1 hfit)] at ht
    cases ht
    cases hok

/-- Settles O26: with one leaf nothing is merged, and the one write is that of the Leaf. -/
theorem buildOfFewLeaves : Obligations.BuildOfFewLeaves := by
  intro s
  refine ⟨exec_build_ovf, fun ht h => ?_, fun c ht h => ?_⟩
  · rw [exec_build_fits ht, buildTree_empty h]
    rfl
  · have hq : mergeWrites (mergedWeight s) 1 (leafQueue s) 1 0 = [] := by
      have := mergeWrites_indices (mergedWeight s) (fuel := 1) (q := leafQueue s) 1 0
        (by rw [leafQueue_length, h]; rfl)
      rw [leafQueue_length, h] at this
      exact List.map_eq_nil_iff.1 this
    have hw : buildWrites s = [⟨0, NodeLink.leaf c, s.freqAt 2 c.toNat⟩] := by
      rw [buildWrites, h]
      simp [hq, leafWrites]
    rw [exec_build_fits ht, buildTree_eq (by simp [h]), hw, h]
    rfl

/-! ### The forest -/

/-- The roots of the trees `ts` are the indices in the queue, their nodes are the first `next` ones, each once,
and their symbols are `syms`. -/
structure Forest (m : Memory NodeLink) (next : Nat) (queue : List Nat) (syms : List Byte)
    (ts : List CodeTree) : Prop where
  roots : (ts.map fun T => T.root.toNat).Perm queue
  stored : ∀ T ∈ ts, T.StoredIn m
  nodes : (ts.flatMap CodeTree.nodes).Perm (List.range next)
  symbols : (ts.flatMap CodeTree.symbols).Perm syms

theorem Forest.perm {m : Memory NodeLink} {next : Nat} {queue : List Nat} {syms : List Byte}
    {ts us : List CodeTree} (h : Forest m next queue syms ts) (hp : ts.Perm us) : Forest m next queue syms us where
  roots := (hp.symm.map _).trans h.roots
  stored := fun T hT => h.stored T (hp.mem_iff.2 hT)
  nodes := (hp.symm.flatMap_right _).trans h.nodes
  symbols := (hp.symm.flatMap_right _).trans h.symbols

/-- A member found by its image may stand first. -/
theorem perm_cons_of_map_perm {α β : Type} {f : α → β} {ts : List α} {b : β} {l : List β}
    (h : (ts.map f).Perm (b :: l)) : ∃ T us, ts.Perm (T :: us) ∧ f T = b ∧ (us.map f).Perm l := by
  obtain ⟨T, hT, rfl⟩ := List.mem_map.1 (h.mem_iff.2 (by simp : b ∈ b :: l))
  obtain ⟨x, y, rfl⟩ := List.append_of_mem hT
  have hp : (x ++ T :: y).Perm (T :: (x ++ y)) := List.perm_middle
  exact ⟨T, x ++ y, hp, rfl, ((hp.symm.map f).trans h).cons_inv⟩

/-- Two trees of a forest joined under a new node leave a forest (rules R109, R110, R112). -/
theorem Forest.merge {s : State} {next a b : Nat} {queue : List Nat} {syms : List Byte} {ts : List CodeTree}
    (h : Forest s.nodeLink next (a :: b :: queue) syms ts) (hnext : next < Config.nodeMax) (v : Word) :
    ∃ us, Forest (s.writeNode next (NodeLink.inner (BitVec.ofNat 9 a) (BitVec.ofNat 9 b)) v).nodeLink (next + 1)
      (next :: queue) syms us := by
  obtain ⟨A, us, hpA, hA, hroots⟩ := perm_cons_of_map_perm h.roots
  obtain ⟨B, us, hpB, hB, hroots⟩ := perm_cons_of_map_perm hroots
  have hf := h.perm (hpA.trans (hpB.cons A))
  have hnodes := hf.nodes
  have hsyms := hf.symbols
  simp only [List.flatMap_cons] at hnodes hsyms
  have hlook := fun j => (s.writeNode_look hnext (NodeLink.inner (BitVec.ofNat 9 a) (BitVec.ofNat 9 b)) v j).1
  have hstored : ∀ T ∈ A :: B :: us, T.StoredIn
      (s.writeNode next (NodeLink.inner (BitVec.ofNat 9 a) (BitVec.ofNat 9 b)) v).nodeLink := by
    intro T hT
    refine (hf.stored T hT).congr fun n hn => ?_
    have hlt : n < next := by
      refine List.mem_range.1 (hf.nodes.mem_iff.1 (List.mem_flatMap.2 ⟨T, hT, hn⟩))
    rw [hlook, if_neg (Nat.ne_of_lt hlt)]
  have hto : (BitVec.ofNat 9 next).toNat = next := by
    rw [BitVec.toNat_ofNat, Nat.mod_eq_of_lt (hnext.trans (by decide))]
  refine ⟨.node (BitVec.ofNat 9 next) A B :: us, ?_, fun T hT => ?_, ?_, ?_⟩
  · rw [List.map_cons, CodeTree.root_node, hto]
    exact hroots.cons next
  · rcases List.mem_cons.1 hT with rfl | hT
    · refine ⟨_, by rw [hto, hlook, if_pos rfl], rfl, ?_, ?_, hstored A (by simp), hstored B (by simp)⟩
      · simp [NodeLink.inner, ← hA]
      · simp [NodeLink.inner, ← hB]
    · exact hstored T (by simp [hT])
  · rw [List.flatMap_cons, CodeTree.nodes, hto, List.range_succ]
    simp only [List.cons_append, List.append_assoc]
    exact (hnodes.cons next).trans (List.perm_append_singleton next _).symm
  · rw [List.flatMap_cons, CodeTree.symbols_node, List.append_assoc]
    exact hsyms

/-- The merge loop ends with one tree: its root the last node made, its nodes all nodes made (rule R112). -/
theorem mergeWrites_tree {weigh : Nat → Nat → Word} {fuel : Nat} {q : List QEntry} {next m : Nat} {s : State}
    {syms : List Byte} {ts : List CodeTree} (h : Forest s.nodeLink next (q.map QEntry.index) syms ts)
    (hlast : next - 1 ∈ q.map QEntry.index) (hfuel : q.length ≤ fuel) (hbound : next + q.length ≤ 512) :
    ∃ T : CodeTree, T.StoredIn (s.writeNodes (mergeWrites weigh fuel q next m)).nodeLink ∧
      T.root.toNat = next + q.length - 2 ∧ T.nodes.Perm (List.range (next + q.length - 1)) ∧
      T.symbols.Perm syms := by
  induction fuel generalizing q next m s ts with
  | zero =>
    rw [List.length_eq_zero_iff.1 (Nat.le_zero.1 hfuel)] at hlast
    simp at hlast
  | succ fuel ih =>
    match q with
    | [] => simp at hlast
    | [x] =>
      obtain ⟨T, rfl, hT⟩ := List.map_eq_singleton_iff.1 (List.perm_singleton.1 h.roots)
      have hx : next - 1 = x.index := by simpa using hlast
      exact ⟨T, h.stored T (by simp), by rw [hT, ← hx]; rfl, by simpa using h.nodes, by simpa using h.symbols⟩
    | x :: y :: q =>
      simp only [List.length_cons] at hfuel hbound
      obtain ⟨us, hf⟩ := h.merge (by simp only [Config.nodeMax]; omega) (weigh next (x.weight + y.weight))
      have hq := (enqueue_perm ⟨x.weight + y.weight, Config.alphabet + m, next⟩ q).map QEntry.index
      obtain ⟨T, hT, hroot, hnodes, hsyms⟩ := ih (m := m + 1) { hf with roots := hf.roots.trans hq.symm }
        (hq.mem_iff.2 (by simp)) (by rw [enqueue_length]; omega) (by rw [enqueue_length]; omega)
      rw [enqueue_length] at hroot hnodes
      refine ⟨T, hT, ?_, ?_, hsyms⟩
      · rw [hroot]; simp only [List.length_cons]; omega
      · rw [show next + (x :: y :: q).length - 1 = next + 1 + (q.length + 1) - 1 by
          simp only [List.length_cons]; omega]
        exact hnodes

/-- Writes to different indices all stand. -/
theorem State.writeNodes_look {s : State} {ws : List NodeWrite} (hnd : (ws.map NodeWrite.index).Nodup)
    {w : NodeWrite} (hw : w ∈ ws) (hi : w.index < Config.nodeMax) :
    (s.writeNodes ws).nodeLink.look w.index = some w.link ∧
      (s.writeNodes ws).nodeWeight.look w.index = some w.weight := by
  induction ws generalizing s with
  | nil => simp at hw
  | cons x ws ih =>
    rw [List.map_cons, List.nodup_cons] at hnd
    rw [State.writeNodes_cons]
    rcases List.mem_cons.1 hw with rfl | hw
    · have hother := State.writeNodes_other (s := s.writeNode w.index w.link w.weight) (ws := ws) (j := w.index)
        fun y hy e => hnd.1 (e ▸ List.mem_map_of_mem hy)
      rw [hother.1, hother.2]
      simpa using s.writeNode_look hi w.link w.weight w.index
    · exact ih hnd.2 hw

theorem leafWrites_indices (freq : Nat → Word) (leaves : List Nat) :
    (leafWrites freq leaves).map NodeWrite.index = List.range leaves.length := by
  rw [leafWrites, List.map_map, List.range_eq_range', ← List.zipIdx_map_snd 0 leaves]
  rfl

/-- The Leaves of BUILD, each a tree of its own (rule R110). -/
theorem leafForest (s : State) (freq : Nat → Word) {leaves : List Nat} (h : leaves.length ≤ 256) :
    Forest (s.writeNodes (leafWrites freq leaves)).nodeLink leaves.length (List.range leaves.length)
      (leaves.map (BitVec.ofNat 8))
      (leaves.zipIdx.map fun x => .leaf (BitVec.ofNat 9 x.2) (BitVec.ofNat 8 x.1)) := by
  have hto : ∀ x ∈ leaves.zipIdx, (BitVec.ofNat 9 x.2).toNat = x.2 ∧ x.2 < 256 := by
    intro x hx
    have := List.snd_lt_of_mem_zipIdx hx
    rw [Nat.add_zero] at this
    exact ⟨by rw [BitVec.toNat_ofNat, Nat.mod_eq_of_lt (by omega)], by omega⟩
  have hindex : leaves.zipIdx.map Prod.snd = List.range leaves.length := by
    rw [List.range_eq_range', List.zipIdx_map_snd]
  have hnodes : leaves.zipIdx.map (fun x => (BitVec.ofNat 9 x.2).toNat) = List.range leaves.length := by
    rw [← hindex]
    exact List.map_congr_left fun x hx => (hto x hx).1
  refine ⟨?_, fun T hT => ?_, ?_, ?_⟩
  · rw [List.map_map]
    exact .of_eq hnodes
  · obtain ⟨x, hx, rfl⟩ := List.mem_map.1 hT
    have hw : (⟨x.2, NodeLink.leaf (BitVec.ofNat 8 x.1), freq x.1⟩ : NodeWrite) ∈ leafWrites freq leaves :=
      List.mem_map.2 ⟨x, hx, rfl⟩
    have hlook := State.writeNodes_look (s := s) (by rw [leafWrites_indices]; exact List.nodup_range) hw
      ((hto x hx).2.trans (by decide))
    exact ⟨_, by rw [(hto x hx).1]; exact hlook.1, rfl, rfl⟩
  · rw [List.flatMap_map, ← hnodes, List.map_eq_flatMap]
    exact .refl _
  · rw [List.flatMap_map]
    conv_rhs => rw [← List.zipIdx_map_fst 0 leaves, List.map_map, List.map_eq_flatMap]
    exact .refl _

/-- With at least one leaf, BUILD leaves one stored tree: its root is ROOT, its nodes are those below NODE_CNT, each
once, and its symbols are those with a count (rules R110, R112, R113). -/
theorem buildTree_stored {s : State} (h : leafSymbols s ≠ []) :
    ∃ T : CodeTree, T.StoredIn (buildTree s).nodeLink ∧ T.root = (buildTree s).root ∧
      T.nodes.Perm (List.range (buildTree s).nodeCnt.toNat) ∧ T.symbols.Perm (leafBytes s) := by
  have hk : 0 < (leafSymbols s).length := List.length_pos_of_ne_nil h
  have hk' := leafSymbols_length_le s
  have hf := leafForest s.invalidateCodes (s.freqAt 2) hk'
  obtain ⟨T, hT, hroot, hnodes, hsyms⟩ := mergeWrites_tree (weigh := mergedWeight s)
    (fuel := (leafSymbols s).length) (m := 0) { hf with roots := hf.roots.trans (leafQueue_indices s).symm }
    ((leafQueue_indices s).mem_iff.2 (List.mem_range.2 (by omega))) (leafQueue_length s).le
    (by rw [leafQueue_length]; omega)
  rw [leafQueue_length] at hroot hnodes
  have hcnt : (BitVec.ofNat 10 (2 * (leafSymbols s).length - 1)).toNat =
      (leafSymbols s).length + (leafSymbols s).length - 1 := by
    rw [BitVec.toNat_ofNat, Nat.mod_eq_of_lt] <;> omega
  rw [buildTree_eq h]
  refine ⟨T, ?_, BitVec.eq_of_toNat_eq ?_, ?_, hsyms⟩
  · rw [← State.writeNodes_append] at hT
    exact hT
  · rw [hroot, BitVec.toNat_ofNat, Nat.mod_eq_of_lt] <;> omega
  · dsimp only
    rwa [hcnt]

theorem buildTree_nodeCnt_le (s : State) : (buildTree s).nodeCnt.toNat ≤ 511 := by
  have hk := leafSymbols_length_le s
  by_cases h : leafSymbols s = []
  · simp [buildTree_empty h]
  · rw [buildTree_eq h]
    dsimp only
    rw [BitVec.toNat_ofNat]
    exact (Nat.mod_le _ _).trans (by omega)

end Sys2Proof.Machine
end

section
/-! The packer as a stream of bits (rules R90 to R98). -/

namespace Sys2Proof.Machine

/-! ### Positions -/

/-- How many bits the packer holds: eight for each byte flushed, and the filled slots of CUR (rule R90). -/
def State.position (s : State) : Nat := 8 * s.packLen.toNat + (8 - s.bwFree.toNat)

section Packer

variable {s t : State}

theorem State.Inv.packLen_eq (h : s.Inv) : s.packLen.toNat = s.position / 8 := by
  have := h.free_range
  unfold State.position
  omega

/-- The admission of a multi-bit append, by the position it ends at (rule R93). -/
theorem State.Inv.fits_iff (h : s.Inv) (n : Nat) : fits s n = true ↔ (s.position + n) / 8 ≤ s.packCap := by
  have := h.free_range
  unfold fits newBytes State.position
  rw [decide_eq_true_iff]
  omega

/-! ### Bytes as bits -/

/-- A bit put into the last free slot comes after the bits of the slots filled before (rules R90, R92). -/
theorem take_msbFirst_setBit (v : Byte) {f : Nat} (h1 : 1 ≤ f) (h8 : f ≤ 8) (b : Bool) :
    (msbFirst (setBit v (f - 1) b) 8).take (8 - (f - 1)) = (msbFirst v 8).take (8 - f) ++ [b] := by
  apply List.ext_getElem
  · simp; omega
  intro j hj hj'
  simp only [List.length_take, msbFirst_length] at hj
  rw [List.getElem_take, msbFirst_getElem, setBit_getLsbD]
  by_cases hlt : j < 8 - f
  · rw [List.getElem_append_left (by simp; omega), List.getElem_take, msbFirst_getElem,
      if_neg (by omega)]
  · rw [List.getElem_append_right (by simp; omega), if_pos (by omega)]
    simp

/-- The bits of PACK are those of its first PACK_LEN bytes. -/
theorem packBits_congr {t : State} (hlen : t.packLen = s.packLen)
    (h : ∀ i, i < s.packLen.toNat → t.packAt i = s.packAt i) : t.packBits = s.packBits := by
  unfold State.packBits
  rw [hlen, List.flatMap_def, List.flatMap_def]
  exact congrArg List.flatten (List.map_congr_left fun i hi => by rw [h i (List.mem_range.1 hi)])

/-- The significant bits are read from PACK_LEN, TRAIL and the written bytes below PACK_LEN alone (rule R100). -/
theorem State.PackWritten.significantBits_congr {t : State} (h : s.PackWritten) (hlen : t.packLen = s.packLen)
    (htrail : t.trail = s.trail) (hlook : ∀ i, i < s.packLen.toNat → t.pack.look i = s.pack.look i) :
    t.significantBits = s.significantBits := by
  rw [State.significantBits, State.significantBits, hlen, htrail, packBits_congr hlen fun i hi => ?_]
  obtain ⟨v, hv⟩ := Option.isSome_iff_exists.1 (h i hi)
  rw [State.packAt, State.packAt, hlook i hi, hv]
  rfl

theorem State.PackWritten.significantBits_complete (h : s.PackWritten) (op : Byte) (code : Result) (d : Byte)
    (trunc : Bool) : (s.complete op code d trunc).significantBits = s.significantBits :=
  h.significantBits_congr rfl rfl fun _ _ => rfl

/-- One byte more in PACK. -/
theorem packBits_succ {t : State} (hlen : t.packLen.toNat = s.packLen.toNat + 1)
    (h : ∀ i, i < s.packLen.toNat → t.packAt i = s.packAt i) :
    t.packBits = s.packBits ++ msbFirst (t.packAt s.packLen.toNat) 8 := by
  unfold State.packBits
  rw [hlen, List.range_succ, List.flatMap_append, List.flatMap_singleton, List.flatMap_def, List.flatMap_def]
  exact congrArg (List.flatten · ++ _) (List.map_congr_left fun i hi => by rw [h i (List.mem_range.1 hi)])

theorem packBits_length (s : State) : s.packBits.length = 8 * s.packLen.toNat := by
  simp [State.packBits, List.length_flatMap, Nat.mul_comm]

/-! ### Flushing a byte -/

theorem packLen_add_one (h : s.packLen.toNat + 1 ≤ Config.capMax) :
    (s.packLen + 1#32).toNat = s.packLen.toNat + 1 := by
  rw [BitVec.toNat_add, show (1#32).toNat = 1 from rfl, Nat.mod_eq_of_lt]
  have : Config.capMax = 262144 := rfl
  omega

/-- What a flush leaves in PACK: CUR at PACK_LEN, every other byte as it was (rules R92, R98). -/
theorem flushByte_look (h : s.packLen.toNat < s.packCap) (j : Nat) :
    (flushByte s).pack.look j = if j = s.packLen.toNat then some s.bwCur else s.pack.look j := by
  rw [flushByte_pack, State.writePack_pack, if_pos h, Memory.look_put]

/-- A flush appends the byte CUR to the bits of PACK. -/
theorem flushByte_packBits (h : s.packLen.toNat < s.packCap) (hcap : s.packCap ≤ Config.capMax) :
    (flushByte s).packBits = s.packBits ++ msbFirst s.bwCur 8 := by
  rw [packBits_succ (s := s) (packLen_add_one (by omega)) fun i hi => ?_]
  · rw [State.packAt, flushByte_look h, if_pos rfl]
    rfl
  · rw [State.packAt, flushByte_look h, if_neg (Nat.ne_of_lt hi), State.packAt, flushByte_draws]

theorem flushByte_written (hw : s.PackWritten) (h : s.packLen.toNat < s.packCap)
    (hcap : s.packCap ≤ Config.capMax) : (flushByte s).PackWritten := by
  intro i hi
  rw [flushByte_packLen, packLen_add_one (by omega)] at hi
  rw [flushByte_look h]
  split
  · rfl
  · exact hw i (by omega)

/-! ### Appending -/

/-- What appending `bits` to `s` makes of the packer: the stream, the counts, and PACK outside the bytes flushed. -/
structure Appended (s t : State) (bits : List Bool) : Prop where
  inv : t.Inv
  written : t.PackWritten
  stream : t.streamBits = s.streamBits ++ bits
  position : t.position = s.position + bits.length
  total : s.totalBits.toNat + bits.length < 2 ^ 32 → t.totalBits.toNat = s.totalBits.toNat + bits.length
  frame : ∀ j, j < s.packLen.toNat ∨ t.packLen.toNat ≤ j → t.pack.look j = s.pack.look j

theorem Appended.trans {u : State} {a b : List Bool} (hs : s.Inv) (h : Appended s t a) (k : Appended t u b) :
    Appended s u (a ++ b) where
  inv := k.inv
  written := k.written
  stream := by rw [k.stream, h.stream, List.append_assoc]
  position := by rw [k.position, h.position, List.length_append, Nat.add_assoc]
  total := fun hlt => by
    rw [List.length_append] at hlt ⊢
    have h1 := h.total (by omega)
    rw [k.total (by omega)]
    omega
  frame := fun j hj => by
    have hp := h.position
    have hp' := k.position
    rw [hs.packLen_eq, k.inv.packLen_eq] at hj
    rw [k.frame j, h.frame j]
    · rw [hs.packLen_eq, h.inv.packLen_eq]; omega
    · rw [h.inv.packLen_eq, k.inv.packLen_eq]; omega

theorem nextTotalBits_toNat (h : s.totalBits.toNat + 1 < 2 ^ 32) :
    (nextTotalBits s).toNat = s.totalBits.toNat + 1 := by
  have hne : s.totalBits ≠ BitVec.allOnes 32 := fun e => by
    rw [e, BitVec.toNat_allOnes] at h
    omega
  rw [nextTotalBits, if_neg hne, BitVec.toNat_add, show (1#32).toNat = 1 from rfl, Nat.mod_eq_of_lt h]

/-- One bit: into its slot, and with the last slot the byte to PACK (rule R92). -/
theorem appendBit_appended (h : s.Inv) (hw : s.PackWritten) (b : Bool)
    (hfit : (s.position + 1) / 8 ≤ s.packCap) : Appended s (appendBit s b) [b] := by
  have hfree := h.free_range
  have hinv := h.appendBit b
  have hbyte := take_msbFirst_setBit s.bwCur hfree.1 hfree.2 b
  unfold State.position at hfit
  rw [appendBit_eq s b hfree.1 hfree.2] at hinv ⊢
  split at hinv
  · next h1 =>
    have hlt : (fillSlot s b).packLen.toNat < (fillSlot s b).packCap := by
      rw [fillSlot_packLen, fillSlot_packCap]; omega
    have hcap : (fillSlot s b).packCap ≤ Config.capMax := h.packCap_range.2
    have hlen : (flushByte (fillSlot s b)).packLen.toNat = s.packLen.toNat + 1 :=
      packLen_add_one (s := s) (by rw [fillSlot_packLen, fillSlot_packCap] at *; omega)
    rw [if_pos h1]
    refine ⟨hinv, flushByte_written hw hlt hcap, ?_, ?_, ?_, fun j hj => ?_⟩
    · have hall : (8 - (s.bwFree.toNat - 1)) = 8 := by omega
      rw [hall, List.take_of_length_le (by simp)] at hbyte
      have hempty : (msbFirst (flushByte (fillSlot s b)).bwCur 8).take
          (8 - (flushByte (fillSlot s b)).bwFree.toNat) = [] := by simp
      rw [State.streamBits, hempty, flushByte_packBits hlt hcap, fillSlot_bwCur, hbyte, State.streamBits,
        List.append_nil, List.append_assoc]
      rfl
    · rw [State.position, State.position, hlen, flushByte_bwFree]
      simp [h1]
      omega
    · intro ht
      rw [flushByte_totalBits, fillSlot_totalBits]
      exact nextTotalBits_toNat ht
    · rw [flushByte_look hlt, if_neg]
      · rfl
      · rw [hlen] at hj
        rw [fillSlot_packLen]
        omega
  · next h1 =>
    have hf := h.fillSlot_free b
    rw [if_neg h1]
    refine ⟨hinv, hw, ?_, ?_, ?_, fun j _ => rfl⟩
    · rw [State.streamBits, hf, fillSlot_bwCur, hbyte, State.streamBits, List.append_assoc]
      rfl
    · rw [State.position, State.position, hf, fillSlot_packLen]
      simp
      omega
    · intro ht
      exact nextTotalBits_toNat ht

/-- All bits of an append that fits (rule R94). -/
theorem pushBits_appended (h : s.Inv) (hw : s.PackWritten) (bits : List Bool)
    (hfit : (s.position + bits.length) / 8 ≤ s.packCap) : Appended s (pushBits s bits) bits := by
  induction bits generalizing s with
  | nil => exact ⟨h, hw, by simp [pushBits], rfl, fun _ => rfl, fun _ _ => rfl⟩
  | cons b bits ih =>
    rw [List.length_cons] at hfit
    have h1 := appendBit_appended h hw b (by omega)
    obtain ⟨_, _, _, _, _, _, _, he⟩ := appendBit_only s b
    have hcap : (appendBit s b).packCap = s.packCap := by rw [he]
    have hpos : (appendBit s b).position = s.position + 1 := h1.position
    exact h1.trans h (ih h1.inv h1.written (by rw [hpos, hcap]; omega))

/-! ### Finishing -/

/-- FINISH leaves the stream as the significant bits of PACK, padded to a byte (rules R98, R100). -/
theorem finishStream_spec (h : s.Inv) (hw : s.PackWritten) (hfit : (s.position + 7) / 8 ≤ s.packCap) :
    (finishStream s).significantBits = s.streamBits ∧
      (finishStream s).packLen.toNat = (s.position + 7) / 8 ∧
      (finishStream s).trail.toNat = 8 * ((s.position + 7) / 8) - s.position ∧
      (finishStream s).PackWritten ∧
      ∀ j, j < s.packLen.toNat ∨ (finishStream s).packLen.toNat ≤ j →
        (finishStream s).pack.look j = s.pack.look j := by
  have hfree := h.free_range
  have hcap := h.packCap_range.2
  unfold State.position at hfit ⊢
  unfold finishStream
  split
  · next h8 =>
    have hlt : s.packLen.toNat < s.packCap := by omega
    have hlen : (flushByte s).packLen.toNat = s.packLen.toNat + 1 := packLen_add_one (by omega)
    have htrail : (s.bwFree.setWidth 3).toNat = s.bwFree.toNat := by
      rw [BitVec.toNat_setWidth, Nat.mod_eq_of_lt h8]
    refine ⟨?_, ?_, ?_, flushByte_written hw hlt hcap, fun j hj => ?_⟩
    · have hbits : State.packBits { flushByte s with trail := s.bwFree.setWidth 3, bwFin := true } =
          s.packBits ++ msbFirst s.bwCur 8 := flushByte_packBits hlt hcap
      rw [State.significantBits, hbits]
      dsimp only
      rw [hlen, htrail, List.take_append, packBits_length, List.take_of_length_le (by rw [packBits_length]; omega)]
      rw [State.streamBits]
      congr 2
      omega
    · dsimp only; rw [hlen]; omega
    · dsimp only; rw [htrail]; omega
    · change (flushByte s).pack.look j = _
      change j < _ ∨ (flushByte s).packLen.toNat ≤ j at hj
      rw [flushByte_look hlt, if_neg (by omega)]
  · next h8 =>
    have h8 : s.bwFree.toNat = 8 := by omega
    refine ⟨?_, ?_, ?_, hw, fun _ _ => rfl⟩
    · rw [State.streamBits, h8, Nat.sub_self, List.take_zero, List.append_nil]
      exact List.take_of_length_le (by rw [packBits_length]; exact le_rfl)
    · dsimp only; omega
    · simp; omega

theorem finishStream_registers (s : State) : (finishStream s).bwCur = 0#8 ∧ (finishStream s).bwFree = 8#4 ∧
    (finishStream s).bwFin = true ∧ (finishStream s).totalBits = s.totalBits := by
  unfold finishStream
  split
  · exact ⟨rfl, rfl, rfl, flushByte_totalBits s⟩
  · exact ⟨rfl, rfl, rfl, rfl⟩

end Packer

end Sys2Proof.Machine
end

section
/-! ENCODE: its counts, its tree, its codes and the stream it packs (spec/45_encoder.md). -/

namespace Sys2Proof.Machine

/-! ### Counting -/

theorem sum_range_ite (n k v : Nat) (h : k < n) :
    ((List.range n).map fun i => if i = k then v else 0).sum = v := by
  have hsum : ∑ i ∈ Finset.range n, (if i = k then v else 0) = v := by
    rw [Finset.sum_ite_eq', if_pos (Finset.mem_range.2 h)]
  exact hsum

/-- Summing over the alphabet how often a symbol comes times its value is summing the values (rules R111, R126). -/
theorem sum_count_mul (g : Byte → Nat) (l : List Byte) :
    ((List.range Config.alphabet).map fun n => l.count (BitVec.ofNat 8 n) * g (BitVec.ofNat 8 n)).sum =
      (l.map g).sum := by
  induction l with
  | nil =>
    simp only [List.count_nil, Nat.zero_mul, List.map_const', List.sum_replicate, smul_zero, List.map_nil,
      List.sum_nil]
  | cons x l ih =>
    have hx : x.toNat < Config.alphabet := x.isLt
    rw [List.map_cons, List.sum_cons, ← ih, ← sum_range_ite Config.alphabet x.toNat (g x) hx, ← List.sum_map_add]
    refine congrArg List.sum (List.map_congr_left fun n hn => ?_)
    have hn : n < 2 ^ 8 := List.mem_range.1 hn
    rw [List.count_cons]
    by_cases h : n = x.toNat
    · subst h
      simp only [BitVec.ofNat_toNat, BitVec.setWidth_eq, beq_self_eq_true, if_true]
      ring
    · have hne : x ≠ BitVec.ofNat 8 n := fun e => h (by rw [e, BitVec.toNat_ofNat, Nat.mod_eq_of_lt hn])
      simp [h, hne]

section Counting

variable {s t : State}

theorem clearFreq_look {c : Nat} (hc : c < 256) : s.clearFreq.freq.look c = some 0#32 := by
  have hc : c < Config.alphabet := hc
  simp [State.clearFreq, Memory.look_tabulate, hc]

theorem countSymbol_look (s : State) (c : Byte) (j : Nat) :
    (countSymbol s c).freq.look j =
      if j = c.toNat then some (s.freqAt 0 c.toNat + 1#32) else s.freq.look j :=
  Memory.look_put _ _ _ _

/-- The counting loop from written counters with room for every symbol (rules R111, R125). -/
theorem foldl_countSymbol_look (cs : List Byte) {s : State} (f : Byte → Nat)
    (h : ∀ c : Byte, ∃ v, s.freq.look c.toNat = some v ∧ v.toNat = f c ∧ f c + cs.length < 2 ^ 32) (c : Byte) :
    ∃ v, (cs.foldl countSymbol s).freq.look c.toNat = some v ∧ v.toNat = f c + cs.count c := by
  induction cs generalizing s f with
  | nil =>
    obtain ⟨v, hv, hf, -⟩ := h c
    exact ⟨v, hv, by simpa using hf⟩
  | cons x cs ih =>
    obtain ⟨v, hv, hcount⟩ := ih (s := countSymbol s x) (fun c => f c + if c = x then 1 else 0) fun c => by
      obtain ⟨v, hv, hf, hlt⟩ := h c
      rw [List.length_cons] at hlt
      rw [countSymbol_look]
      by_cases hcx : c = x
      · subst hcx
        refine ⟨v + 1#32, by simp [freqAt_of_look hv], ?_, ?_⟩
        · rw [BitVec.toNat_add, show (1#32).toNat = 1 from rfl, Nat.mod_eq_of_lt (by omega), hf, if_pos rfl]
        · rw [if_pos rfl]; omega
      · have hne : c.toNat ≠ x.toNat := fun e => hcx (BitVec.eq_of_toNat_eq e)
        exact ⟨v, by rw [if_neg hne, hv], by rw [hf, if_neg hcx]; rfl, by rw [if_neg hcx]; omega⟩
    refine ⟨v, hv, ?_⟩
    rw [hcount, List.count_cons]
    by_cases hcx : c = x
    · subst hcx; simp; omega
    · simp [hcx, Ne.symm hcx]

theorem inputSymbols_length (s : State) (read : Nat) : (inputSymbols s read).length = s.inLen.toNat := by
  simp [inputSymbols]

/-- Each counter holds how often its symbol stands in the input (rule R111). -/
theorem countInput_look (s : State) (c : Byte) :
    ∃ v, (countInput s).freq.look c.toNat = some v ∧ v.toNat = (inputSymbols s 0).count c := by
  obtain ⟨v, hv, hcount⟩ := foldl_countSymbol_look (inputSymbols s 0) (s := s.clearFreq) (fun _ => 0)
    (fun c => ⟨0#32, clearFreq_look c.isLt, rfl, by
      rw [inputSymbols_length, Nat.zero_add]; exact s.inLen.isLt⟩) c
  exact ⟨v, hv, by rw [hcount, Nat.zero_add]⟩

theorem countOf_eq (s : State) (c : Byte) : s.countOf c = (inputSymbols s 0).count c := by
  rw [State.countOf, inputSymbols, List.count, List.countP_map, List.countP_eq_length_filter]
  rfl

theorem countInput_written (s : State) : (countInput s).FreqWritten := by
  intro i hi
  obtain ⟨v, hv, -⟩ := countInput_look s (BitVec.ofNat 8 i)
  rw [BitVec.toNat_ofNat, Nat.mod_eq_of_lt hi] at hv
  simp [hv]

theorem countInput_freqAt (s : State) (read : Nat) (c : Byte) :
    ((countInput s).freqAt read c.toNat).toNat = (inputSymbols s 0).count c := by
  obtain ⟨v, hv, hc⟩ := countInput_look s c
  rw [freqAt_of_look hv, hc]

/-- The counts add up to the length of the input (rule R126). -/
theorem countInput_total (s : State) : totalWeight (countInput s) = s.inLen.toNat := by
  have h := sum_count_mul (fun _ => 1) (inputSymbols s 0)
  rw [List.map_const', List.sum_replicate, inputSymbols_length, smul_eq_mul, Nat.mul_one] at h
  rw [← h, totalWeight]
  refine congrArg List.sum (List.map_congr_left fun n hn => ?_)
  have hn : n < 2 ^ 8 := List.mem_range.1 hn
  have hc := countInput_freqAt s 0 (BitVec.ofNat 8 n)
  rw [BitVec.toNat_ofNat, Nat.mod_eq_of_lt hn] at hc
  rw [hc, Nat.mul_one]

/-- The leaves of the tree are the symbols of the input. -/
theorem mem_leafBytes_countInput {s : State} {c : Byte} :
    c ∈ leafBytes (countInput s) ↔ c ∈ inputSymbols s 0 := by
  have hc := countInput_freqAt s 1 c
  rw [mem_leafBytes, ← List.count_pos_iff, ← hc, Nat.pos_iff_ne_zero, ne_eq, ne_eq, BitVec.toNat_eq]
  rfl

theorem leafSymbols_countInput_ne_nil (h : s.inLen ≠ 0#32) : leafSymbols (countInput s) ≠ [] := by
  intro e
  have hlen : 0 < (inputSymbols s 0).length := by
    rw [inputSymbols_length]
    exact Nat.pos_of_ne_zero fun h0 => h (BitVec.eq_of_toNat_eq h0)
  have hmem := mem_leafBytes_countInput.2 (List.getElem_mem hlen)
  rw [leafBytes, e] at hmem
  simp at hmem

end Counting

end Sys2Proof.Machine
end

section
/-! ENCODE packs the codes of its input (rules R125, R126). -/

namespace Sys2Proof.Machine

/-! ### The state before packing -/

/-- The code table of a CODES is written, at every symbol. -/
theorem buildCodes_written (s : State) (c : Byte) :
    ((buildCodes s).codeLen.look c.toNat).isSome ∧ ((buildCodes s).codePat.look c.toNat).isSome := by
  cases hv : (buildCodes s).validAt c with
  | false => simp [buildCodes_blank s c hv]
  | true =>
    obtain ⟨bits, hb⟩ := (buildCodes_prefixFree s).coded c hv
    simp [hb.len, hb.pat]

theorem buildCodes_codeLenAt_of_invalid {s : State} {c : Byte} (h : (buildCodes s).validAt c = false) :
    (buildCodes s).codeLenAt c = 0#8 := by
  simp [State.codeLenAt, buildCodes_blank s c h]

/-- What ENCODE leaves before it packs: FREQ, the tree and the code table new, the packer fresh (rule R125). -/
theorem encodeTable_frame (s : State) :
    ∃ link weight root cnt total valid len pat, buildCodes (encodeTree s) = packerInit { s with
      freq := (countInput s).freq, nodeLink := link, nodeWeight := weight, root := root, nodeCnt := cnt,
      symCnt := total, codeValid := valid, codeLen := len, codePat := pat } := by
  obtain ⟨f, hf⟩ := countInput_only s
  obtain ⟨a, b, c, d, e, ht⟩ := buildTree_frame (countInput s)
  obtain ⟨v, l, p, hc⟩ := buildCodes_only (encodeTree s)
  refine ⟨a, b, c, d, e, v, l, p, ?_⟩
  rw [hc, encodeTree, ht, hf]
  rfl

section Table

variable {s : State}

theorem encodeTable_inv (h : s.Inv) : (buildCodes (encodeTree s)).Inv := h.countInput.buildTree.packerInit.buildCodes

theorem encodeTable_packWritten (s : State) : (buildCodes (encodeTree s)).PackWritten := by
  obtain ⟨_, _, _, _, _, _, _, _, h⟩ := encodeTable_frame s
  intro i hi
  rw [h] at hi
  exact absurd hi (Nat.not_lt_zero i)

theorem encodeTable_position (s : State) : (buildCodes (encodeTree s)).position = 0 := by
  obtain ⟨_, _, _, _, _, _, _, _, h⟩ := encodeTable_frame s
  rw [h]
  rfl

theorem encodeTable_streamBits (s : State) : (buildCodes (encodeTree s)).streamBits = [] := by
  obtain ⟨_, _, _, _, _, _, _, _, h⟩ := encodeTable_frame s
  rw [h]
  rfl

/-- The passes over the input read it as the state before did. -/
theorem encodeTable_inputSymbols (s : State) (read : Nat) :
    inputSymbols (buildCodes (encodeTree s)) read = inputSymbols s read := by
  obtain ⟨_, _, _, _, _, _, _, _, h⟩ := encodeTable_frame s
  rw [h]
  rfl

theorem encodeTable_freqAt (s : State) (c : Byte) :
    ((buildCodes (encodeTree s)).freqAt 0 c.toNat).toNat = (inputSymbols s 0).count c := by
  obtain ⟨_, _, _, _, _, _, _, _, h⟩ := encodeTable_frame s
  obtain ⟨v, hv, hcount⟩ := countInput_look s c
  rw [freqAt_of_look (v := v) (by rw [h]; exact hv), hcount]

theorem codedLength_eq (s table : State) : s.codedLength table = (s.codedBits table).length := by
  simp [State.codedLength, State.codedBits, List.length_flatMap, codeBits]

theorem codedBits_eq (s table : State) : s.codedBits table = (inputSymbols s 0).flatMap (codeBits table) := by
  rw [State.codedBits, inputSymbols, List.flatMap_map]

/-- The sum ENCODE admits by is the length of the stream (rules R125, R126 (a)): a symbol without a code adds
nothing to either. -/
theorem encodedBits_eq (s : State) :
    encodedBits (buildCodes (encodeTree s)) = s.codedLength (buildCodes (encodeTree s)) := by
  have hterm : ∀ n ∈ List.range Config.alphabet,
      (if (buildCodes (encodeTree s)).validAt (BitVec.ofNat 8 n) then
        ((buildCodes (encodeTree s)).freqAt 0 n).toNat *
          ((buildCodes (encodeTree s)).codeLenAt (BitVec.ofNat 8 n)).toNat else 0) =
        (inputSymbols s 0).count (BitVec.ofNat 8 n) *
          ((buildCodes (encodeTree s)).codeLenAt (BitVec.ofNat 8 n)).toNat := by
    intro n hn
    have hn : n < 2 ^ 8 := List.mem_range.1 hn
    have hf := encodeTable_freqAt s (BitVec.ofNat 8 n)
    rw [BitVec.toNat_ofNat, Nat.mod_eq_of_lt hn] at hf
    cases hv : (buildCodes (encodeTree s)).validAt (BitVec.ofNat 8 n) with
    | true => rw [if_pos rfl, hf]
    | false => rw [buildCodes_codeLenAt_of_invalid hv]; simp
  rw [encodedBits, List.map_congr_left hterm,
    sum_count_mul fun c => ((buildCodes (encodeTree s)).codeLenAt c).toNat, State.codedLength, inputSymbols,
    List.map_map]
  rfl

/-- The tree ENCODE builds of nonempty input is stored (rules R110 to R113). -/
theorem encodeTree_stored (h : s.inLen ≠ 0#32) :
    ∃ T : CodeTree, T.StoredIn (encodeTree s).nodeLink ∧ T.root = (encodeTree s).root ∧
      T.nodes.Perm (List.range (encodeTree s).nodeCnt.toNat) ∧ T.symbols.Perm (leafBytes (countInput s)) :=
  buildTree_stored (leafSymbols_countInput_ne_nil h)

theorem encodeTree_root_ne_nil (h : s.inLen ≠ 0#32) : (encodeTree s).root ≠ nilIx := by
  obtain ⟨T, -, hroot, hnodes, -⟩ := encodeTree_stored h
  refine root_ne_nil (buildTree_nodeCnt_le (countInput s)) ?_
  rw [← hroot]
  exact List.mem_range.1 (hnodes.mem_iff.1 T.root_mem_nodes)

end Table

/-! ### Packing -/

/-- A packer operation leaves the codes of every symbol. -/
theorem OnlyPacker.codeBits {s t : State} (h : OnlyPacker s t) (c : Byte) : codeBits t c = codeBits s c := by
  obtain ⟨_, _, _, _, _, _, _, rfl⟩ := h
  rfl

theorem OnlyPacker.flatMap_codeBits {s t : State} (h : OnlyPacker s t) (cs : List Byte) :
    cs.flatMap (Machine.codeBits t) = cs.flatMap (Machine.codeBits s) := by
  rw [funext h.codeBits]

/-- The codes put one after the other are one append of all their bits. -/
theorem foldl_putCode (cs : List Byte) (s : State) :
    cs.foldl putCode s = pushBits s (cs.flatMap (codeBits s)) := by
  induction cs generalizing s with
  | nil => rfl
  | cons c cs ih =>
    rw [List.foldl_cons, ih, (putCode_only s c).flatMap_codeBits, List.flatMap_cons, pushBits_append]
    rfl

theorem pushBits_bwFin (s : State) (bits : List Bool) : (pushBits s bits).bwFin = s.bwFin := by
  induction bits generalizing s with
  | nil => rfl
  | cons b bits ih =>
    refine (ih (appendBit s b)).trans ?_
    unfold appendBit
    dsimp only
    split <;> simp

/-- FINISH after a fit packing (rule R98). -/
theorem finishBody_fits {s : State} (h : s.Inv) (hfin : s.bwFin = false)
    (hfit : (s.position + 7) / 8 ≤ s.packCap) : finishBody s = .done (finishStream s) := by
  have hfree := h.free_range
  unfold State.position at hfit
  have hno : ¬(s.bwFree.toNat < 8 ∧ s.packCap < s.packLen.toNat + 1) := by omega
  rw [finishBody, hfin, if_neg (by simp), if_neg hno]

/-- Packing that fits puts every code and finishes the stream: no check of it raises (rule R125). -/
theorem packSymbols_fits {cs : List Byte} {s : State} (h : s.Inv) (hw : s.PackWritten) (hfin : s.bwFin = false)
    (hfit : (s.position + (cs.flatMap (codeBits s)).length + 7) / 8 ≤ s.packCap) :
    packSymbols cs s = .done (finishStream (pushBits s (cs.flatMap (codeBits s)))) := by
  suffices hok : (packSymbols cs s).result = .ok by rw [packSymbols_ok hok, foldl_putCode]
  induction cs generalizing s with
  | nil =>
    rw [packSymbols, finishBody_fits h hfin (by simpa using hfit)]
    rfl
  | cons c cs ih =>
    have hrest := (putCode_only s c).flatMap_codeBits cs
    rw [List.flatMap_cons, List.length_append] at hfit
    have happ := pushBits_appended h hw (codeBits s c) (by omega)
    obtain ⟨_, _, _, _, _, _, _, he⟩ := putCode_only s c
    rw [packSymbols, if_pos ((h.fits_iff _).2 (by omega))]
    refine ih happ.inv happ.written ((pushBits_bwFin s _).trans hfin) ?_
    rw [hrest, show (putCode s c).position = s.position + (codeBits s c).length from happ.position, he]
    dsimp only
    omega

/-! ### ENCODE of written input -/

section Encode

variable {s : State}

/-- What a completed ENCODE of nonempty input leaves: the table's state with the stream packed and finished. -/
def encoded (s : State) : State :=
  finishStream (pushBits (buildCodes (encodeTree s)) (s.codedBits (buildCodes (encodeTree s))))

theorem encodeBody_lenRange (h : s.symCap < s.inLen.toNat) :
    encodeBody s = .raise s .lenRange Detail.inLenRange := if_pos h

/-- An ENCODE of nonempty written input completes exactly when the stream fits (rules R125, R126). -/
theorem encodeBody_eq (h : s.Inv) (hw : s.InputWritten) (hlen : s.inLen.toNat ≤ s.symCap)
    (hne : s.inLen ≠ 0#32) :
    encodeBody s = if s.packCap < (s.codedLength (buildCodes (encodeTree s)) + 7) / 8 then
      .raise (buildCodes (encodeTree s)) .packOvf Detail.none else .done (encoded s) := by
  have hinv := encodeTable_inv h
  have hpos := encodeTable_position s
  obtain ⟨_, _, _, _, _, _, _, _, hu⟩ := encodeTable_frame s
  have hcap : (buildCodes (encodeTree s)).packCap = s.packCap := by rw [hu]; rfl
  have hfin : (buildCodes (encodeTree s)).bwFin = false := by rw [hu]; rfl
  rw [encodeBody, if_neg (Nat.not_lt.2 hlen)]
  dsimp only
  rw [if_neg (encodeTree_root_ne_nil hne), encodedBits_eq, hcap, encodeTable_inputSymbols,
    hw.inputSymbols_read 1 0]
  split
  · rfl
  · next hfit =>
    have hbits := codedBits_eq s (buildCodes (encodeTree s))
    rw [packSymbols_fits hinv (encodeTable_packWritten s) hfin
      (by rw [hpos, Nat.zero_add, ← hbits, ← codedLength_eq, hcap]; omega), ← hbits]
    rfl

/-- The stream as ENCODE leaves it, its length and its place in PACK (rule R126 (b), (c)). -/
theorem encoded_spec (h : s.Inv)
    (hfit : (s.codedLength (buildCodes (encodeTree s)) + 7) / 8 ≤ s.packCap) :
    (encoded s).significantBits = s.codedBits (buildCodes (encodeTree s)) ∧
      (encoded s).totalBits.toNat = s.codedLength (buildCodes (encodeTree s)) ∧
      (encoded s).packLen.toNat = (s.codedLength (buildCodes (encodeTree s)) + 7) / 8 ∧
      (encoded s).trail.toNat =
        8 * ((s.codedLength (buildCodes (encodeTree s)) + 7) / 8) - s.codedLength (buildCodes (encodeTree s)) ∧
      (encoded s).PackWritten ∧
      ∀ j, (encoded s).packLen.toNat ≤ j → (encoded s).pack.look j = s.pack.look j := by
  have hpos := encodeTable_position s
  obtain ⟨_, _, _, _, _, _, _, _, hu⟩ := encodeTable_frame s
  have hcap : (buildCodes (encodeTree s)).packCap = s.packCap := by rw [hu]; rfl
  have htotal : (buildCodes (encodeTree s)).totalBits.toNat = 0 := by rw [hu]; rfl
  have hpack : (buildCodes (encodeTree s)).pack = s.pack := by rw [hu]; rfl
  have hmax : s.packCap ≤ 262144 := h.packCap_range.2
  rw [codedLength_eq] at hfit ⊢
  have happ := pushBits_appended (encodeTable_inv h) (encodeTable_packWritten s)
    (s.codedBits (buildCodes (encodeTree s))) (by rw [hpos, hcap]; omega)
  obtain ⟨_, _, _, _, _, _, _, he⟩ :=
    pushBits_only (buildCodes (encodeTree s)) (s.codedBits (buildCodes (encodeTree s)))
  have hposition := happ.position
  rw [hpos, Nat.zero_add] at hposition
  have hcap' : (pushBits (buildCodes (encodeTree s)) (s.codedBits (buildCodes (encodeTree s)))).packCap =
      s.packCap := by rw [he]; exact hcap
  obtain ⟨hsig, hlen, htrail, hwritten, hframe⟩ := finishStream_spec happ.inv happ.written
    (by rw [hposition, hcap']; exact hfit)
  rw [hposition] at hlen htrail
  refine ⟨?_, ?_, hlen, htrail, hwritten, fun j hj => ?_⟩
  · rw [encoded, hsig, happ.stream, encodeTable_streamBits, List.nil_append]
  · rw [encoded, (finishStream_registers _).2.2.2, happ.total (by rw [htotal]; omega), htotal, Nat.zero_add]
  · have hle : (pushBits (buildCodes (encodeTree s))
        (s.codedBits (buildCodes (encodeTree s)))).packLen.toNat ≤ (encoded s).packLen.toNat := by
      rw [happ.inv.packLen_eq, encoded, hlen, hposition]
      omega
    rw [encoded, hframe j (.inr hj), happ.frame j (.inr (hle.trans hj)), hpack]

theorem encoded_only (s : State) : OnlyPacker (buildCodes (encodeTree s)) (encoded s) :=
  (pushBits_only _ _).trans (finishStream_only _)

/-- The tree ENCODE leaves is the one BUILD makes of the counts. -/
theorem encoded_tree (s : State) :
    (encoded s).nodeLink = (buildTree (countInput s)).nodeLink ∧
      (encoded s).nodeWeight = (buildTree (countInput s)).nodeWeight ∧
      (encoded s).root = (buildTree (countInput s)).root ∧
      (encoded s).nodeCnt = (buildTree (countInput s)).nodeCnt ∧
      (encoded s).symCnt = (buildTree (countInput s)).symCnt := by
  obtain ⟨_, _, _, _, _, _, _, he⟩ := encoded_only s
  obtain ⟨_, _, _, hu⟩ := buildCodes_only (encodeTree s)
  rw [he, hu]
  exact ⟨rfl, rfl, rfl, rfl, rfl⟩

theorem countInput_node (s : State) (i : Nat) : (countInput s).SameNode s i := by
  obtain ⟨_, h⟩ := countInput_only s
  rw [h]
  exact ⟨rfl, rfl⟩

/-- The completed ENCODE, where the stream fits. -/
theorem exec_encode_fits (h : s.Inv) (hw : s.InputWritten) (hlen : s.inLen.toNat ≤ s.symCap)
    (hne : s.inLen ≠ 0#32) (hfit : (s.codedLength (buildCodes (encodeTree s)) + 7) / 8 ≤ s.packCap) :
    exec .encode s = .next ((encoded s).complete 0x50#8 .ok 0x00#8 false) := by
  rw [exec_eq, bodyOf, encodeBody_eq h hw hlen hne, if_neg (Nat.not_lt.2 hfit)]
  rfl

/-- No node at or above NODE_CNT is written by a BUILD (rule R110). -/
theorem buildTree_other {s : State} {i : Nat} (hi : (buildTree s).nodeCnt.toNat ≤ i) :
    (buildTree s).SameNode s i := by
  by_cases h : leafSymbols s = []
  · rw [buildTree_empty h]
    exact ⟨rfl, rfl⟩
  · have hk := leafSymbols_length_le s
    rw [buildTree_eq h] at hi ⊢
    dsimp only at hi
    rw [BitVec.toNat_ofNat, Nat.mod_eq_of_lt (by omega)] at hi
    refine State.writeNodes_other (s := s.invalidateCodes) fun w hw e => ?_
    have := List.mem_range.1 (buildWrites_indices s ▸ List.mem_map_of_mem hw)
    omega

/-- Settles O37: the table's state is what packing starts from, and the packed stream is the codes' bits. -/
theorem encodePacksTheCodes : Obligations.EncodePacksTheCodes := by
  intro s h hw hlen hne hfit
  obtain ⟨hsig, htotal, hplen, htrail, hwritten, hframe⟩ := encoded_spec h hfit
  obtain ⟨cur, free, fin, total, len, trail, pack, he⟩ := encoded_only s
  obtain ⟨hcur, hfree, hfin⟩ : (encoded s).bwCur = 0#8 ∧ (encoded s).bwFree = 8#4 ∧ (encoded s).bwFin = true :=
    ⟨(finishStream_registers _).1, (finishStream_registers _).2.1, (finishStream_registers _).2.2.1⟩
  rw [he] at hcur hfree hfin
  obtain rfl : cur = 0#8 := hcur
  obtain rfl : free = 8#4 := hfree
  obtain rfl : fin = true := hfin
  refine ⟨_, exec_encode_fits h hw hlen hne hfit, rfl, htotal, ?_, ?_, ?_, ?_, fun i hi => ?_, hframe, ?_⟩
  · exact hplen.trans (by rw [State.complete_totalBits, htotal])
  · rw [State.complete_trail, State.complete_packLen, State.complete_totalBits, htrail, hplen, htotal]
  · rw [hwritten.significantBits_complete, hsig]
  · rw [he]; rfl
  · obtain ⟨hlink, hweight, -, hcnt, -⟩ := encoded_tree s
    rw [State.complete_nodeCnt, hcnt] at hi
    rw [State.complete_nodeLink, State.complete_nodeWeight, hlink, hweight]
    exact (buildTree_other hi).trans (countInput_node s i)
  · obtain ⟨_, _, _, _, _, _, _, _, hu⟩ := encodeTable_frame s
    rw [he, hu]
    rfl

end Encode

end Sys2Proof.Machine
end

section
/-! ENCODE and the commands it is made of, issued one by one (rule R123): the pseudocode of each reads neither
STATUS nor the latch, and no draw where what it reads has been written. -/

namespace Sys2Proof.Machine

/-! ### The fields a completion sets -/

/-- BUSY, the fields of STATUS, the latch and the counter of draws: what every completion sets. -/
structure Status where
  busy : Bool
  trunc : Bool
  result : Result
  detail : Byte
  lastop : Byte
  latch : Option Word
  draws : Nat

/-- The state with these fields. -/
def State.withStatus (s : State) (x : Status) : State :=
  { s with
    busy := x.busy
    trunc := x.trunc
    result := x.result
    detail := x.detail
    lastop := x.lastop
    latch := x.latch
    draws := x.draws }

/-- The status a command leaves that completes with OK and TRUNC 0 (rule R83). -/
def Status.okay (op : Byte) (draws : Nat) : Status := ⟨false, false, .ok, 0x00#8, op, none, draws⟩

theorem State.complete_ok (s : State) (op : Byte) :
    s.complete op .ok 0x00#8 false = s.withStatus (.okay op (s.draws + 1)) := rfl

theorem State.withStatus_complete_ok (s : State) (x : Status) (op : Byte) :
    (s.withStatus x).complete op .ok 0x00#8 false = s.withStatus (.okay op (x.draws + 1)) := rfl

theorem State.withStatus_withStatus (s : State) (x y : Status) :
    (s.withStatus x).withStatus y = s.withStatus y := rfl

theorem packerInit_withStatus (s : State) (x : Status) :
    packerInit (s.withStatus x) = (packerInit s).withStatus x := rfl

section Status

variable {s : State} (x : Status)

/-! ### The tree and the codes -/

theorem writeNode_withStatus (s : State) (i : Nat) (e : NodeLink) (v : Word) :
    (s.withStatus x).writeNode i e v = (s.writeNode i e v).withStatus x := by
  unfold State.writeNode State.writeWeight State.writeLink
  split <;> rfl

theorem writeNodes_withStatus (s : State) (ws : List NodeWrite) :
    (s.withStatus x).writeNodes ws = (s.writeNodes ws).withStatus x := by
  induction ws generalizing s with
  | nil => rfl
  | cons w ws ih => rw [State.writeNodes_cons, State.writeNodes_cons, writeNode_withStatus, ih]

/-- BUILD of written counters reads nothing of the status. -/
theorem buildTree_withStatus (hw : s.FreqWritten) (ht : totalWeight s < 2 ^ 32) :
    buildTree (s.withStatus x) = (buildTree s).withStatus x := by
  have h : SameCounters s (s.withStatus x) := ⟨hw, fun _ _ => rfl⟩
  by_cases hleaf : leafSymbols s = []
  · rw [buildTree_empty hleaf, buildTree_empty (h.leafSymbols ▸ hleaf)]
    rfl
  · have hi : (s.withStatus x).invalidateCodes = s.invalidateCodes.withStatus x := rfl
    rw [buildTree_eq hleaf, buildTree_eq (h.leafSymbols ▸ hleaf), ← h.buildWrites ht, ← h.leafSymbols,
      ← h.totalWeight, hi, writeNodes_withStatus]
    rfl

theorem writePaths_withStatus (s : State) (paths : List (List Bool × Byte)) :
    (s.withStatus x).writePaths paths = (s.writePaths paths).withStatus x := by
  induction paths generalizing s with
  | nil => rfl
  | cons p paths ih => exact ih (s.writeCode p.2 (pathNat p.1) p.1.length)

theorem writePaths_packerInit (s : State) (paths : List (List Bool × Byte)) :
    (packerInit s).writePaths paths = packerInit (s.writePaths paths) := by
  induction paths generalizing s with
  | nil => rfl
  | cons p paths ih => exact ih (s.writeCode p.2 (pathNat p.1) p.1.length)

section Stored

variable {T : CodeTree} (h : T.StoredIn s.nodeLink) (hroot : T.root = s.root) (hne : s.root ≠ nilIx)
  (hsyms : T.symbols.Nodup)

include h hroot hne hsyms

/-- CODES of a stored tree reads nothing of the status. -/
theorem buildCodes_withStatus : buildCodes (s.withStatus x) = (buildCodes s).withStatus x := by
  rw [buildCodes_eq_writePaths h hroot hne hsyms,
    buildCodes_eq_writePaths (s := s.withStatus x) h hroot hne hsyms]
  exact writePaths_withStatus x s.clearCodes T.codes

/-- CODES of a stored tree and a fresh packer come in either order. -/
theorem buildCodes_packerInit : buildCodes (packerInit s) = packerInit (buildCodes s) := by
  rw [buildCodes_eq_writePaths h hroot hne hsyms,
    buildCodes_eq_writePaths (s := packerInit s) h hroot hne hsyms]
  exact writePaths_packerInit s.clearCodes T.codes

end Stored

/-! ### The packer -/

theorem fillSlot_withStatus (h : s.totalBits.toNat + 1 < 2 ^ 32) (b : Bool) :
    fillSlot (s.withStatus x) b = (fillSlot s b).withStatus x := by
  have ht : nextTotalBits (s.withStatus x) = nextTotalBits s :=
    BitVec.eq_of_toNat_eq ((nextTotalBits_toNat (s := s.withStatus x) h).trans (nextTotalBits_toNat h).symm)
  rw [fillSlot, ht]
  rfl

theorem writePack_withStatus (s : State) (i : Nat) (v : Byte) :
    (s.withStatus x).writePack i v = (s.writePack i v).withStatus x := by
  by_cases h : i < s.packCap
  · rw [State.writePack, State.writePack, if_pos h, if_pos (show i < (s.withStatus x).packCap from h)]
    rfl
  · rw [State.writePack, State.writePack, if_neg h, if_neg (show ¬ i < (s.withStatus x).packCap from h)]

theorem flushByte_withStatus (s : State) : flushByte (s.withStatus x) = (flushByte s).withStatus x := by
  have h := writePack_withStatus x s s.packLen.toNat s.bwCur
  change { (s.withStatus x).writePack s.packLen.toNat s.bwCur with
    packLen := s.packLen + 1#32, bwCur := 0#8, bwFree := 8#4 } = _
  rw [h]
  rfl

theorem appendBit_withStatus (h : s.totalBits.toNat + 1 < 2 ^ 32) (b : Bool) :
    appendBit (s.withStatus x) b = (appendBit s b).withStatus x := by
  unfold appendBit
  dsimp only
  rw [fillSlot_withStatus x h]
  change (if (fillSlot s b).bwFree = 0#4 then _ else _) = _
  split
  · exact flushByte_withStatus x _
  · rfl

theorem appendBit_totalBits (s : State) (b : Bool) : (appendBit s b).totalBits = nextTotalBits s := by
  unfold appendBit
  dsimp only
  split <;> simp

theorem pushBits_totalBits {bits : List Bool} (h : s.totalBits.toNat + bits.length < 2 ^ 32) :
    (pushBits s bits).totalBits.toNat = s.totalBits.toNat + bits.length := by
  induction bits generalizing s with
  | nil => rfl
  | cons b bits ih =>
    rw [List.length_cons] at h ⊢
    have h1 : (appendBit s b).totalBits.toNat = s.totalBits.toNat + 1 := by
      rw [appendBit_totalBits, nextTotalBits_toNat (by omega)]
    have h2 := ih (s := appendBit s b) (by omega)
    rw [h1] at h2
    exact h2.trans (by omega)

/-- An append reads nothing of the status while TOTAL_BITS is in range (log 5). -/
theorem pushBits_withStatus {bits : List Bool} (h : s.totalBits.toNat + bits.length < 2 ^ 32) :
    pushBits (s.withStatus x) bits = (pushBits s bits).withStatus x := by
  induction bits generalizing s with
  | nil => rfl
  | cons b bits ih =>
    rw [List.length_cons] at h
    have h1 : (appendBit s b).totalBits.toNat = s.totalBits.toNat + 1 := by
      rw [appendBit_totalBits, nextTotalBits_toNat (by omega)]
    refine Eq.trans ?_ (ih (s := appendBit s b) (by omega))
    rw [← appendBit_withStatus x (by omega)]
    rfl

theorem finishStream_withStatus (s : State) :
    finishStream (s.withStatus x) = (finishStream s).withStatus x := by
  by_cases h : s.bwFree.toNat < 8
  · rw [finishStream, finishStream, if_pos h, if_pos (show (s.withStatus x).bwFree.toNat < 8 from h),
      flushByte_withStatus]
    rfl
  · rw [finishStream, finishStream, if_neg h, if_neg (show ¬ (s.withStatus x).bwFree.toNat < 8 from h)]
    rfl

/-- The code of a symbol is read without a draw once its entries have been written. -/
theorem codeBits_withStatus {c : Byte}
    (h : (s.codeLen.look c.toNat).isSome ∧ (s.codePat.look c.toNat).isSome) :
    codeBits (s.withStatus x) c = codeBits s c := by
  obtain ⟨l, hl⟩ := Option.isSome_iff_exists.1 h.1
  obtain ⟨p, hp⟩ := Option.isSome_iff_exists.1 h.2
  simp [codeBits, State.codeLenAt, State.codePatAt, State.withStatus, hl, hp]

end Status

/-! ### Commands that complete with OK -/

section Ok

variable {s t : State}

theorem exec_putsym_ok {c : Byte} (h : exec (.putsym c) s = .next t) (hok : t.result = .ok) :
    t = (putCode s c).complete 0x12#8 .ok 0x00#8 false := by
  rw [exec_eq] at h
  cases h
  simp only [bodyOf, putsymBody, appendBits, Ended.completed] at hok ⊢
  split at hok
  · cases hok
  · split at hok
    · cases hok
    · split at hok
      · next h1 h2 h3 => rw [if_neg h1, if_neg h2, if_pos h3]; rfl
      · cases hok

theorem exec_finish_ok (h : exec .finish s = .next t) (hok : t.result = .ok) :
    t = (finishStream s).complete 0x13#8 .ok 0x00#8 false := by
  rw [exec_eq] at h
  cases h
  simp only [bodyOf, finishBody, Ended.completed] at hok ⊢
  split at hok
  · cases hok
  · split at hok
    · cases hok
    · next h1 h2 => rw [if_neg h1, if_neg h2]; rfl

theorem exec_codes_ok (h : exec .codes s = .next t) (hok : t.result = .ok) :
    t = (buildCodes s).complete 0x41#8 .ok 0x00#8 false := by
  by_cases hv : validTree s = 0#8
  · rw [exec_codes_valid hv] at h
    cases h
    rfl
  · rw [exec_codes_invalid hv] at h
    cases h
    cases hok

theorem exec_build_ok (h : exec .build s = .next t) (hok : t.result = .ok) :
    t = (buildTree s).complete 0x33#8 .ok 0x00#8 false := by
  by_cases hfit : totalWeight s < 2 ^ 32
  · rw [exec_build_fits hfit] at h
    cases h
    rfl
  · rw [exec_build_ovf (Nat.not_lt.1 hfit)] at h
    cases h
    cases hok

theorem exec_fcount_ok (h : exec .fcount s = .next t) (hok : t.result = .ok) :
    t = (countInput s).complete 0x32#8 .ok 0x00#8 false := by
  rw [exec_eq] at h
  cases h
  simp only [bodyOf, fcountBody, Ended.completed] at hok ⊢
  split at hok
  · cases hok
  · next h1 => rw [if_neg h1]; rfl

theorem pushBits_nil (s : State) : pushBits s [] = s := rfl

/-- A fresh packer has nothing partial to pad (rule R98). -/
theorem finishStream_fresh (s : State) : finishStream (packerInit s) = { packerInit s with bwFin := true } := by
  rw [finishStream, if_neg (by simp [packerInit])]
  rfl

theorem exec_bwinit (s : State) :
    exec .bwinit s = .next ((packerInit s).complete 0x10#8 .ok 0x00#8 false) := rfl

theorem execAll_cons {i : Instr} {rest : List Instr} {u : State} (h : execAll (i :: rest) s = some u) :
    ∃ t, exec i s = .next t ∧ t.result = .ok ∧ execAll rest t = some u := by
  rw [execAll, exec_eq] at h
  dsimp only at h
  split at h
  · next hok => exact ⟨_, exec_eq i s, hok, h⟩
  · cases h

/-- PUTSYM for each symbol and then FINISH, each with OK, is one append of all codes, finished. -/
theorem execAll_putsyms {cs : List Byte} {s u : State} {x : Status}
    (hw : ∀ c : Byte, (s.codeLen.look c.toNat).isSome ∧ (s.codePat.look c.toNat).isSome)
    (ht : s.totalBits.toNat + (cs.flatMap (codeBits s)).length < 2 ^ 32)
    (h : execAll (cs.map .putsym ++ [.finish]) (s.withStatus x) = some u) :
    ∃ n, u = (finishStream (pushBits s (cs.flatMap (codeBits s)))).withStatus (.okay 0x13#8 n) := by
  induction cs generalizing s x with
  | nil =>
    obtain ⟨t, hexec, hok, h⟩ := execAll_cons h
    cases h
    rw [exec_finish_ok hexec hok, finishStream_withStatus, State.withStatus_complete_ok]
    exact ⟨_, rfl⟩
  | cons c cs ih =>
    obtain ⟨t, hexec, hok, h⟩ := execAll_cons h
    rw [List.flatMap_cons, List.length_append] at ht
    have hput : putCode (s.withStatus x) c = (putCode s c).withStatus x := by
      rw [putCode, codeBits_withStatus x (hw c), pushBits_withStatus x (by omega)]
      rfl
    have htotal : (putCode s c).totalBits.toNat = s.totalBits.toNat + (codeBits s c).length :=
      pushBits_totalBits (by omega)
    have hcodes := (putCode_only s c).flatMap_codeBits cs
    obtain ⟨_, _, _, _, _, _, _, he⟩ := putCode_only s c
    rw [exec_putsym_ok hexec hok, hput, State.withStatus_complete_ok] at h
    obtain ⟨n, hn⟩ := ih (fun d => by rw [he]; exact hw d) (by rw [htotal, hcodes]; omega) h
    refine ⟨n, ?_⟩
    rw [hn, hcodes, List.flatMap_cons, pushBits_append]
    rfl

end Ok

/-! ### The two routes -/

section Routes

variable {s t u : State}

theorem inLen_le_of_encode_ok (h : exec .encode s = .next t) (hok : t.result = .ok) :
    s.inLen.toNat ≤ s.symCap := by
  by_contra hlt
  rw [exec_eq, bodyOf, encodeBody_lenRange (Nat.not_le.1 hlt)] at h
  cases h
  cases hok

/-- The stream of an ENCODE that completed fits (rule R125). -/
theorem fits_of_encode_ok (h : s.Inv) (hw : s.InputWritten) (hne : s.inLen ≠ 0#32)
    (hexec : exec .encode s = .next t) (hok : t.result = .ok) :
    (s.codedLength (buildCodes (encodeTree s)) + 7) / 8 ≤ s.packCap := by
  by_contra hlt
  rw [exec_eq, bodyOf, encodeBody_eq h hw (inLen_le_of_encode_ok hexec hok) hne, if_pos (Nat.not_le.1 hlt)]
    at hexec
  cases hexec
  cases hok

theorem leafSymbols_countInput_nil (h : s.inLen = 0#32) : leafSymbols (countInput s) = [] := by
  have hin : inputSymbols s 0 = [] := List.length_eq_zero_iff.1 (by rw [inputSymbols_length, h]; rfl)
  have hbytes : leafBytes (countInput s) = [] := List.eq_nil_iff_forall_not_mem.2 fun c hc => by
    have := mem_leafBytes_countInput.1 hc
    rw [hin] at this
    cases this
  exact List.map_eq_nil_iff.1 hbytes

theorem buildTree_countInput_root_nil (h : s.inLen = 0#32) : (buildTree (countInput s)).root = nilIx := by
  rw [buildTree_empty (leafSymbols_countInput_nil h)]

/-- ENCODE of empty input returns with the packer finished (rule R125). -/
theorem exec_encode_empty (h : s.inLen = 0#32) :
    exec .encode s = .next (State.complete { encodeTree s with bwFin := true } 0x50#8 .ok 0x00#8 false) := by
  have hlen : ¬ s.symCap < s.inLen.toNat := by rw [h]; exact Nat.not_lt_zero _
  have hroot : (encodeTree s).root = nilIx := buildTree_countInput_root_nil h
  rw [exec_eq, bodyOf, encodeBody, if_neg hlen]
  dsimp only
  rw [if_pos hroot]
  rfl

/-- The four commands before the packing, each with OK, give their bodies one after the other. -/
theorem execAll_toPacking {rest : List Instr}
    (h : execAll ([.fcount, .build, .codes, .bwinit] ++ rest) s = some u) :
    ∃ x y, execAll rest ((packerInit (buildCodes ((buildTree (countInput s)).withStatus x))).withStatus y) =
      some u := by
  obtain ⟨t₁, h₁, hok₁, h⟩ := execAll_cons h
  obtain ⟨t₂, h₂, hok₂, h⟩ := execAll_cons h
  obtain ⟨t₃, h₃, hok₃, h⟩ := execAll_cons h
  obtain ⟨t₄, h₄, -, h⟩ := execAll_cons h
  have hfits : totalWeight (countInput s) < 2 ^ 32 := countInput_total s ▸ s.inLen.isLt
  rw [exec_fcount_ok h₁ hok₁, State.complete_ok] at h₂
  have hb := exec_build_ok h₂ hok₂
  rw [buildTree_withStatus _ (countInput_written s) hfits, State.withStatus_complete_ok] at hb
  rw [hb] at h₃
  have hc := exec_codes_ok h₃ hok₃
  rw [hc, State.complete_ok, exec_bwinit, packerInit_withStatus, State.withStatus_complete_ok] at h₄
  cases h₄
  exact ⟨_, _, h⟩

/-- BWINIT after CODES of the tree BUILD makes gives the table ENCODE packs by, the status apart. -/
theorem stepwiseTable (hne : s.inLen ≠ 0#32) (x : Status) :
    packerInit (buildCodes ((buildTree (countInput s)).withStatus x)) =
      (buildCodes (encodeTree s)).withStatus x := by
  obtain ⟨T, hT, hroot, -, hsyms⟩ := buildTree_stored (leafSymbols_countInput_ne_nil hne)
  have hnd : T.symbols.Nodup := hsyms.nodup_iff.2 (leafBytes_nodup _)
  have hnil : (buildTree (countInput s)).root ≠ nilIx := encodeTree_root_ne_nil hne
  rw [encodeTree, buildCodes_packerInit hT hroot hnil hnd, buildCodes_withStatus x hT hroot hnil hnd]
  rfl

theorem encodeTable_totalBits (s : State) : (buildCodes (encodeTree s)).totalBits.toNat = 0 := by
  obtain ⟨_, _, _, _, _, _, _, _, hu⟩ := encodeTable_frame s
  rw [hu]
  rfl

/-- The packing commands, each with OK, from the table of nonempty input whose stream fits. -/
theorem stepwise_nonempty (h : s.Inv) (hne : s.inLen ≠ 0#32) {x y : Status}
    (hfit : (s.codedLength (buildCodes (encodeTree s)) + 7) / 8 ≤ s.packCap)
    (hsteps : execAll ((inputSymbols s 0).map .putsym ++ [.finish])
      ((packerInit (buildCodes ((buildTree (countInput s)).withStatus x))).withStatus y) = some u) :
    ∃ n, u = (encoded s).withStatus (.okay 0x13#8 n) := by
  have hmax : s.packCap ≤ 262144 := h.packCap_range.2
  rw [stepwiseTable hne, State.withStatus_withStatus] at hsteps
  obtain ⟨n, hn⟩ := execAll_putsyms (x := y) (buildCodes_written (encodeTree s))
    (by rw [encodeTable_totalBits, ← codedBits_eq, ← codedLength_eq]; omega) hsteps
  rw [← codedBits_eq] at hn
  exact ⟨n, hn⟩

/-- The packing commands of empty input: FINISH alone, from a cleared code table. -/
theorem stepwise_empty (hempty : s.inLen = 0#32) {x y : Status}
    (hsteps : execAll ((inputSymbols s 0).map .putsym ++ [.finish])
      ((packerInit (buildCodes ((buildTree (countInput s)).withStatus x))).withStatus y) = some u) :
    ∃ n, u = ({ packerInit ((buildTree (countInput s)).withStatus x).clearCodes with bwFin := true } :
      State).withStatus (.okay 0x13#8 n) := by
  have hin : inputSymbols s 0 = [] := List.length_eq_zero_iff.1 (by rw [inputSymbols_length, hempty]; rfl)
  have hcodes := buildCodes_nil (s := (buildTree (countInput s)).withStatus x)
    (buildTree_countInput_root_nil hempty)
  rw [hcodes, hin] at hsteps
  obtain ⟨n, hn⟩ := execAll_putsyms (cs := []) (x := y)
    (fun c => by simp [packerInit, Memory.look_tabulate, show c.toNat < Config.alphabet from c.isLt])
    (by rw [List.flatMap_nil]; exact (by decide : (0 : Nat) < 2 ^ 32)) hsteps
  rw [List.flatMap_nil, pushBits_nil, finishStream_fresh] at hn
  exact ⟨n, hn⟩

/-- Settles O38: both routes are the same append to the same table, the status apart. -/
theorem encodeIsTheStepwiseRoute : Obligations.EncodeIsTheStepwiseRoute := by
  intro s t u h hw hexec hok hsteps
  have hputs : (List.range s.inLen.toNat).map (fun i => Instr.putsym (s.symInAt 0 i)) =
      (inputSymbols s 0).map .putsym := by rw [inputSymbols, List.map_map]; rfl
  rw [List.append_assoc, hputs] at hsteps
  obtain ⟨x, y, hsteps⟩ := execAll_toPacking hsteps
  refine ⟨fun hne => ?_, fun hempty => ?_⟩
  · have hfit := fits_of_encode_ok h hw hne hexec hok
    obtain ⟨n, hn⟩ := stepwise_nonempty h hne hfit hsteps
    rw [exec_encode_fits h hw (inLen_le_of_encode_ok hexec hok) hne hfit] at hexec
    cases hexec
    rw [hn]
    generalize encoded s = e
    rfl
  · obtain ⟨n, hn⟩ := stepwise_empty hempty hsteps
    rw [exec_encode_empty hempty] at hexec
    cases hexec
    rw [hn, encodeTree, buildTree_empty (leafSymbols_countInput_nil hempty)]
    generalize countInput s = e
    rfl

end Routes

end Sys2Proof.Machine
end

section
/-! DECODE reads the significant bits one by one and follows the tree with them (rules R128 to R131), and so
restores what ENCODE packed (rule R134). -/

namespace Sys2Proof.Machine

/-! ### The reader as a position in the stream -/

/-- The number of bits before the reader's position (rules R28, R29). -/
def State.readPos (s : State) : Nat := 8 * s.brPos.toNat + (7 - s.brBit.toNat)

/-- The significant bits from the reader's position on. -/
def State.restBits (s : State) : List Bool := s.significantBits.drop s.readPos

section Reader

variable {s t : State}

theorem significantBits_length (s : State) :
    s.significantBits.length = 8 * s.packLen.toNat - s.trail.toNat := by
  rw [State.significantBits, List.length_take, packBits_length]
  omega

/-- A position is significant as long as bits are left (rule R100). -/
theorem significant_iff_readPos (s : State) : significant s = true ↔ s.readPos < s.significantBits.length := by
  have ht : s.trail.toNat < 8 := s.trail.isLt
  have hb : s.brBit.toNat < 8 := s.brBit.isLt
  rw [significant_iff, significantBits_length, State.readPos]
  omega

theorem significant_iff_restBits (s : State) : significant s = true ↔ s.restBits ≠ [] := by
  rw [significant_iff_readPos, State.restBits, ne_eq, List.drop_eq_nil_iff, Nat.not_le]

/-- A bit of a stream of bytes, by its byte and its place in it. -/
theorem flatMap_byte_getElem {f : Nat → List Bool} (hf : ∀ i, (f i).length = 8) {n i j : Nat} (hi : i < n)
    (hj : j < 8) : ((List.range n).flatMap f)[8 * i + j]? = (f i)[j]? := by
  have hlen : ∀ m, ((List.range m).flatMap f).length = 8 * m := fun m => by
    simp [List.length_flatMap, hf, Nat.mul_comm]
  induction n with
  | zero => exact absurd hi (Nat.not_lt_zero i)
  | succ n ih =>
    rw [List.range_succ, List.flatMap_append, List.flatMap_singleton]
    by_cases h : i < n
    · rw [List.getElem?_append_left (by rw [hlen]; omega), ih h]
    · have hin : i = n := by omega
      subst hin
      rw [List.getElem?_append_right (by rw [hlen]; omega), hlen, Nat.add_sub_cancel_left]

/-- The bit the reader stands at is the first of those left (rules R102, R128). -/
theorem significantBits_getElem (h : significant s = true) :
    s.significantBits[s.readPos]? = some (currentBit s) := by
  have hpos := (significant_iff_readPos s).1 h
  rw [significantBits_length] at hpos
  have hb : s.brBit.toNat < 8 := s.brBit.isLt
  have hbyte : s.brPos.toNat < s.packLen.toNat := by unfold State.readPos at hpos; omega
  rw [State.significantBits, List.getElem?_take, if_pos hpos, State.packBits, State.readPos,
    flatMap_byte_getElem (fun i => msbFirst_length _ _) hbyte (by omega),
    List.getElem?_eq_getElem (by rw [msbFirst_length]; omega), msbFirst_getElem]
  congr 2
  omega

theorem advanceReader_readPos (h : significant s = true) : (advanceReader s).readPos = s.readPos + 1 := by
  have hpos := (significant_iff_readPos s).1 h
  rw [significantBits_length] at hpos
  have hb : s.brBit.toNat < 8 := s.brBit.isLt
  have hlen : s.packLen.toNat < 2 ^ 32 := s.packLen.isLt
  unfold State.readPos at hpos ⊢
  unfold advanceReader
  split
  · next h0 =>
    have h0 : s.brBit.toNat = 0 := by rw [h0]; rfl
    have hnext : (s.brPos + 1#32).toNat = s.brPos.toNat + 1 := by
      rw [BitVec.toNat_add, show (1#32).toNat = 1 from rfl, Nat.mod_eq_of_lt]
      omega
    dsimp only
    rw [hnext, show (7#3).toNat = 7 from rfl]
    omega
  · next h0 =>
    have h0 : s.brBit.toNat ≠ 0 := fun e => h0 (BitVec.eq_of_toNat_eq e)
    have hprev : (s.brBit - 1#3).toNat = s.brBit.toNat - 1 := by
      generalize s.brBit = b at h0
      bv_omega
    dsimp only
    rw [hprev]
    omega

/-- What the reader and its output change leaves the stream. -/
theorem OnlyReader.significantBits (h : OnlyReader s t) : t.significantBits = s.significantBits := by
  obtain ⟨_, _, _, _, rfl⟩ := h
  rfl

/-- One bit read: it is the first of those left, and the rest are left (rules R102, R128). -/
theorem restBits_cons {b : Bool} {rest : List Bool} (h : s.restBits = b :: rest) :
    significant s = true ∧ currentBit s = b ∧ (advanceReader s).restBits = rest := by
  have hsig : significant s = true := (significant_iff_restBits s).2 (by rw [h]; simp)
  have hget := significantBits_getElem hsig
  have hpos := (significant_iff_readPos s).1 hsig
  have hcons := List.drop_eq_getElem_cons hpos
  rw [List.getElem?_eq_getElem hpos, Option.some.injEq] at hget
  rw [State.restBits, hcons, hget] at h
  obtain ⟨hb, hrest⟩ := List.cons_eq_cons.1 h
  refine ⟨hsig, hb, ?_⟩
  rw [State.restBits, (advanceReader_only s).significantBits, advanceReader_readPos hsig, hrest]

end Reader

/-! ### One symbol -/

/-- What reading symbols leaves: the reader moved over their bits, the cursor at `cursor`, the symbols in SYM_OUT from
`out` on, and nothing else changed (rule R127). -/
structure Decoded (s t : State) (out : Nat) (bits : List Bool) (symbols : List Byte) : Prop where
  only : OnlyReader s t
  readPos : t.readPos = s.readPos + bits.length
  symOut : ∀ j, t.symOut.look j =
    if out ≤ j ∧ j < out + symbols.length then symbols[j - out]? else s.symOut.look j

namespace Decoded

variable {s t u : State} {out : Nat} {a b : List Bool} {cs ds : List Byte}

theorem refl (s : State) (out : Nat) : Decoded s s out [] [] where
  only := .refl s
  readPos := rfl
  symOut := fun j => by rw [if_neg]; simp

theorem trans (h : Decoded s t out a cs) (k : Decoded t u (out + cs.length) b ds) :
    Decoded s u out (a ++ b) (cs ++ ds) where
  only := h.only.trans k.only
  readPos := by rw [k.readPos, h.readPos, List.length_append, Nat.add_assoc]
  symOut := fun j => by
    rw [k.symOut, h.symOut, List.length_append]
    by_cases h1 : j < out
    · rw [if_neg (by omega), if_neg (by omega), if_neg (by omega)]
    by_cases h2 : j < out + cs.length
    · rw [if_neg (by omega), if_pos (by omega), if_pos (by omega), List.getElem?_append_left (by omega)]
    by_cases h3 : j < out + cs.length + ds.length
    · rw [if_pos (by omega), if_pos (by omega), List.getElem?_append_right (by omega), Nat.sub_sub]
    · rw [if_neg (by omega), if_neg (by omega), if_neg (by omega)]

/-- The bits read are no longer left. -/
theorem restBits {rest : List Bool} (h : Decoded s t out a cs) (hs : s.restBits = a ++ rest) :
    t.restBits = rest := by
  rw [State.restBits, h.readPos, ← List.drop_drop, h.only.significantBits]
  have hdrop := congrArg (List.drop a.length) hs
  rwa [State.restBits, List.drop_left] at hdrop

/-- A bit followed to an Internal node (rule R130). -/
theorem moveCursor (h : significant s = true) (n : NodeIx) (out : Nat) (bit : Bool) :
    Decoded s (moveCursor s n) out [bit] [] where
  only := moveCursor_only s n
  readPos := advanceReader_readPos h
  symOut := fun j => by
    rw [if_neg (by simp)]
    exact congrArg (Memory.look · j) (advanceReader_symOut s)

/-- A bit whose symbol is put out. -/
theorem emit (h : significant s = true) (hout : out < s.symCap) (c : Byte) (bit : Bool) {t : State}
    (only : OnlyReader s t) (pos : t.readPos = (advanceReader s).readPos)
    (symOut : t.symOut = s.symOut.put out c) : Decoded s t out [bit] [c] where
  only := only
  readPos := pos.trans (advanceReader_readPos h)
  symOut := fun j => by
    rw [symOut, Memory.look_put, List.length_singleton]
    by_cases hj : j = out
    · subst hj
      rw [if_pos rfl, if_pos (by omega), Nat.sub_self]
      rfl
    · rw [if_neg hj, if_neg (by omega)]

end Decoded

/-- Following a written node by the reader's bit (rule R130). -/
theorem followBit_of_look {s : State} {n : NodeIx} {e : NodeLink} (h : s.nodeLink.look n.toNat = some e) :
    followBit s n = if currentBit s then e.right else e.left := by
  simp [followBit, linkAt_of_look h]

theorem decodeGeneral_internal {s : State} {fuel out : Nat} {cur : NodeIx} (h : significant s = true)
    (hi : (s.linkAt (bitRead s) (followBit s cur).toNat).internal = true) :
    decodeGeneral (fuel + 1) cur out s = decodeGeneral fuel (followBit s cur) out (moveCursor s (followBit s cur)) := by
  simp [decodeGeneral, h, hi]

theorem decodeGeneral_leaf {s : State} {fuel out : Nat} {cur : NodeIx} (h : significant s = true)
    (hi : (s.linkAt (bitRead s) (followBit s cur).toNat).internal = false) (hout : out ≠ s.symCap) :
    decodeGeneral (fuel + 1) cur out s = decodeGeneral fuel s.root (out + 1)
      (emitSymbol (moveCursor s (followBit s cur)) out (s.linkAt (bitRead s) (followBit s cur).toNat).sym) := by
  simp [decodeGeneral, h, hi, hout]

theorem OnlyReader.nodeLink {s t : State} (h : OnlyReader s t) : t.nodeLink = s.nodeLink := by
  obtain ⟨_, _, _, _, rfl⟩ := h
  rfl

theorem OnlyReader.root {s t : State} (h : OnlyReader s t) : t.root = s.root := by
  obtain ⟨_, _, _, _, rfl⟩ := h
  rfl

theorem OnlyReader.symCap {s t : State} (h : OnlyReader s t) : t.symCap = s.symCap := by
  obtain ⟨_, _, _, _, rfl⟩ := h
  rfl

/-- One path of a stored tree read from its top puts out its symbol and is back at the root (rule R130). -/
theorem decodeGeneral_path {T : CodeTree} {s : State} (hT : T.StoredIn s.nodeLink) {bits : List Bool} {c : Byte}
    (hp : (bits, c) ∈ T.paths) (hne : bits ≠ []) {rest : List Bool} (hs : s.restBits = bits ++ rest) {out : Nat}
    (hout : out < s.symCap) (fuel : Nat) :
    ∃ t, Decoded s t out bits [c] ∧ t.brCursor = s.root ∧
      decodeGeneral (fuel + bits.length) T.root out s = decodeGeneral fuel s.root (out + 1) t := by
  induction bits generalizing T s with
  | nil => exact absurd rfl hne
  | cons b bits ih =>
    obtain ⟨e, U, he, -, hroot, hU, hbits⟩ := hT.child hp
    obtain ⟨hsig, hcur, -⟩ := restBits_cons hs
    have hfollow : followBit s T.root = U.root := by rw [followBit_of_look he, hcur, hroot]
    rw [List.length_cons, ← Nat.add_assoc]
    cases bits with
    | nil =>
      obtain ⟨f, hf, hfi, hfs⟩ := hU.pathEnd hbits
      have hlink := linkAt_of_look hf (bitRead s)
      refine ⟨emitSymbol (moveCursor s U.root) out c, Decoded.emit hsig hout c b
        ((moveCursor_only s U.root).trans (emitSymbol_only _ out c)) ?_ ?_, ?_, ?_⟩
      · simp [State.readPos, emitSymbol, moveCursor]
      · simp [emitSymbol, moveCursor, State.writeSymOut_symOut, hout]
      · exact (moveCursor_only s U.root).root
      · rw [decodeGeneral_leaf hsig (by rw [hfollow, hlink, hfi]) (Nat.ne_of_lt hout), hfollow, hlink, hfs]
        rfl
    | cons b' bits =>
      obtain ⟨f, -, hf, hfi, -⟩ := hU.child hbits
      have hlink := linkAt_of_look hf (bitRead s)
      have hmove := Decoded.moveCursor hsig U.root out b
      obtain ⟨t, hdec, hcursor, heq⟩ := ih (s := moveCursor s U.root) (hmove.only.nodeLink ▸ hU) hbits (by simp)
        (hmove.restBits (by simpa using hs)) (hmove.only.symCap ▸ hout)
      rw [hmove.only.root] at hcursor heq
      refine ⟨t, hmove.trans hdec, hcursor, ?_⟩
      rw [decodeGeneral_internal hsig (by rw [hfollow, hlink, hfi]), hfollow, heq]

/-- A stream of paths of the tree below the root puts out their symbols, in order (rule R130). -/
theorem decodeGeneral_paths {T : CodeTree} (hpos : ∀ x ∈ T.paths, x.1 ≠ []) {coded : List (List Bool × Byte)}
    {s : State} (hT : T.StoredIn s.nodeLink) (hroot : T.root = s.root) (hp : ∀ x ∈ coded, x ∈ T.paths)
    (hs : s.restBits = coded.flatMap Prod.fst) (hcursor : s.brCursor = s.root) {out fuel : Nat}
    (hout : out + coded.length ≤ s.symCap) (hfuel : s.restBits.length ≤ fuel) :
    ∃ t, decodeGeneral fuel s.root out s = .ok (t, out + coded.length) ∧
      Decoded s t out s.restBits (coded.map Prod.snd) ∧ t.brCursor = s.root := by
  induction coded generalizing s out fuel with
  | nil =>
    have hnil : s.restBits = [] := hs
    have hend : decodeGeneral fuel s.root out s = endGeneral s.root out s := by
      cases fuel with
      | zero => rfl
      | succ fuel =>
        have hno : ¬ significant s = true := by rw [significant_iff_restBits, hnil]; simp
        rw [decodeGeneral, if_neg hno]
    refine ⟨s, ?_, hnil ▸ Decoded.refl s out, hcursor⟩
    rw [hend, endGeneral, if_neg (not_not_intro rfl)]
    rfl
  | cons x coded ih =>
    rw [List.flatMap_cons] at hs
    rw [List.length_cons] at hout
    have hx := hp x (by simp)
    rw [hs, List.length_append] at hfuel
    obtain ⟨t, hdec, hcur, heq⟩ := decodeGeneral_path hT hx (hpos x hx) hs (by omega : out < s.symCap)
      (fuel - x.1.length)
    have hrest := hdec.restBits hs
    obtain ⟨u, hu, hdecu, hcuru⟩ := ih (s := t) (out := out + 1) (fuel := fuel - x.1.length)
      (hdec.only.nodeLink ▸ hT) (hroot.trans hdec.only.root.symm) (fun y hy => hp y (by simp [hy])) hrest
      (hcur.trans hdec.only.root.symm) (by rw [hdec.only.symCap]; omega) (by rw [hrest]; omega)
    rw [hdec.only.root] at hu hcuru
    refine ⟨u, ?_, ?_, hcuru⟩
    · rw [Nat.sub_add_cancel (by omega), hroot] at heq
      rw [heq, hu, List.length_cons, Nat.add_assoc, Nat.add_comm 1]
    · rw [hs, ← hrest]
      exact hdec.trans hdecu

/-- A stream of zeros for a single Leaf puts out its symbol once per bit (rule R131). -/
theorem decodeDegenerate_zeros {c : Byte} {n : Nat} {s : State} (hs : s.restBits = List.replicate n false)
    {out fuel : Nat} (hout : out + n ≤ s.symCap) (hcnt : out + n = s.symCnt.toNat) (hfuel : n ≤ fuel) :
    ∃ t, decodeDegenerate c fuel out s = .ok (t, out + n) ∧
      Decoded s t out s.restBits (List.replicate n c) ∧ t.brCursor = s.brCursor := by
  induction n generalizing s out fuel with
  | zero =>
    have hnil : s.restBits = [] := hs
    rw [Nat.add_zero] at hcnt
    have hend : decodeDegenerate c fuel out s = endDegenerate out s := by
      cases fuel with
      | zero => rfl
      | succ fuel =>
        have hno : ¬ significant s = true := by rw [significant_iff_restBits, hnil]; simp
        rw [decodeDegenerate, if_neg hno]
    refine ⟨s, ?_, hnil ▸ Decoded.refl s out, rfl⟩
    rw [hend, endDegenerate, if_neg (not_not_intro hcnt)]
    rfl
  | succ n ih =>
    obtain ⟨fuel, rfl⟩ : ∃ k, fuel = k + 1 := ⟨fuel - 1, by omega⟩
    rw [List.replicate_succ] at hs
    obtain ⟨hsig, hcur, -⟩ := restBits_cons hs
    have hlt : out < s.symCap := by omega
    have hdec : Decoded s ((advanceReader s).writeSymOut out c) out [false] [c] :=
      Decoded.emit hsig hlt c false ((advanceReader_only s).trans (writeSymOut_only _ out c))
        (by simp [State.readPos]) (by simp [State.writeSymOut_symOut, hlt])
    have hrest := hdec.restBits hs
    obtain ⟨u, hu, hdecu, hcuru⟩ := ih hrest (out := out + 1) (fuel := fuel)
      (by rw [hdec.only.symCap]; omega) (by simp; omega) (by omega)
    refine ⟨u, ?_, ?_, hcuru.trans (by simp)⟩
    · rw [decodeDegenerate, if_pos hsig, hcur, if_neg (by simp), if_neg (Nat.ne_of_lt hlt), hu, Nat.add_assoc,
        Nat.add_comm 1]
    · rw [hs, ← hrest]
      exact hdec.trans hdecu

/-! ### DECODE of a stream of codes -/

/-- A stream of a stored tree's codes is decoded to their symbols (rules R129 to R131). -/
theorem decodeStream_codes {T : CodeTree} {s : State} (hT : T.StoredIn s.nodeLink) (hroot : T.root = s.root)
    {coded : List (List Bool × Byte)} (hp : ∀ x ∈ coded, x ∈ T.codes) (hs : s.restBits = coded.flatMap Prod.fst)
    (hcursor : s.brCursor = s.root) (hout : coded.length ≤ s.symCap)
    (hcnt : ∀ n c, T = .leaf n c → coded.length = s.symCnt.toNat) :
    ∃ t, decodeStream s = .ok (t, coded.length) ∧ Decoded s t 0 s.restBits (coded.map Prod.snd) ∧
      t.brCursor = s.root := by
  have hfuel : s.restBits.length ≤ 8 * s.packLen.toNat := by
    rw [State.restBits, List.length_drop, significantBits_length]
    omega
  cases T with
  | leaf n c =>
    obtain ⟨e, he, hi, hc⟩ := hT
    rw [CodeTree.root_leaf] at hroot
    have hlink := linkAt_of_look (hroot ▸ he) rootRead
    obtain ⟨k, rfl⟩ : ∃ k, coded = List.replicate k ([false], c) :=
      ⟨_, List.eq_replicate_iff.2 ⟨rfl, fun x hx => List.mem_singleton.1 (hp x hx)⟩⟩
    have hzeros : s.restBits = List.replicate k false := by
      rw [hs, List.flatMap_replicate, ← List.replicate_one (a := false), List.flatten_replicate_replicate,
        Nat.mul_one]
    rw [List.length_replicate] at hout hcnt
    rw [hzeros, List.length_replicate] at hfuel
    obtain ⟨t, ht, hdec, hcur⟩ := decodeDegenerate_zeros (c := c) hzeros (out := 0) (by omega)
      (by rw [Nat.zero_add]; exact hcnt n c rfl) hfuel
    rw [List.length_replicate, List.map_replicate]
    refine ⟨t, ?_, hdec, hcur.trans hcursor⟩
    rw [decodeStream, hlink, hi, if_neg (by simp), hc, ht, Nat.zero_add]
  | node n l r =>
    obtain ⟨e, he, hi, -⟩ := id hT
    have hn : n = s.root := hroot
    have hlink := linkAt_of_look (hn ▸ he) rootRead
    have hpos : ∀ x ∈ (CodeTree.node n l r).paths, x.1 ≠ [] := fun x hx e => by
      rcases List.mem_append.1 hx with h | h <;> obtain ⟨y, -, rfl⟩ := List.mem_map.1 h <;> cases e
    obtain ⟨t, ht, hdec, hcur⟩ := decodeGeneral_paths hpos hT hroot hp hs hcursor (out := 0) (by omega) hfuel
    refine ⟨t, ?_, hdec, hcur⟩
    rw [decodeStream, hlink, hi, if_pos rfl, ht, Nat.zero_add]

theorem readerInit_restBits (s : State) : (readerInit s).restBits = s.significantBits := List.drop_zero

/-- DECODE past its checks (rule R129). -/
theorem exec_decode_ok {s t : State} {n : Nat} (hcap : s.packLen.toNat ≤ s.packCap)
    (hdata : s.packLen ≠ 0#32 ∨ s.trail = 0#3) (hne : s.root ≠ nilIx) (hvalid : validTree s = Detail.none)
    (h : decodeStream (readerInit s) = .ok (t, n)) :
    exec .decode s =
      .next (State.complete { t with outLen := BitVec.ofNat 32 n } 0x60#8 .ok 0x00#8 false) := by
  have hno : ¬(s.packLen = 0#32 ∧ s.trail ≠ 0#3) := fun ⟨h0, ht⟩ => hdata.elim (· h0) ht
  rw [exec_eq, bodyOf, decodeBody, if_neg (Nat.not_lt.2 hcap), if_neg hno]
  dsimp only
  rw [if_neg hne, if_neg (not_not_intro hvalid), h]
  rfl

/-- DECODE of the empty tree (rule R132). -/
theorem exec_decode_empty {s : State} (hcap : s.packLen.toNat ≤ s.packCap)
    (hdata : s.packLen ≠ 0#32 ∨ s.trail = 0#3) (hnil : s.root = nilIx) :
    exec .decode s = .next ((readerInit s).complete 0x60#8 .ok 0x00#8 false) := by
  have hno : ¬(s.packLen = 0#32 ∧ s.trail ≠ 0#3) := fun ⟨h0, ht⟩ => hdata.elim (· h0) ht
  rw [exec_eq, bodyOf, decodeBody, if_neg (Nat.not_lt.2 hcap), if_neg hno]
  dsimp only
  rw [if_pos hnil]
  rfl

/-! ### The round trip -/

section RoundTrip

variable {s : State}

/-- The stream of an ENCODE as codes of its tree with their symbols, in input order (rules R72, R125). -/
def State.codedInput (s : State) : List (List Bool × Byte) :=
  (inputSymbols s 0).map fun c => (codeBits (buildCodes (encodeTree s)) c, c)

theorem codedInput_length (s : State) : s.codedInput.length = s.inLen.toNat := by
  rw [State.codedInput, List.length_map, inputSymbols_length]

theorem codedInput_symbols (s : State) : s.codedInput.map Prod.snd = inputSymbols s 0 := by
  rw [State.codedInput, List.map_map]
  exact List.map_id _

theorem codedInput_bits (s : State) :
    s.codedInput.flatMap Prod.fst = s.codedBits (buildCodes (encodeTree s)) := by
  rw [codedBits_eq, State.codedInput, List.flatMap_map]

/-- Every input symbol has a Leaf in the tree built of the counts, so its code is one of the tree's. -/
theorem codedInput_codes (hne : s.inLen ≠ 0#32) {T : CodeTree} (hT : T.StoredIn (encodeTree s).nodeLink)
    (hroot : T.root = (encodeTree s).root) (hsyms : T.symbols.Perm (leafBytes (countInput s))) :
    ∀ x ∈ s.codedInput, x ∈ T.codes := by
  have hnd : T.symbols.Nodup := hsyms.nodup_iff.2 (leafBytes_nodup _)
  intro x hx
  obtain ⟨c, hc, rfl⟩ := List.mem_map.1 hx
  have hmem : c ∈ T.symbols := hsyms.mem_iff.2 (mem_leafBytes_countInput.2 hc)
  rw [← T.codes_symbols] at hmem
  obtain ⟨⟨bits, d⟩, hcode, rfl⟩ := List.mem_map.1 hmem
  rwa [(buildCodes_codes hT hroot (encodeTree_root_ne_nil hne) hnd hcode).codeBits]

/-- ENCODE of empty input leaves the empty tree and the empty stream (rules R112, R125). -/
theorem encode_empty_payload {t : State} (h : s.inLen = 0#32) (hexec : exec .encode s = .next t) :
    t.root = nilIx ∧ t.packLen = 0#32 ∧ t.trail = 0#3 := by
  have hroot := buildTree_countInput_root_nil h
  rw [exec_encode_empty h, encodeTree] at hexec
  generalize buildTree (countInput s) = v at hroot hexec
  cases hexec
  exact ⟨hroot, rfl, rfl⟩

/-- SYM_CNT of the tree ENCODE builds is the number of input symbols (rules R110, R111). -/
theorem buildTree_countInput_symCnt (hne : s.inLen ≠ 0#32) : (buildTree (countInput s)).symCnt = s.inLen := by
  rw [buildTree_eq (leafSymbols_countInput_ne_nil hne), countInput_total]
  exact (BitVec.ofNat_toNat 32 s.inLen).trans (BitVec.setWidth_eq s.inLen)

theorem encoded_caps (s : State) : (encoded s).symCap = s.symCap ∧ (encoded s).packCap = s.packCap := by
  obtain ⟨_, _, _, _, _, _, _, he⟩ := encoded_only s
  obtain ⟨_, _, _, _, _, _, _, _, hu⟩ := encodeTable_frame s
  rw [he, hu]
  exact ⟨rfl, rfl⟩

/-- Holding the payload is a matter of the fields a completion leaves. -/
theorem State.SamePayload.of_complete {e t : State} {op : Byte} {code : Result} {d : Byte} {trunc : Bool}
    (h : (e.complete op code d trunc).SamePayload t) : e.SamePayload t := h

section Payload

variable {t : State} (hpay : (encoded s).SamePayload t)

include hpay

/-- A state that holds the payload holds a valid tree whose codes are those of the input symbols. -/
theorem payload_tree (hne : s.inLen ≠ 0#32) :
    ∃ T : CodeTree, T.StoredIn t.nodeLink ∧ T.root = t.root ∧ t.root ≠ nilIx ∧ validTree t = Detail.none ∧
      ∀ x ∈ s.codedInput, x ∈ T.codes := by
  obtain ⟨hroot, hcnt, hnodes, -⟩ := hpay
  obtain ⟨hlinks, -, hroot', hcnt', -⟩ := encoded_tree s
  obtain ⟨T, hT, hTroot, hperm, hsyms⟩ := buildTree_stored (leafSymbols_countInput_ne_nil hne)
  have hle := buildTree_nodeCnt_le (countInput s)
  rw [hlinks] at hnodes
  rw [hroot'] at hroot
  rw [← hcnt', hcnt] at hperm hle
  rw [hcnt] at hnodes
  have hin : ∀ n ∈ T.nodes, n < t.nodeCnt.toNat := fun n hn => List.mem_range.1 (hperm.mem_iff.1 hn)
  have hTt : T.StoredIn t.nodeLink := hT.congr fun n hn => (hnodes n (hin n hn)).1.symm
  have hne' : t.root ≠ nilIx := hroot ▸ encodeTree_root_ne_nil hne
  exact ⟨T, hTt, hTroot.trans hroot, hne',
    validTree_of_stored hTt (hTroot.trans hroot) hle hin (hperm.nodup_iff.2 List.nodup_range)
      (hsyms.nodup_iff.2 (leafBytes_nodup _)),
    codedInput_codes hne hT hTroot hsyms⟩

/-- A state that holds the payload holds the stream of the input symbols' codes. -/
theorem payload_stream (h : s.Inv) (hfit : (s.codedLength (buildCodes (encodeTree s)) + 7) / 8 ≤ s.packCap) :
    t.significantBits = s.codedInput.flatMap Prod.fst ∧ t.packLen.toNat ≤ s.packCap ∧
      (t.packLen ≠ 0#32 ∨ t.trail = 0#3) := by
  obtain ⟨-, -, -, hplen, hpack, htrail, -⟩ := hpay
  obtain ⟨hsig, -, hlen, htr, hwritten, -⟩ := encoded_spec h hfit
  rw [hplen] at hlen hpack
  rw [htrail] at htr
  refine ⟨?_, hlen ▸ hfit, ?_⟩
  · rw [hwritten.significantBits_congr hplen.symm htrail.symm fun i hi => (hpack i (hplen ▸ hi)).symm, hsig,
      codedInput_bits]
  · by_contra hno
    obtain ⟨h0, htr0⟩ := not_or.1 hno
    rw [not_not.1 h0, show (0#32).toNat = 0 from rfl] at hlen
    exact htr0 (BitVec.eq_of_toNat_eq (by rw [htr, show (0#3).toNat = 0 from rfl]; omega))

/-- DECODE of a payload puts out the input symbols (rules R129 to R131). -/
theorem payload_decode (h : s.Inv) (hlen : s.inLen.toNat ≤ s.symCap) (hne : s.inLen ≠ 0#32)
    (hfit : (s.codedLength (buildCodes (encodeTree s)) + 7) / 8 ≤ s.packCap) (hsymCap : t.symCap = s.symCap)
    (hpackCap : t.packCap = s.packCap) :
    ∃ v bits, exec .decode t = .next (State.complete { v with outLen := s.inLen } 0x60#8 .ok 0x00#8 false) ∧
      Decoded (readerInit t) v 0 bits (inputSymbols s 0) := by
  obtain ⟨T, hT, hroot, hne', hvalid, hcodes⟩ := payload_tree hpay hne
  obtain ⟨hsig, hplen, hdata⟩ := payload_stream hpay h hfit
  have hcnt : t.symCnt = s.inLen := by
    obtain ⟨-, -, -, -, -, -, hcnt⟩ := hpay
    rw [← hcnt, (encoded_tree s).2.2.2.2, buildTree_countInput_symCnt hne]
  obtain ⟨v, hv, hdec, -⟩ := decodeStream_codes (s := readerInit t) hT hroot hcodes
    ((readerInit_restBits t).trans hsig) rfl (by rw [codedInput_length]; exact hsymCap ▸ hlen)
    (fun _ _ _ => by rw [codedInput_length, ← hcnt]; rfl)
  rw [codedInput_symbols] at hdec
  refine ⟨v, _, ?_, hdec⟩
  rw [exec_decode_ok (hpackCap ▸ hplen) hdata hne' hvalid hv, codedInput_length, BitVec.ofNat_toNat,
    BitVec.setWidth_eq]

end Payload

/-- Settles O39: the payload holds the tree the codes were made of, and its stream is the codes' bits. -/
theorem roundTripRestoresTheInput : Obligations.RoundTripRestoresTheInput := by
  intro s t t' u h hw hexec hok hpay hsymCap hpackCap hdecode
  by_cases hne : s.inLen = 0#32
  · obtain ⟨hroot, hplen, htrail⟩ := encode_empty_payload hne hexec
    obtain ⟨hroot', -, -, hplen', -, htrail', -⟩ := hpay
    rw [hplen] at hplen'
    rw [exec_decode_empty (hplen' ▸ Nat.zero_le _) (.inr (htrail'.symm.trans htrail))
      (hroot'.symm.trans hroot)] at hdecode
    cases hdecode
    exact ⟨rfl, hne.symm, fun i hi => absurd hi (by rw [hne]; exact Nat.not_lt_zero i)⟩
  · have hlen := inLen_le_of_encode_ok hexec hok
    have hfit := fits_of_encode_ok h hw hne hexec hok
    rw [exec_encode_fits h hw hlen hne hfit] at hexec
    cases hexec
    obtain ⟨v, bits, hv, hdec⟩ := payload_decode hpay.of_complete h hlen hne hfit
      (hsymCap.trans (encoded_caps s).1) (hpackCap.trans (encoded_caps s).2)
    rw [hv] at hdecode
    cases hdecode
    refine ⟨rfl, rfl, fun i hi => (hdec.symOut i).trans ?_⟩
    rw [if_pos (by rw [inputSymbols_length]; omega), Nat.sub_zero, inputSymbols, List.getElem?_map,
      List.getElem?_range hi]
    rfl

end RoundTrip

end Sys2Proof.Machine
end

section
/-! The host port and the step: the address of every word reaches it, the gaps of the map read 0, and whose move
a step is (spec/20_memory.md rules R43, R44, R51, R52, R56, R57). -/

namespace Sys2Proof.Machine

/-! ### The words of the map -/

/-- The number of the word a location stands at (rule R44); `unmapped` stands past the last. -/
def Loc.word : Loc → Nat
  | .reg r => registers.idxOf r
  | .freq c => 0x100 + c
  | .nodeLink i => 0x400 + 2 * i
  | .nodeWeight i => 0x400 + (2 * i + 1)
  | .codeLen c => 0x800 + c
  | .codePat c w => 0x1000 + (8 * c + w)
  | .symIn i => 0x40000 + i
  | .pack i => 0x80000 + i
  | .symOut i => 0xC0000 + i
  | .unmapped => 0x100000

theorem wordIndex_ofNat {n : Nat} (h : n < 0x100000) : wordIndex (BitVec.ofNat 22 (4 * n)) = n := by
  rw [wordIndex, BitVec.toNat_ofNat, Nat.mod_eq_of_lt (by omega), Nat.mul_div_cancel_left n (by decide)]

/-- The addresses of rule R44 are 4 bytes apart. -/
theorem Loc.addr_eq_word {symCap packCap : Nat} {l : Loc} (h : l.exists symCap packCap = true) :
    l.addr = some (BitVec.ofNat 22 (4 * l.word)) := by
  cases l with
  | unmapped => exact absurd h Bool.false_ne_true
  | reg r => rfl
  | _ => exact congrArg (fun n => some (BitVec.ofNat 22 n)) (by simp only [Loc.word]; omega)

theorem Reg.idxOf_lt (r : Reg) : registers.idxOf r < 18 := by
  cases r <;> decide

theorem Loc.word_lt {symCap packCap : Nat} {l : Loc} (hs : symCap ≤ 262144) (hp : packCap ≤ 262144)
    (h : l.exists symCap packCap = true) : l.word < 0x100000 := by
  cases l with
  | unmapped => exact absurd h Bool.false_ne_true
  | reg r => exact Nat.lt_trans r.idxOf_lt (by decide)
  | _ =>
    simp only [Loc.exists, Bool.and_eq_true, decide_eq_true_eq] at h
    simp only [Loc.word]
    omega

/-- The map of rule R44 from the word to the location. -/
theorem locate_of_word {symCap packCap : Nat} {l : Loc} {a : Addr} (hs : symCap ≤ 262144)
    (hp : packCap ≤ 262144) (h : l.exists symCap packCap = true) (ha : wordIndex a = l.word) :
    locate symCap packCap a = l := by
  cases l with
  | unmapped => exact absurd h Bool.false_ne_true
  | reg r =>
    have hr := r.idxOf_lt
    refine locate_register _ _ (by rw [ha, Loc.word]; omega) ?_
    rw [ha]
    exact List.getElem?_idxOf (by cases r <;> decide)
  | _ =>
    simp only [Loc.exists, Bool.and_eq_true, decide_eq_true_eq] at h
    simp only [Loc.word] at ha
    simp (disch := omega) only [locate, ha, if_neg, if_pos]
    simp only [Loc.freq.injEq, Loc.nodeLink.injEq, Loc.nodeWeight.injEq, Loc.codeLen.injEq, Loc.codePat.injEq,
      Loc.symIn.injEq, Loc.pack.injEq, Loc.symOut.injEq]
    omega

/-- Settles O50: the address is four times the number of the word, which the map takes to the location. -/
theorem addressMapReachesEveryWord : Obligations.AddressMapReachesEveryWord :=
  fun _ _ _ hs hp h => ⟨_, Loc.addr_eq_word h, locate_of_word hs hp h (wordIndex_ofNat (Loc.word_lt hs hp h))⟩

/-! ### The gaps of the map -/

/-- The numbers of the words rule R44 names nothing at, those past the capacity of a byte window among them
(rule R51). -/
def InGap (symCap packCap n : Nat) : Prop :=
  (0x12 ≤ n ∧ n < 0x100) ∨ (0x200 ≤ n ∧ n < 0x400) ∨ (0x7FE ≤ n ∧ n < 0x800) ∨ (0x900 ≤ n ∧ n < 0x1000) ∨
  (0x1800 ≤ n ∧ n < 0x40000) ∨ (0x40000 + symCap ≤ n ∧ n < 0x80000) ∨
  (0x80000 + packCap ≤ n ∧ n < 0xC0000) ∨ 0xC0000 + symCap ≤ n

theorem locate_of_inGap {symCap packCap : Nat} {a : Addr} (h : InGap symCap packCap (wordIndex a)) :
    locate symCap packCap a = .unmapped := by
  rcases h with h | h | h | h | h | h | h | h
  · unfold locate
    rw [if_pos (by omega), List.getElem?_eq_none (show 0x12 ≤ wordIndex a from h.1)]
  all_goals simp (disch := omega) only [locate, if_neg, if_pos]

/-- Settles O56: a gap of the map is unmapped, which reads 0 and is not written. -/
theorem unmappedWordsReadZero : Obligations.UnmappedWordsReadZero := by
  intro s a v hb h
  have gap : InGap s.symCap s.packCap (wordIndex a) := by
    unfold InGap wordIndex
    omega
  have hloc : s.locate a = .unmapped := locate_of_inGap gap
  exact ⟨State.hostValue_of_idle hb hloc, State.hostWrite_ignored hloc rfl⟩

/-! ### Address bits [1:0] -/

/-- The word an address reaches is its bits [21:2] (rule R43). -/
theorem wordIndex_eq_extractLsb' (a : Addr) : wordIndex a = (a.extractLsb' 2 20).toNat := by
  rw [BitVec.extractLsb'_toNat, Nat.shiftRight_eq_div_pow]
  exact (Nat.mod_eq_of_lt (wordIndex_lt a)).symm

theorem State.locate_congr (s : State) {a b : Addr} (h : wordIndex a = wordIndex b) :
    s.locate a = s.locate b := by
  unfold State.locate Machine.locate
  rw [h]

/-- Settles O51: both accesses depend on the address through the word it reaches. -/
theorem lowAddressBitsAreIgnored : Obligations.LowAddressBitsAreIgnored := by
  intro s a b v h
  have hloc : s.locate a = s.locate b :=
    s.locate_congr (by rw [wordIndex_eq_extractLsb', wordIndex_eq_extractLsb', h])
  unfold State.hostValue State.hostWrite
  rw [hloc]
  exact ⟨rfl, rfl⟩

/-! ### Accesses while BUSY = 1 -/

theorem State.hostWrite_of_busy {s : State} (hb : s.busy = true) (a : Addr) (v : Word) :
    s.hostWrite a v = s :=
  if_pos hb

/-- A register as the host reads it by its address while BUSY = 1. -/
theorem State.hostValue_register_busy {s : State} (hb : s.busy = true) (r : Reg) :
    s.hostValue (BitVec.ofNat 22 r.offset) = s.readBusy (.reg r) := by
  rw [State.hostValue, if_pos hb, State.locate, locate_offset]

/-- Bit 0 of a busy STATUS is set over the free value above it (rule R52). -/
theorem State.readBusy_status (s : State) : (s.readBusy (.reg .status)).getLsbD 0 = true := by
  simp [State.readBusy]

/-- Settles O58: the constants and STATUS stand at their addresses, and the rest is of the free value. -/
theorem accessesWhileBusy : Obligations.AccessesWhileBusy := by
  intro s a v hb
  have reg := State.hostValue_register_busy hb
  have hstatus : s.hostValue 0x010#22 = s.readBusy (.reg .status) := reg .status
  exact ⟨State.hostWrite_of_busy hb a v, reg .id, reg .version, reg .symCap, reg .packCap,
    hstatus ▸ s.readBusy_status⟩

/-! ### Whose move a step is -/

theorem step_of_hostMove {s t : State} (h : s.hostMove = some t) : step s = .next t := by
  rw [step, h]

theorem step_of_no_hostMove {s : State} (h : s.hostMove = none) : step s = engineStep s.yielded := by
  rw [step, h]

section Port
variable {s : State} {rest : List HostOp} {a : Addr} {v mask : Word}

theorem State.hostMove_read (h : s.port = .read a :: rest) :
    s.hostMove = some ((s.withPort rest).hostRead a) := by
  rw [State.hostMove, h]

theorem State.hostMove_write (h : s.port = .write a v :: rest) :
    s.hostMove = some ((s.withPort rest).hostWrite a v) := by
  rw [State.hostMove, h]

theorem State.hostMove_check (h : s.port = .check a mask v :: rest) :
    s.hostMove = some ((s.withPort (if s.hostValue a &&& mask = v then rest else [])).hostRead a) := by
  rw [State.hostMove, h]

theorem State.hostMove_nil (h : s.port = []) : s.hostMove = none := by
  rw [State.hostMove, h]

theorem State.hostMove_idle (h : s.port = .idle :: rest) : s.hostMove = none := by
  rw [State.hostMove, h]

/-- A POLL that is to see no more reads with BUSY = 1 leaves the move to the engine (rule R69; log 6). -/
theorem State.hostMove_poll_zero (h : s.port = .poll 0 :: rest) (hb : s.busy = true) : s.hostMove = none := by
  rw [State.hostMove, h]
  exact if_pos hb

theorem State.yielded_nil (h : s.port = []) : s.yielded = s := by
  rw [State.yielded, h]

theorem State.yielded_idle (h : s.port = .idle :: rest) : s.yielded = s.withPort rest := by
  rw [State.yielded, h]

theorem State.yielded_poll {n : Nat} (h : s.port = .poll n :: rest) : s.yielded = s := by
  rw [State.yielded, h]

end Port

/-- Settles O53: the host's move at `read` is `hostRead`, which looks at no field the rest of the list changes. -/
theorem hostReadHasNoSideEffect : Obligations.HostReadHasNoSideEffect :=
  fun _ _ _ hport => step_of_hostMove (State.hostMove_read hport)

/-- Settles O54: the host's move at `write` is `hostWrite`, at `check` a read that keeps or drops the rest. -/
theorem hostAccessIsOneStep : Obligations.HostAccessIsOneStep := by
  intro s rest a v mask
  refine ⟨fun hport => step_of_hostMove (State.hostMove_write hport), fun hport heq => ?_, fun hport hne => ?_⟩
  · rw [step_of_hostMove (State.hostMove_check hport), if_pos heq]
    rfl
  · rw [step_of_hostMove (State.hostMove_check hport), if_neg hne]
    rfl

/-! ### The engine's move -/

theorem engineStep_of_decode {s : State} {w : Word} {i : Instr} (hl : s.latch = some w)
    (hd : decode w = .ok i) : engineStep s = exec i s := by
  simp only [engineStep, hl, hd]

theorem engineStep_of_empty {s : State} (hl : s.latch = none) : engineStep s = .next s := by
  simp only [engineStep, hl]

/-- Settles O5: the three hosts that leave the move to the engine, then what the latch holds. -/
theorem stepRunsTheLatchedCommand : Obligations.StepRunsTheLatchedCommand := by
  intro s
  refine ⟨fun w i hl hd => ⟨fun hport => ?_, fun rest hport => ?_, fun rest hport hb => ?_⟩, fun hl hport => ?_⟩
  · rw [step_of_no_hostMove (State.hostMove_nil hport), State.yielded_nil hport, engineStep_of_decode hl hd]
  · rw [step_of_no_hostMove (State.hostMove_idle hport), State.yielded_idle hport]
    exact engineStep_of_decode (s := s.withPort rest) hl hd
  · rw [step_of_no_hostMove (State.hostMove_poll_zero hport hb), State.yielded_poll hport,
      engineStep_of_decode hl hd]
  · rw [step_of_no_hostMove (State.hostMove_nil hport), State.yielded_nil hport, engineStep_of_empty hl]

end Sys2Proof.Machine
end

section
/-! The command words: what the three formats encode and what the decoder reads from a word
(spec/30_encoding.md rules R64 to R68, R71). -/

namespace Sys2Proof

open Machine (nOpcodes sOpcodes wOpcode)

/-! ### The words of the formats as numbers -/

theorem toNat_append_eq {m n : Nat} (x : BitVec m) (y : BitVec n) :
    (x ++ y).toNat = x.toNat * 2 ^ n + y.toNat := by
  rw [BitVec.toNat_append, ← Nat.shiftLeft_add_eq_or_of_lt y.isLt, Nat.shiftLeft_eq]

@[simp] theorem formatN_toNat (op : Byte) : (formatN op).toNat = op.toNat := by
  rw [formatN, toNat_append_eq]
  simp

@[simp] theorem formatS_toNat (c op : Byte) : (formatS c op).toNat = c.toNat * 256 + op.toNat := by
  rw [formatS, toNat_append_eq, toNat_append_eq]
  simp

@[simp] theorem formatW_toNat (b : BitVec 6) (op : Byte) :
    (formatW b op).toNat = b.toNat * 256 + op.toNat := by
  rw [formatW, toNat_append_eq, toNat_append_eq]
  simp

/-! ### The fields of a word as numbers -/

theorem extractLsb'_eq_ofNat (w : Word) (start len : Nat) :
    w.extractLsb' start len = BitVec.ofNat len (w.toNat / 2 ^ start) := by
  rw [← Nat.shiftRight_eq_div_pow]
  rfl

/-- A field that reaches the top of the word is 0 exactly if nothing stands from its first bit on. -/
theorem extractLsb'_ne_zero_iff (w : Word) {start len : Nat} (h : start + len = 32) :
    w.extractLsb' start len ≠ 0 ↔ w.toNat / 2 ^ start ≠ 0 := by
  have hlt : w.toNat / 2 ^ start < 2 ^ len := by
    rw [Nat.div_lt_iff_lt_mul (by positivity), ← Nat.pow_add, Nat.add_comm, h]
    exact w.isLt
  rw [Ne, ← BitVec.toNat_inj, extractLsb'_eq_ofNat, BitVec.toNat_ofNat, Nat.mod_eq_of_lt hlt]
  rfl

theorem opField_eq_ofNat (w : Word) : opField w = BitVec.ofNat 8 w.toNat := by
  rw [opField, extractLsb'_eq_ofNat, Nat.pow_zero, Nat.div_one]

@[simp] theorem opField_toNat (w : Word) : (opField w).toNat = w.toNat % 256 := by
  rw [opField_eq_ofNat, BitVec.toNat_ofNat]

/-! ### The opcode map -/

/-- What a row of the opcode map promises: its command is well formed for every operand the format admits, and
its word is that of the format with this OP (rules R64, R65, R67). -/
def Shape.Encodes (op : Byte) : Shape → Prop
  | .n i => encode i = formatN op ∧ i.WellFormed
  | .s make => ∀ c, encode (make c) = formatS c op ∧ (make c).WellFormed
  | .w make => ∀ b, encode (make b) = formatW b op ∧ (b.toNat ≤ wrbitsMax → (make b).WellFormed)

theorem eq_ofNat_of_toNat {op : Byte} {k : Nat} (h : op.toNat = k) : op = BitVec.ofNat 8 k := by
  rw [← h, BitVec.ofNat_toNat, BitVec.setWidth_eq]

theorem shapeOf_encodes {op : Byte} {sh : Shape} (h : shapeOf op = some sh) : sh.Encodes op := by
  unfold shapeOf at h
  split at h <;> cases h <;> next hop =>
    cases eq_ofNat_of_toNat hop
    simp [Shape.Encodes, encode, Instr.WellFormed]

theorem mem_opcodes_of_shapeOf {op : Byte} {sh : Shape} (h : shapeOf op = some sh) :
    op.toNat ∈ nOpcodes ++ sOpcodes ++ [wOpcode] := by
  unfold shapeOf at h
  split at h <;> cases h <;> next hop =>
    rw [hop]
    decide

theorem shapeOf_of_nOpcode {op : Byte} (h : op.toNat ∈ nOpcodes) :
    ∃ i, shapeOf op = some (.n i) ∧ i.opcode = op := by
  have row : ∀ k ∈ nOpcodes,
      ∃ i, shapeOf (BitVec.ofNat 8 k) = some (.n i) ∧ i.opcode = BitVec.ofNat 8 k := by
    intro k hk
    fin_cases hk <;> exact ⟨_, rfl, rfl⟩
  rw [eq_ofNat_of_toNat (op := op) rfl]
  exact row _ h

theorem shapeOf_of_putsym {op : Byte} (h : op.toNat = 0x12) : shapeOf op = some (.s .putsym) := by
  rw [eq_ofNat_of_toNat h]
  rfl

theorem shapeOf_of_fadd {op : Byte} (h : op.toNat = 0x31) : shapeOf op = some (.s .fadd) := by
  rw [eq_ofNat_of_toNat h]
  rfl

theorem shapeOf_of_sOpcode {op : Byte} (h : op.toNat ∈ sOpcodes) : ∃ make, shapeOf op = some (.s make) := by
  rcases List.mem_pair.1 h with h | h
  · exact ⟨_, shapeOf_of_putsym h⟩
  · exact ⟨_, shapeOf_of_fadd h⟩

theorem shapeOf_of_wOpcode {op : Byte} (h : op.toNat = wOpcode) : shapeOf op = some (.w .wrbits) := by
  rw [eq_ofNat_of_toNat h]
  rfl

theorem shapeOf_of_unmapped {op : Byte} (h : op.toNat ∉ nOpcodes ++ sOpcodes ++ [wOpcode]) :
    shapeOf op = none :=
  Option.eq_none_iff_forall_ne_some.2 fun _ hsh => h (mem_opcodes_of_shapeOf hsh)

/-! ### The decoder, by the format of the opcode -/

section Decode
variable {w : Word} {i : Instr} {makeS : Byte → Instr} {makeW : BitVec 6 → Instr}

theorem decode_of_no_shape (h : shapeOf (opField w) = none) : decode w = .error .badOpcode := by
  rw [decode, h]

theorem decode_of_shapeN (h : shapeOf (opField w) = some (.n i)) :
    decode w = if w.toNat / 256 ≠ 0 then .error .reservedSet else .ok i := by
  rw [decode, h]
  exact if_congr (extractLsb'_ne_zero_iff w rfl) rfl rfl

theorem decode_of_shapeS (h : shapeOf (opField w) = some (.s makeS)) :
    decode w = if w.toNat / 65536 ≠ 0 then .error .reservedSet
      else .ok (makeS (BitVec.ofNat 8 (w.toNat / 256))) := by
  rw [decode, h]
  refine if_congr (extractLsb'_ne_zero_iff w rfl) rfl ?_
  rw [extractLsb'_eq_ofNat]
  rfl

theorem decode_of_shapeW (h : shapeOf (opField w) = some (.w makeW)) :
    decode w = if w.toNat / 16384 ≠ 0 then .error .reservedSet
      else if 32 < w.toNat / 256 % 64 then .error .badWidth
      else .ok (makeW (BitVec.ofNat 6 (w.toNat / 256))) := by
  rw [decode, h]
  refine if_congr (extractLsb'_ne_zero_iff w rfl) rfl ?_
  rw [extractLsb'_eq_ofNat, BitVec.toNat_ofNat]
  rfl

end Decode

/-! ### The word of a command decodes to it -/

section Format
variable {op : Byte}

@[simp] theorem opField_formatN : opField (formatN op) = op :=
  BitVec.eq_of_toNat_eq (by rw [opField_toNat, formatN_toNat, Nat.mod_eq_of_lt op.isLt])

@[simp] theorem opField_formatS (c : Byte) : opField (formatS c op) = op :=
  BitVec.eq_of_toNat_eq (by rw [opField_toNat, formatS_toNat]; omega)

@[simp] theorem opField_formatW (b : BitVec 6) : opField (formatW b op) = op :=
  BitVec.eq_of_toNat_eq (by rw [opField_toNat, formatW_toNat]; omega)

theorem decode_formatN {i : Instr} (h : shapeOf op = some (.n i)) : decode (formatN op) = .ok i := by
  have hop := op.isLt
  rw [decode_of_shapeN (by rwa [opField_formatN]), formatN_toNat, if_neg (by omega)]

theorem decode_formatS {make : Byte → Instr} (h : shapeOf op = some (.s make)) (c : Byte) :
    decode (formatS c op) = .ok (make c) := by
  have hop := op.isLt
  have hc := c.isLt
  have hsym : (c.toNat * 256 + op.toNat) / 256 = c.toNat := by omega
  rw [decode_of_shapeS (by rwa [opField_formatS]), formatS_toNat, hsym, BitVec.ofNat_toNat, BitVec.setWidth_eq,
    if_neg (by omega)]

theorem decode_formatW {make : BitVec 6 → Instr} (h : shapeOf op = some (.w make)) {b : BitVec 6}
    (hb : b.toNat ≤ 32) : decode (formatW b op) = .ok (make b) := by
  have hop := op.isLt
  have hwidth : (b.toNat * 256 + op.toNat) / 256 = b.toNat := by omega
  rw [decode_of_shapeW (by rwa [opField_formatW]), formatW_toNat, hwidth, BitVec.ofNat_toNat, BitVec.setWidth_eq,
    if_neg (by omega), if_neg (by omega)]

end Format

/-- Settles O1: each command by its row of the opcode map and the format of that row. -/
theorem decodeOfEncodeIsTheCommand : Obligations.DecodeOfEncodeIsTheCommand := by
  intro i h
  cases i with
  | wrbits b => exact decode_formatW rfl h
  | putsym c | fadd c => exact decode_formatS rfl c
  | nop | clear | bwinit | finish | brinit | rdbit | fclr | fcount | build | tcheck | codes | encode | decode =>
    exact decode_formatN rfl

/-- Settles O4: each word is that of its command, so this is O1. -/
theorem exampleWordsDecode : Obligations.ExampleWordsDecode :=
  have row := decodeOfEncodeIsTheCommand
  ⟨row .nop trivial, row .clear trivial, row (.wrbits 5#6) (by decide : 5 ≤ 32),
    row (.wrbits 32#6) (by decide : 32 ≤ 32), row (.putsym 0x61#8) trivial, row (.fadd 0xFF#8) trivial,
    row .build trivial, row .encode trivial, row .decode trivial⟩

/-! ### A word that decodes is the word of its command -/

/-- What a word that decodes can be: a word of format N, S or W whose OP has a row of that format, with reserved
bits 0, and WIDTH in range (rule R66). -/
theorem decode_ok_cases {w : Word} {i : Instr} (h : decode w = .ok i) :
    (shapeOf (opField w) = some (.n i) ∧ w = formatN (opField w)) ∨
    (∃ make c, shapeOf (opField w) = some (.s make) ∧ i = make c ∧ w = formatS c (opField w)) ∨
    (∃ make b, shapeOf (opField w) = some (.w make) ∧ i = make b ∧ b.toNat ≤ wrbitsMax ∧
      w = formatW b (opField w)) := by
  have hw := w.isLt
  cases hsh : shapeOf (opField w) with
  | none =>
    rw [decode_of_no_shape hsh] at h
    cases h
  | some sh =>
    cases sh with
    | n j =>
      rw [decode_of_shapeN hsh] at h
      split at h <;> cases h
      refine .inl ⟨rfl, BitVec.eq_of_toNat_eq ?_⟩
      rw [formatN_toNat, opField_toNat]
      omega
    | s make =>
      rw [decode_of_shapeS hsh] at h
      split at h <;> cases h
      refine .inr (.inl ⟨make, _, rfl, rfl, BitVec.eq_of_toNat_eq ?_⟩)
      rw [formatS_toNat, opField_toNat, BitVec.toNat_ofNat]
      omega
    | w make =>
      rw [decode_of_shapeW hsh] at h
      split at h
      · cases h
      split at h <;> cases h
      refine .inr (.inr ⟨make, _, rfl, rfl, ?_, BitVec.eq_of_toNat_eq ?_⟩)
      · rw [BitVec.toNat_ofNat, wrbitsMax]
        omega
      · rw [formatW_toNat, opField_toNat, BitVec.toNat_ofNat]
        omega

/-- Settles O2: the word is of the format of its OP's row, and the row's command encodes to that. -/
theorem decodedWordIsTheEncoding : Obligations.DecodedWordIsTheEncoding := by
  intro w i h
  obtain ⟨hsh, hw⟩ | ⟨make, c, hsh, rfl, hw⟩ | ⟨make, b, hsh, rfl, hb, hw⟩ := decode_ok_cases h
  · obtain ⟨henc, hwf⟩ := shapeOf_encodes hsh
    exact ⟨henc.trans hw.symm, hwf⟩
  · obtain ⟨henc, hwf⟩ := shapeOf_encodes hsh c
    exact ⟨henc.trans hw.symm, hwf⟩
  · obtain ⟨henc, hwf⟩ := shapeOf_encodes hsh b
    exact ⟨henc.trans hw.symm, hwf hb⟩

end Sys2Proof
end

section
/-! The decoding procedure and the POLL of a host (spec/30_encoding.md rules R66, R69; spec/40_control.md rules
R81, R82). -/

namespace Sys2Proof.Machine

/-! ### The step of a word that is no command -/

theorem engineStep_of_reject {s : State} {w : Word} {e : Illegal} (hl : s.latch = some w)
    (hd : decode w = .error e) :
    engineStep s = .next (s.complete (opField w) .illegal e.detail false) := by
  simp only [engineStep, hl, hd]
  rfl

/-- The last clause of rule R66, for the three hosts that leave the move to the engine. -/
theorem step_of_reject {s : State} {w : Word} {e : Illegal} (hl : s.latch = some w) (hd : decode w = .error e) :
    let rejected (t : State) : State := t.complete (opField w) .illegal e.detail false
    (s.port = [] → step s = .next (rejected s)) ∧
    (∀ rest, s.port = .idle :: rest → step s = .next (rejected (s.withPort rest))) ∧
    (∀ rest, s.port = .poll 0 :: rest → s.busy = true → step s = .next (rejected s)) := by
  refine ⟨fun hport => ?_, fun rest hport => ?_, fun rest hport hb => ?_⟩
  · rw [step_of_no_hostMove (State.hostMove_nil hport), State.yielded_nil hport, engineStep_of_reject hl hd]
  · rw [step_of_no_hostMove (State.hostMove_idle hport), State.yielded_idle hport]
    exact engineStep_of_reject (s := s.withPort rest) hl hd
  · rw [step_of_no_hostMove (State.hostMove_poll_zero hport hb), State.yielded_poll hport,
      engineStep_of_reject hl hd]

/-- Settles O3: the row of the OP picks the format, whose checks the decoder makes in order; an illegal word is
rejected by the engine's step. -/
theorem decodingProcedure : Obligations.DecodingProcedure := by
  intro w
  rw [← opField_toNat]
  refine ⟨fun h => ?_, fun h h0 => ?_, fun h h0 => ?_, fun h h0 => ?_, fun h h0 hb => ?_, fun h h0 => ?_,
    fun h h0 => ?_, fun h h0 => ?_, fun h h0 hb => ?_, fun s e hl hd => ?_⟩
  · exact decode_of_no_shape (shapeOf_of_unmapped h)
  · obtain ⟨i, hsh, -⟩ := shapeOf_of_nOpcode h
    rw [decode_of_shapeN hsh, if_pos h0]
  · obtain ⟨make, hsh⟩ := shapeOf_of_sOpcode h
    rw [decode_of_shapeS hsh, if_pos h0]
  · rw [decode_of_shapeW (shapeOf_of_wOpcode h), if_pos h0]
  · rw [decode_of_shapeW (shapeOf_of_wOpcode h), if_neg (not_not.2 h0), if_pos hb]
  · obtain ⟨i, hsh, hi⟩ := shapeOf_of_nOpcode h
    exact ⟨i, by rw [decode_of_shapeN hsh, if_neg (not_not.2 h0)], by rw [hi]⟩
  · rw [decode_of_shapeS (shapeOf_of_putsym h), if_neg (not_not.2 h0)]
  · rw [decode_of_shapeS (shapeOf_of_fadd h), if_neg (not_not.2 h0)]
  · rw [decode_of_shapeW (shapeOf_of_wOpcode h), if_neg (not_not.2 h0), if_neg (not_lt.2 hb)]
  · have hstep := step_of_reject hl hd
    rw [opField_eq_ofNat] at hstep
    cases e <;> exact hstep

/-! ### A POLL, step by step -/

theorem run_of_step {s t : State} (h : step s = .next t) (k : Nat) :
    Sys2Proof.core.run (k + 1) s = Sys2Proof.core.run k t := by
  simp only [Host.Core.run, show Sys2Proof.core.step s = .next t from h]

/-- Whatever the latch holds, the engine completes it and makes no access (rules R66, R82). -/
theorem engineStep_of_latched {s : State} {w : Word} (hl : s.latch = some w) :
    ∃ t, engineStep s = .next t ∧ t.busy = false ∧ t.port = s.port ∧ t.readLog = s.readLog := by
  cases hd : decode w with
  | error e => exact ⟨_, engineStep_of_reject hl hd, rfl, rfl, rfl⟩
  | ok i =>
    obtain ⟨⟨-, -, -, hport, hlog⟩, -⟩ := onlyNamedCommandsWrite i s _ (exec_eq i s)
    exact ⟨_, (engineStep_of_decode hl hd).trans (exec_eq i s), rfl, hport, hlog⟩

/-- A read of a POLL that is to see more reads with BUSY = 1 (rule R69; log 6). -/
theorem step_of_poll_busy {s : State} {n : Nat} {rest : List HostOp} (h : s.port = .poll (n + 1) :: rest)
    (hb : s.busy = true) : step s = .next ((s.withPort (.poll n :: rest)).hostRead statusAddr) :=
  step_of_hostMove (by rw [State.hostMove, h]; exact if_pos hb)

/-- The last read of a POLL (rule R69). -/
theorem step_of_poll_idle {s : State} {n : Nat} {rest : List HostOp} (h : s.port = .poll n :: rest)
    (hb : s.busy = false) : step s = .next ((s.withPort rest).hostRead statusAddr) :=
  step_of_hostMove (by rw [State.hostMove, h]; exact if_neg (by rw [hb]; decide))

theorem status_bit_of_idle {s : State} (hb : s.busy = false) : (s.hostValue statusAddr).getLsbD 0 = false :=
  (statusWordFields s hb).1

/-- A POLL of a busy block: its reads with BUSY = 1, the engine's step, its last read. -/
theorem poll_run {s : State} {n : Nat} {w : Word} {rest : List HostOp} (hport : s.port = .poll n :: rest)
    (hb : s.busy = true) (hl : s.latch = some w) :
    ∃ (t : State) (v : Word), Sys2Proof.core.run (n + 2) s = .next t ∧ t.port = rest ∧ t.busy = false ∧
      t.readLog.length = s.readLog.length + n + 1 ∧ t.readLog.getLast? = some v ∧ v.getLsbD 0 = false := by
  induction n generalizing s with
  | zero =>
    obtain ⟨t, hengine, hbusy, htport, hlog⟩ := engineStep_of_latched hl
    have hstep : step s = .next t := by
      rw [step_of_no_hostMove (State.hostMove_poll_zero hport hb), State.yielded_poll hport, hengine]
    rw [run_of_step hstep, run_of_step (step_of_poll_idle (htport.trans hport) hbusy)]
    exact ⟨_, _, rfl, rfl, hbusy, by simp [hlog], List.getLast?_concat, status_bit_of_idle hbusy⟩
  | succ n ih =>
    obtain ⟨t, v, hrun, htport, hbusy, hlen, hlast, hbit⟩ :=
      ih (s := (s.withPort (.poll n :: rest)).hostRead statusAddr) rfl hb hl
    refine ⟨t, v, (run_of_step (step_of_poll_busy hport hb) _).trans hrun, htport, hbusy, ?_, hlast, hbit⟩
    rw [hlen, State.hostRead_readLog, List.length_append, State.withPort_readLog, List.length_singleton]
    omega

/-- Settles O10: by induction on the reads that are to find BUSY = 1; an idle block shows BUSY = 0 at once. -/
theorem pollEnds : Obligations.PollEnds :=
  fun _ _ _ hport => ⟨fun _ hb hl => poll_run hport hb hl,
    fun hb => ⟨step_of_poll_idle hport hb, status_bit_of_idle hb⟩⟩

end Sys2Proof.Machine
end

section
/-! The command cycle and the control commands: acceptance, completion, what a raise leaves, NOP and CLEAR
(spec/40_control.md rules R80 to R85; spec/60_exceptions.md rule R135). -/

namespace Sys2Proof.Machine

/-! ### What a body that raises leaves -/

/-- The pseudocode ran to its end without TRUNC, or raised and left `u`. -/
inductive Ended.Settled (u : State) : Ended → Prop where
  | done (t : State) : Ended.Settled u (.done t)
  | raise (code : Result) (detail : Byte) : Ended.Settled u (.raise u code detail)

section Settled
variable {u : State} {e : Ended}

theorem Ended.Settled.trunc (h : e.Settled u) : e.trunc = false := by
  cases h <;> rfl

theorem Ended.Settled.eq_raise (h : e.Settled u) (hr : e.result ≠ .ok) : e = .raise u e.result e.detail := by
  cases h with
  | done t => exact absurd rfl hr
  | raise code detail => rfl

/-- A check that raises, before pseudocode that is settled. -/
theorem Ended.Settled.check (h : e.Settled u) {p : Prop} [Decidable p] {code : Result} {detail : Byte} :
    (if p then Ended.raise u code detail else e).Settled u :=
  iteInduction (fun _ => .raise code detail) fun _ => h

end Settled

theorem appendBits_settled (s : State) (bits : List Bool) : (appendBits s bits).Settled s :=
  iteInduction (fun _ => .done _) fun _ => .raise _ _

/-- WRBITS completes with OK, with TRUNC or without, or raises and leaves the state (rule R96). -/
theorem wrbitsBody_ok_or_raise (width : Nat) (s : State) :
    (wrbitsBody width s).result = .ok ∨
      wrbitsBody width s = .raise s (wrbitsBody width s).result (wrbitsBody width s).detail := by
  unfold wrbitsBody
  split
  · exact .inr rfl
  split
  · exact .inr rfl
  rcases appendBits_cases s (argBits s width) with ⟨-, e⟩ | ⟨-, e⟩ <;> rw [e]
  · exact .inl rfl
  · exact .inr rfl

/-- ENCODE raises LEN_RANGE from the state it started in, and PACK_OVF from the table it has built (rule R125). -/
theorem encodeBody_settled (s : State) :
    (encodeBody s).Settled s ∨ (encodeBody s).Settled (buildCodes (encodeTree s)) := by
  unfold encodeBody
  split
  · exact .inl (.raise _ _)
  · exact .inr (iteInduction (fun _ => .done _) fun _ => .check
      (iteInduction (fun h => packSymbols_ok h ▸ .done _) fun _ => .raise _ _))

/-- Every raise of DECODE leaves the one state of rule R133. -/
theorem decodeBody_settled (s : State) : (decodeBody s).Settled (decodeFailed s) := by
  refine .check (.check (iteInduction (fun _ => .done _) fun _ => .check ?_))
  rcases decodeStream (readerInit s) with ⟨code, detail⟩ | ⟨t, out⟩
  · exact .raise code detail
  · exact .done _

/-- Every command but WRBITS, ENCODE and DECODE completes without TRUNC or raises and leaves the state. -/
theorem bodyOf_settled (i : Instr) (s : State) :
    (∃ w, i = .wrbits w) ∨ i = .encode ∨ i = .decode ∨ (bodyOf i s).Settled s := by
  cases i with
  | wrbits w => exact .inl ⟨w, rfl⟩
  | encode => exact .inr (.inl rfl)
  | decode => exact .inr (.inr (.inl rfl))
  | nop | clear | bwinit | brinit | fclr => exact .inr (.inr (.inr (.done _)))
  | putsym c => exact .inr (.inr (.inr (appendBits_settled s (codeBits s c)).check.check))
  | finish | rdbit => exact .inr (.inr (.inr (Ended.Settled.done _).check.check))
  | fadd | fcount | tcheck | codes => exact .inr (.inr (.inr (Ended.Settled.done _).check))
  | build =>
    rw [bodyOf, buildBody]
    exact .inr (.inr (.inr (Ended.Settled.done _).check))

/-- TRUNC is 1 only for a WRBITS that completes with OK (rules R83, R96). -/
theorem bodyOf_trunc {i : Instr} {s : State} (h : (bodyOf i s).trunc = true) :
    (∃ w, i = .wrbits w) ∧ (bodyOf i s).result = .ok := by
  have no (e : (bodyOf i s).trunc = false) : False := Bool.false_ne_true (e.symm.trans h)
  obtain ⟨w, rfl⟩ | rfl | rfl | hs := bodyOf_settled i s
  · exact ⟨⟨w, rfl⟩, (wrbitsBody_ok_or_raise w.toNat s).resolve_right fun e => no (congrArg Ended.trunc e)⟩
  · exact (no ((encodeBody_settled s).elim Ended.Settled.trunc Ended.Settled.trunc)).elim
  · exact (no (decodeBody_settled s).trunc).elim
  · exact (no hs.trunc).elim

/-- Settles O8: the body of such a command raises from the state it started in. -/
theorem raiseLeavesTheState : Obligations.RaiseLeavesTheState := by
  intro i s t he hd h hr
  rw [exec_eq] at h
  cases h
  suffices e : bodyOf i s = .raise s (bodyOf i s).result (bodyOf i s).detail from
    congrArg (Ended.completed · i.opcode) e
  obtain ⟨w, rfl⟩ | rfl | rfl | hs := bodyOf_settled i s
  · exact (wrbitsBody_ok_or_raise w.toNat s).resolve_left hr
  · exact absurd rfl he
  · exact absurd rfl hd
  · exact hs.eq_raise hr

/-! ### Acceptance and completion -/

/-- Settles O59: the host's move is a write to CMD, which an idle block accepts and a busy one drops. -/
theorem commandAcceptance : Obligations.CommandAcceptance := by
  intro s w rest hport
  rw [step_of_hostMove (State.hostMove_write hport)]
  refine ⟨fun hb => ?_, fun hb => ?_⟩
  · exact congrArg _ (State.hostWrite_of_idle (s := s.withPort rest) hb (locate_offset _ _ .cmd) w)
  · exact congrArg _ (State.hostWrite_of_busy (s := s.withPort rest) hb _ w)

theorem State.yielded_latch (s : State) : s.yielded.latch = s.latch := by
  unfold State.yielded
  split <;> rfl

/-- The OP field of a command's word is its opcode (rules R64, R65). -/
theorem opField_encode (i : Instr) : opField (encode i) = i.opcode := by
  cases i with
  | wrbits w => exact opField_formatW w
  | putsym c | fadd c => exact opField_formatS c
  | nop | clear | bwinit | finish | brinit | rdbit | fclr | fcount | build | tcheck | codes | encode | decode =>
    exact opField_formatN

theorem opcode_of_decode {w : Word} {i : Instr} (h : decode w = .ok i) : i.opcode = opField w := by
  obtain ⟨henc, -⟩ := decodedWordIsTheEncoding w i h
  rw [← opField_encode, henc]

/-- The engine's move with a latched word is a completion of that word, legal or not (rule R82). -/
theorem engineStep_completes {s : State} {w : Word} (hl : s.latch = some w) :
    ∃ (u : State) (code : Result) (detail : Byte) (trunc : Bool),
      engineStep s = .next (u.complete (opField w) code detail trunc) ∧
      (trunc = true → code = .ok ∧ w.toNat % 256 = wOpcode) := by
  cases hd : decode w with
  | error e => exact ⟨_, _, _, _, engineStep_of_reject hl hd, nofun⟩
  | ok i =>
    have hop := opcode_of_decode hd
    refine ⟨_, _, _, _, (engineStep_of_decode hl hd).trans (hop ▸ exec_eq i s), fun ht => ?_⟩
    obtain ⟨⟨width, rfl⟩, hok⟩ := bodyOf_trunc ht
    exact ⟨hok, by rw [← opField_toNat, ← hop]; rfl⟩

/-- Settles O6: the host leaves the move to the engine, whose move is the completion of the latched word. -/
theorem acceptedCommandCompletes : Obligations.AcceptedCommandCompletes := by
  intro s w hl hmove
  obtain ⟨u, code, detail, trunc, hstep, htrunc⟩ := engineStep_completes (s.yielded_latch.trans hl)
  exact ⟨_, (step_of_no_hostMove hmove).trans hstep, rfl, rfl, rfl, htrunc⟩

/-! ### NOP and CLEAR -/

/-- Settles O11: NOP's body is empty, and its illegal words are those of format N with a reserved bit set. -/
theorem nopOnlyCompletes : Obligations.NopOnlyCompletes := by
  refine ⟨rfl, fun s => exec_eq .nop s, fun w hop hne => ?_⟩
  obtain ⟨-, reserved, -⟩ := decodingProcedure w
  exact reserved (by rw [hop]; decide) hne

/-- STATUS after CLEAR: LASTOP is CLEAR's opcode and EMPTY is 1 (rules R18, R85). -/
theorem clear_statusWord (s : State) :
    ((clearBody s).complete 0x01#8 .ok 0x00#8 false).statusWord = 0x01000004#32 := by
  change ((((((0x01#8 ++ 0#8) ++ 0#8) ++ 0#4) ++ BitVec.ofBool false) ++ BitVec.ofBool (decide (nilIx = nilIx))) ++
    BitVec.ofBool (decide (Result.ok ≠ .ok))) ++ BitVec.ofBool false = 0x01000004#32
  decide

/-- Settles O12: the body of CLEAR and its completion write the reset values one by one. -/
theorem clearReturnsRegistersToReset : Obligations.ClearReturnsRegistersToReset :=
  fun s => ⟨_, exec_eq .clear s, rfl, (State.hostValue_register rfl .status).trans (clear_statusWord s)⟩

end Sys2Proof.Machine
end

section
/-! The bound on Visit: every call of it marks a node below NODE_CNT that was not marked before, so a bound of
NODE_CNT is never used up (spec/44_code_table.md rule R116; log 10). -/

namespace Sys2Proof.Machine

variable {s : State} {n : NodeIx} {v v' : Visited} {cnt fuel : Nat}

/-- The nodes visited are different ones below `cnt`. -/
structure Visited.Within (cnt : Nat) (v : Visited) : Prop where
  nodup : v.nodes.Nodup
  lt : ∀ k ∈ v.nodes, k < cnt

theorem Visited.Within.insert (hv : v.Within cnt) {k : Nat} (hk : k < cnt) (hnew : k ∉ v.nodes) (syms : List Byte) :
    Visited.Within cnt ⟨k :: v.nodes, syms⟩ where
  nodup := List.nodup_cons.2 ⟨hnew, hv.nodup⟩
  lt := List.forall_mem_cons.2 ⟨hk, hv.lt⟩

/-- As long as a node is left to visit, fewer than `cnt` have been. -/
theorem Visited.Within.length_lt (hv : v.Within cnt) {k : Nat} (hk : k < cnt) (hnew : k ∉ v.nodes) :
    v.nodes.length < cnt := by
  have hins := hv.insert hk hnew v.syms
  have hlen := (hins.nodup.subperm fun j hj => List.mem_range.2 (hins.lt j hj)).length_le
  rwa [List.length_range] at hlen

/-- What comes after a bind that gives a value. -/
theorem exists_of_bind_eq_ok {ε α β : Type} {x : Except ε α} {f : α → Except ε β} {b : β}
    (h : x.bind f = .ok b) : ∃ a, x = .ok a ∧ f a = .ok b := by
  cases x with
  | error e => cases h
  | ok a => exact ⟨a, rfl, h⟩

/-- What a visit without defect has found: a new node, which is a Leaf and the one node marked, or whose children
are in range and have been visited without defect (rule R116). -/
theorem visit_ok_cases (h : visit s (fuel + 1) n v = .ok v') :
    n.toNat ∉ v.nodes ∧
      ((∃ syms, v' = ⟨n.toNat :: v.nodes, syms⟩) ∨
        ∃ l r v₁, l.toNat < s.nodeCnt.toNat ∧ r.toNat < s.nodeCnt.toNat ∧
          visit s fuel l { v with nodes := n.toNat :: v.nodes } = .ok v₁ ∧ visit s fuel r v₁ = .ok v') := by
  by_cases hnew : n.toNat ∈ v.nodes
  · rw [visit_visited hnew] at h
    cases h
  refine ⟨hnew, ?_⟩
  cases hi : (s.linkAt 0 n.toNat).internal with
  | false =>
    rw [visit_leaf hnew hi] at h
    split at h <;> cases h
    exact .inl ⟨_, rfl⟩
  | true =>
    rw [visit_internal hnew hi] at h
    split at h
    · cases h
    next hl =>
    obtain ⟨v₁, hleft, h⟩ := exists_of_bind_eq_ok h
    split at h
    · cases h
    next hr => exact .inr ⟨_, _, v₁, not_le.1 hl, not_le.1 hr, hleft, h⟩

/-- A visit without defect keeps the nodes visited different and in range, and marks one at least. -/
theorem visit_within (h : visit s fuel n v = .ok v') (hv : v.Within s.nodeCnt.toNat)
    (hn : n.toNat < s.nodeCnt.toNat) : v'.Within s.nodeCnt.toNat ∧ v.nodes.length < v'.nodes.length := by
  induction fuel generalizing n v v' with
  | zero => cases h
  | succ fuel ih =>
    obtain ⟨hnew, ⟨syms, rfl⟩ | ⟨l, r, v₁, hl, hr, hleft, hright⟩⟩ := visit_ok_cases h
    · exact ⟨hv.insert hn hnew syms, Nat.lt_succ_self _⟩
    · obtain ⟨hv₁, hlen₁⟩ := ih hleft (hv.insert hn hnew v.syms) hl
      obtain ⟨hv', hlen'⟩ := ih hright hv₁ hr
      rw [List.length_cons] at hlen₁
      exact ⟨hv', by omega⟩

/-- Two bounds that both reach from the nodes visited to NODE_CNT give the same visit. -/
theorem visit_fuel_irrelevant {fuel' : Nat} (hv : v.Within s.nodeCnt.toNat) (hn : n.toNat < s.nodeCnt.toNat)
    (hf : s.nodeCnt.toNat ≤ v.nodes.length + fuel) (hf' : s.nodeCnt.toNat ≤ v.nodes.length + fuel') :
    visit s fuel n v = visit s fuel' n v := by
  induction fuel generalizing n v fuel' with
  | zero =>
    have hmem : n.toNat ∈ v.nodes := by
      by_contra hnew
      have := hv.length_lt hn hnew
      omega
    rw [visit_visited hmem, visit_visited hmem]
  | succ fuel ih =>
    by_cases hnew : n.toNat ∈ v.nodes
    · rw [visit_visited hnew, visit_visited hnew]
    have hlt := hv.length_lt hn hnew
    obtain ⟨fuel', rfl⟩ : ∃ k, fuel' = k + 1 := ⟨fuel' - 1, by omega⟩
    cases hi : (s.linkAt 0 n.toNat).internal with
    | false => rw [visit_leaf hnew hi, visit_leaf hnew hi]
    | true =>
      have hv₀ := hv.insert hn hnew v.syms
      rw [visit_internal hnew hi, visit_internal hnew hi]
      refine if_ctx_congr Iff.rfl (fun _ => rfl) fun hl => ?_
      rw [ih hv₀ (not_le.1 hl) (fuel' := fuel') (by simp only [List.length_cons]; omega)
        (by simp only [List.length_cons]; omega)]
      cases hleft : visit s fuel' (s.linkAt 0 n.toNat).left { v with nodes := n.toNat :: v.nodes } with
      | error d => rfl
      | ok v₁ =>
        obtain ⟨hv₁, hlen₁⟩ := visit_within hleft hv₀ (not_le.1 hl)
        rw [List.length_cons] at hlen₁
        exact if_ctx_congr Iff.rfl (fun _ => rfl) fun hr => ih hv₁ (not_le.1 hr) (by omega) (by omega)

/-- Settles O32: nothing has been visited at the root, and both bounds exceed NODE_CNT. -/
theorem treeCheckBoundIsNeverReached : Obligations.TreeCheckBoundIsNeverReached := by
  intro s fuel hcnt hroot hfuel
  exact visit_fuel_irrelevant ⟨List.nodup_nil, nofun⟩ hroot (by rw [List.length_nil]; omega)
    (by rw [List.length_nil]; omega)

end Sys2Proof.Machine
end

section
/-! The bit-packer's commands: what each body does case by case, what an append and FINISH leave of PACK, and the
statements of the family (rules R90 to R98). -/

namespace Sys2Proof.Machine

/-! ### The bits of a word -/

theorem maskWord_getLsbD (w i : Nat) : (maskWord w).getLsbD i = (decide (i < 32) && decide (i < w)) := by
  rw [maskWord, BitVec.getLsbD_ofNat, Nat.testBit_two_pow_sub_one]

/-- Within the word the mask of rule R96 keeps every bit that is sent. -/
theorem argBits_eq_msbFirst (s : State) {w : Nat} (hw : w ≤ 32) : argBits s w = msbFirst s.arg w :=
  List.map_congr_left fun j hj => by
    have hj := List.mem_range.1 hj
    rw [BitVec.getLsbD_and, maskWord_getLsbD, decide_eq_true (by omega), decide_eq_true (by omega),
      Bool.and_true, Bool.and_true]

/-- The high-order chunk and then the low-order one are the bits of the value (rule R95). -/
theorem msbFirst_split {n : Nat} (v : BitVec n) (a b : Nat) :
    msbFirst (v >>> b) a ++ msbFirst v b = msbFirst v (a + b) := by
  unfold msbFirst
  rw [List.range_add, List.map_append, List.map_map]
  congr 1
  · refine List.map_congr_left fun j hj => ?_
    have hj := List.mem_range.1 hj
    rw [BitVec.getLsbD_ushiftRight]
    congr 1
    omega
  · refine List.map_congr_left fun j _ => ?_
    rw [Function.comp_apply]
    congr 1
    omega

theorem truncFlag_eq (s : State) (w : Nat) : truncFlag s w = decide (s.arg.toNat / 2 ^ w ≠ 0) := by
  rw [truncFlag, decide_eq_decide, ne_eq, ne_eq, ← BitVec.toNat_inj, BitVec.toNat_ushiftRight,
    Nat.shiftRight_eq_div_pow]
  rfl

/-! ### The bodies, case by case -/

section Bodies

variable {s : State}

theorem appendBits_of_fits {bits : List Bool} (h : s.packLen.toNat + newBytes s bits.length ≤ s.packCap) :
    appendBits s bits = .done (pushBits s bits) :=
  if_pos (decide_eq_true h)

theorem appendBits_of_overflow {bits : List Bool}
    (h : s.packCap < s.packLen.toNat + newBytes s bits.length) :
    appendBits s bits = .raise s .packOvf Detail.none := by
  rw [appendBits, fits, decide_eq_false (by omega), if_neg Bool.false_ne_true]

theorem wrbitsBody_of_finished {w : Nat} (hw : w ≤ wrbitsMax) (hfin : s.bwFin = true) :
    wrbitsBody w s = .raise s .sequence Detail.writerFinished := by
  rw [wrbitsBody, if_neg (not_lt.2 hw), if_pos hfin]

theorem wrbitsBody_of_fits {w : Nat} (hw : w ≤ wrbitsMax) (hfin : s.bwFin = false)
    (h : s.packLen.toNat + newBytes s w ≤ s.packCap) :
    wrbitsBody w s = { Ended.done (pushBits s (msbFirst s.arg w)) with trunc := truncFlag s w } := by
  rw [wrbitsBody, if_neg (not_lt.2 hw), if_neg (by simp [hfin]), argBits_eq_msbFirst s hw,
    appendBits_of_fits (by rwa [msbFirst_length])]
  rfl

theorem wrbitsBody_of_overflow {w : Nat} (hw : w ≤ wrbitsMax) (hfin : s.bwFin = false)
    (h : s.packCap < s.packLen.toNat + newBytes s w) :
    wrbitsBody w s = .raise s .packOvf Detail.none := by
  rw [wrbitsBody, if_neg (not_lt.2 hw), if_neg (by simp [hfin]), argBits_eq_msbFirst s hw,
    appendBits_of_overflow (by rwa [msbFirst_length])]
  rfl

theorem putsymBody_of_finished (c : Byte) (hfin : s.bwFin = true) :
    putsymBody c s = .raise s .sequence Detail.writerFinished :=
  if_pos hfin

theorem putsymBody_of_no_code {c : Byte} (hfin : s.bwFin = false) (hc : s.validAt c = false) :
    putsymBody c s = .raise s .noCode Detail.none := by
  rw [putsymBody, if_neg (by simp [hfin]), if_pos (by simp [hc])]

theorem putsymBody_of_valid {c : Byte} (hfin : s.bwFin = false) (hc : s.validAt c = true) :
    putsymBody c s = appendBits s (codeBits s c) := by
  rw [putsymBody, if_neg (by simp [hfin]), if_neg (by simp [hc])]

theorem finishBody_of_finished (hfin : s.bwFin = true) :
    finishBody s = .raise s .sequence Detail.writerFinished :=
  if_pos hfin

theorem finishBody_of_overflow (hfin : s.bwFin = false) (h8 : s.bwFree.toNat < 8)
    (h : s.packCap < s.packLen.toNat + 1) : finishBody s = .raise s .packOvf Detail.none := by
  rw [finishBody, if_neg (by simp [hfin]), if_pos ⟨h8, h⟩]

theorem finishBody_of_room (hfin : s.bwFin = false) (h : s.bwFree.toNat < 8 → s.packLen.toNat < s.packCap) :
    finishBody s = .done (finishStream s) := by
  rw [finishBody, if_neg (by simp [hfin]), if_neg fun ⟨h8, hcap⟩ => by have := h h8; omega]

/-- The partial byte goes to PACK[PACK_LEN], and FREE to TRAIL (rule R98). -/
theorem finishStream_of_partial (h8 : s.bwFree.toNat < 8) (hcap : s.packLen.toNat < s.packCap) :
    finishStream s = { s with
      pack := s.pack.put s.packLen.toNat s.bwCur, packLen := s.packLen + 1#32,
      trail := BitVec.ofNat 3 s.bwFree.toNat, bwCur := 0#8, bwFree := 8#4, bwFin := true } := by
  rw [finishStream, if_pos h8, flushByte, State.writePack, if_pos hcap, BitVec.ofNat_toNat]

/-- Nothing partial: no byte, and TRAIL 0 (rule R98). -/
theorem finishStream_of_empty (h8 : ¬ s.bwFree.toNat < 8) :
    finishStream s = { s with trail := 0#3, bwCur := 0#8, bwFree := 8#4, bwFin := true } :=
  if_neg h8

end Bodies

/-! ### What an append leaves of PACK, be it written or not -/

section Frame

variable {s : State}

theorem State.Inv.packLen_add_newBytes (h : s.Inv) (n : Nat) :
    s.packLen.toNat + newBytes s n = (s.position + n) / 8 := by
  have := h.free_range
  unfold newBytes State.position
  omega

/-- One bit moves the position by one, the byte it may fill finding room. -/
theorem State.Inv.appendBit_position (h : s.Inv) (b : Bool) (hfit : (s.position + 1) / 8 ≤ s.packCap) :
    (Machine.appendBit s b).position = s.position + 1 := by
  have hfree := h.free_range
  have hcap := h.packCap_range.2
  rw [appendBit_eq s b hfree.1 hfree.2]
  unfold State.position at hfit ⊢
  split
  · rw [flushByte_bwFree, flushByte_packLen, fillSlot_packLen, packLen_add_one (by omega),
      show (8#4).toNat = 8 from rfl]
    omega
  · rw [h.fillSlot_free, fillSlot_packLen]
    omega

/-- One bit stores no byte but the one it fills (rule R92). -/
theorem State.Inv.appendBit_look (h : s.Inv) (b : Bool) (hfit : (s.position + 1) / 8 ≤ s.packCap) {j : Nat}
    (hj : j < s.position / 8 ∨ (s.position + 1) / 8 ≤ j) :
    (Machine.appendBit s b).pack.look j = s.pack.look j := by
  have hfree := h.free_range
  rw [appendBit_eq s b hfree.1 hfree.2]
  unfold State.position at hfit hj
  split
  · rw [flushByte_look (by rw [fillSlot_packLen, fillSlot_packCap]; omega), fillSlot_packLen,
      if_neg (by omega), fillSlot_pack]
  · rfl

/-- An append that fits stores no byte but those it fills, from PACK_LEN on (rules R93, R94). -/
theorem State.Inv.pushBits_look (h : s.Inv) (bits : List Bool)
    (hfit : (s.position + bits.length) / 8 ≤ s.packCap) {j : Nat}
    (hj : j < s.position / 8 ∨ (s.position + bits.length) / 8 ≤ j) :
    (Machine.pushBits s bits).pack.look j = s.pack.look j := by
  induction bits generalizing s with
  | nil => rfl
  | cons b bits ih =>
    rw [List.length_cons] at hfit hj
    have hpos := h.appendBit_position b (by omega)
    obtain ⟨_, _, _, _, _, _, _, he⟩ := appendBit_only s b
    have hcap : (Machine.appendBit s b).packCap = s.packCap := by rw [he]
    refine (ih (h.appendBit b) ?_ ?_).trans (h.appendBit_look b (by omega) (by omega))
    · rw [hpos, hcap]
      omega
    · rw [hpos]
      omega

theorem pushBits_trail (s : State) (bits : List Bool) : (pushBits s bits).trail = s.trail := by
  induction bits generalizing s with
  | nil => rfl
  | cons b bits ih =>
    refine (ih (appendBit s b)).trans ?_
    unfold appendBit
    dsimp only
    split <;> simp

/-- WRBITS and PUTSYM leave the state or have appended as many bits as they flush bytes for (rules R93, R94). -/
theorem appendCommand_left {i : Instr} (s : State) (hi : (∃ w, i = .wrbits w) ∨ ∃ c, i = .putsym c) :
    (bodyOf i s).left = s ∨ ∃ bits, fits s bits.length = true ∧ flushCount s i = newBytes s bits.length ∧
      (bodyOf i s).left = pushBits s bits := by
  obtain ⟨bits, hn, he⟩ : ∃ bits, flushCount s i = newBytes s bits.length ∧
      ((bodyOf i s).left = s ∨ (bodyOf i s).left = (appendBits s bits).left) := by
    obtain ⟨w, rfl⟩ | ⟨c, rfl⟩ := hi
    · exact ⟨argBits s w.toNat, by rw [argBits, msbFirst_length, flushCount], wrbitsBody_left w.toNat s⟩
    · exact ⟨codeBits s c, by rw [codeBits, msbFirst_length, flushCount], putsymBody_left c s⟩
  obtain he | he := he
  · exact .inl he
  obtain ⟨hf, ha⟩ | ⟨-, ha⟩ := appendBits_cases s bits <;> rw [ha] at he
  · exact .inr ⟨bits, hf, hn, he⟩
  · exact .inl he

/-- FINISH leaves the state or has finished the stream, with room for the partial byte (rule R98). -/
theorem finishBody_left (s : State) :
    (finishBody s).left = s ∨
      ((s.bwFree.toNat < 8 → s.packLen.toNat < s.packCap) ∧ (finishBody s).left = finishStream s) := by
  unfold finishBody
  split
  · exact .inl rfl
  · split
    · exact .inl rfl
    · next hroom => exact .inr ⟨fun h8 => by omega, rfl⟩

/-- FINISH stores no byte but the partial one, at PACK_LEN (rule R98). -/
theorem finishStream_look (hroom : s.bwFree.toNat < 8 → s.packLen.toNat < s.packCap) {j : Nat}
    (hj : j < s.packLen.toNat ∨ s.packLen.toNat + flushCount s .finish ≤ j) :
    (finishStream s).pack.look j = s.pack.look j := by
  rw [flushCount] at hj
  by_cases h8 : s.bwFree.toNat < 8
  · rw [if_pos h8] at hj
    rw [finishStream_of_partial h8 (hroom h8), Memory.look_put_ne _ _ (by omega)]
  · rw [finishStream_of_empty h8]

/-- What a packer command leaves of PACK and of the packer's registers, whether it completes or raises (rule R90). -/
theorem packerCommand_frame (h : s.Inv) {i : Instr}
    (hi : (∃ w, i = .wrbits w) ∨ (∃ c, i = .putsym c) ∨ i = .finish) :
    (∀ j, j < s.packLen.toNat ∨ s.packLen.toNat + flushCount s i ≤ j →
      (bodyOf i s).left.pack.look j = s.pack.look j) ∧
    (i ≠ .finish →
      (bodyOf i s).left.bwFin = s.bwFin ∧ (bodyOf i s).left.trail = s.trail) ∧
    (i = .finish → (bodyOf i s).left.totalBits = s.totalBits) := by
  rw [← or_assoc] at hi
  obtain hi | rfl := hi
  · have hne : i ≠ .finish := by rintro rfl; simp at hi
    obtain he | ⟨bits, hf, hn, he⟩ := appendCommand_left s hi <;> rw [he]
    · exact ⟨fun _ _ => rfl, fun _ => ⟨rfl, rfl⟩, fun _ => rfl⟩
    · refine ⟨fun j hj => ?_, fun _ => ⟨pushBits_bwFin s bits, pushBits_trail s bits⟩, fun e => absurd e hne⟩
      rw [hn, h.packLen_add_newBytes, h.packLen_eq] at hj
      exact h.pushBits_look bits ((h.fits_iff _).1 hf) hj
  · obtain he | ⟨hroom, he⟩ := finishBody_left s <;> rw [bodyOf, he]
    · exact ⟨fun _ _ => rfl, fun _ => ⟨rfl, rfl⟩, fun _ => rfl⟩
    · obtain ⟨-, -, -, htotal⟩ := finishStream_registers s
      exact ⟨fun j hj => finishStream_look hroom hj, fun e => absurd rfl e, fun _ => htotal⟩

end Frame

/-- Settles O19: the frame of the body, which the completion keeps. -/
theorem packerCommandsFrame : Obligations.PackerCommandsFrame := by
  intro s t i hinv hi h
  rw [exec_eq] at h
  cases h
  obtain ⟨cur, free, fin, total, len, trail, pack, he⟩ := packerCommand_only i s hi
  exact ⟨⟨cur, free, fin, total, len, trail, pack, by rw [Ended.completed, he]; rfl⟩, packerCommand_frame hinv hi⟩

/-! ### Appending from the command -/

/-- The stream of a packer whose bytes are written is kept by the completion, which moves the draws on. -/
theorem State.PackWritten.streamBits_complete {s : State} (h : s.PackWritten) (op : Byte) (code : Result)
    (d : Byte) (trunc : Bool) : (s.complete op code d trunc).streamBits = s.streamBits := by
  have hbits : (s.complete op code d trunc).packBits = s.packBits := packBits_congr rfl fun i hi => by
    obtain ⟨v, hv⟩ := Option.isSome_iff_exists.1 (h i hi)
    rw [State.packAt, State.packAt, State.complete_pack, hv]
    rfl
  rw [State.streamBits, hbits]
  rfl

/-- A command that completes with the append of `bits` has appended them to the stream and counted them. -/
theorem State.Inv.append_completed {s : State} (h : s.Inv) (hw : s.PackWritten) {bits : List Bool}
    (hfit : s.packLen.toNat + newBytes s bits.length ≤ s.packCap) (op : Byte) (trunc : Bool) :
    let t := (Machine.pushBits s bits).complete op .ok 0x00#8 trunc
    t.streamBits = s.streamBits ++ bits ∧ t.position = s.position + bits.length ∧
      (s.totalBits.toNat + bits.length < 2 ^ 32 → t.totalBits.toNat = s.totalBits.toNat + bits.length) := by
  rw [h.packLen_add_newBytes] at hfit
  have happ := pushBits_appended h hw bits hfit
  exact ⟨(happ.written.streamBits_complete _ _ _ _).trans happ.stream, happ.position, happ.total⟩

/-- Settles O14: the append is of the bits of ARG below WIDTH, and TRUNC tells of those above. -/
theorem wrbitsAppendsArg : Obligations.WrbitsAppendsArg := by
  intro s w hinv hpack hw hfin hfit
  have happ := hinv.append_completed hpack (bits := msbFirst s.arg w.toNat)
    (by rw [msbFirst_length]; exact hfit) 0x11#8 (truncFlag s w.toNat)
  rw [msbFirst_length] at happ
  refine ⟨_, exec_eq _ _, ?_⟩
  rw [bodyOf, wrbitsBody_of_fits hw hfin hfit]
  exact ⟨rfl, rfl, rfl, truncFlag_eq s _, happ⟩

/-- Settles O15: the append is of the bits of the symbol's code. -/
theorem putsymAppendsTheCode : Obligations.PutsymAppendsTheCode := by
  intro s c hinv hpack hfin hc hfit
  have hlen : (codeBits s c).length = (s.codeLenAt c).toNat := msbFirst_length _ _
  have hfit' : s.packLen.toNat + newBytes s (codeBits s c).length ≤ s.packCap := by rw [hlen]; exact hfit
  have happ := hinv.append_completed hpack hfit' 0x12#8 false
  rw [hlen] at happ
  refine ⟨_, exec_eq _ _, ?_⟩
  rw [bodyOf, putsymBody_of_valid hfin hc, appendBits_of_fits hfit']
  exact ⟨rfl, rfl, rfl, rfl, happ⟩

/-- Settles O18: the two chunks are one after the other the bits of the value. -/
theorem splitWriteIsOneWrite : Obligations.SplitWriteIsOneWrite := by
  intro s v a b hab
  rw [← pushBits_append, argBits_eq_msbFirst _ (by omega), argBits_eq_msbFirst _ (by omega),
    argBits_eq_msbFirst _ hab, msbFirst_split]

/-! ### Starting, finishing and raising -/

theorem exec_of_done {i : Instr} {s t : State} (h : bodyOf i s = .done t) :
    exec i s = .next (t.complete i.opcode .ok 0x00#8 false) := by
  rw [exec_eq, h]
  rfl

theorem exec_of_raise {i : Instr} {s t : State} {code : Result} {detail : Byte}
    (h : bodyOf i s = .raise t code detail) : exec i s = .next (t.complete i.opcode code detail false) := by
  rw [exec_eq, h]
  rfl

/-- Settles O13: both bodies write these values and check nothing. -/
theorem freshPackerAndReader : Obligations.FreshPackerAndReader :=
  fun _ => ⟨exec_of_done (i := .bwinit) rfl, exec_of_done (i := .brinit) rfl⟩

/-- Settles O16: FINISH finishes the stream where the partial byte has room, and where there is none. -/
theorem finishPadsThePartialByte : Obligations.FinishPadsThePartialByte := by
  intro s _ hfin
  refine ⟨fun h8 hcap => ?_, fun h8 => ?_⟩
  · rw [← finishStream_of_partial h8 hcap]
    exact exec_of_done (finishBody_of_room hfin fun _ => hcap)
  · rw [← finishStream_of_empty (by omega)]
    exact exec_of_done (finishBody_of_room hfin (by omega))

/-- Settles O17: the checks of each body, in their order. -/
theorem whenPackerCommandsRaise : Obligations.WhenPackerCommandsRaise := by
  intro s w c hw
  refine ⟨fun hfin => ⟨?_, ?_, ?_⟩, fun hfin => ⟨fun h => ?_, fun hc => ?_, fun hc h => ?_, fun h8 h => ?_⟩⟩
  · exact exec_of_raise (wrbitsBody_of_finished hw hfin)
  · exact exec_of_raise (putsymBody_of_finished c hfin)
  · exact exec_of_raise (finishBody_of_finished hfin)
  · exact exec_of_raise (wrbitsBody_of_overflow hw hfin h)
  · exact exec_of_raise (putsymBody_of_no_code hfin hc)
  · exact exec_of_raise ((putsymBody_of_valid hfin hc).trans
      (appendBits_of_overflow (by rwa [codeBits, msbFirst_length])))
  · exact exec_of_raise (finishBody_of_overflow hfin h8 h)

end Sys2Proof.Machine
end

section
/-! The bit-unpacker's commands: what RDBIT does case by case, and that reading a finished stream gives back the bits
the packer took (rules R100 to R104). -/

namespace Sys2Proof.Machine

variable {s : State}

/-! ### RDBIT, case by case -/

/-- The reader moved to the next bit, as one update (rule R102). -/
theorem advanceReader_eq (s : State) : advanceReader s = { s with
    brBit := if s.brBit = 0#3 then 7#3 else s.brBit - 1#3
    brPos := if s.brBit = 0#3 then s.brPos + 1#32 else s.brPos } := by
  unfold advanceReader
  split <;> rfl

theorem rdbitBody_of_lenRange (h : s.packCap < s.packLen.toNat) :
    rdbitBody s = .raise s .lenRange Detail.packLenRange :=
  if_pos h

theorem rdbitBody_of_end (hcap : s.packLen.toNat ≤ s.packCap) (h : ¬ significant s = true) :
    rdbitBody s = .raise s .endOfStream Detail.none := by
  rw [rdbitBody, if_neg (not_lt.2 hcap), if_pos (by simpa using h)]

theorem rdbitBody_of_significant (hcap : s.packLen.toNat ≤ s.packCap) (h : significant s = true) :
    rdbitBody s = .done { advanceReader s with arg := (BitVec.ofBool (currentBit s)).setWidth 32 } := by
  rw [rdbitBody, if_neg (not_lt.2 hcap), if_neg (by simp [h])]

/-- A bit as the word RDBIT leaves in ARG. -/
theorem setWidth_ofBool (b : Bool) : (BitVec.ofBool b).setWidth 32 = if b then 1#32 else 0#32 := by
  cases b <;> rfl

/-- Settles O20: the checks of RDBIT in their order, significance being as rule R100 counts it. -/
theorem rdbitReadsTheNextBit : Obligations.RdbitReadsTheNextBit := by
  intro s
  rw [← significant_iff]
  refine ⟨fun h => ?_, fun hcap h => ?_, fun hcap h => ?_⟩
  · exact exec_of_raise (rdbitBody_of_lenRange h)
  · exact exec_of_raise (rdbitBody_of_end hcap h)
  · have hdone := rdbitBody_of_significant hcap h
    rw [setWidth_ofBool, advanceReader_eq] at hdone
    exact exec_of_done hdone

/-! ### Reading a stored stream to its end -/

/-- The reader has exactly `bits` before it, in written bytes of a PACK that holds them all. -/
structure State.HasAhead (s : State) (bits : List Bool) : Prop where
  inRange : s.packLen.toNat ≤ s.packCap
  written : s.PackWritten
  rest : s.restBits = bits

/-- What a completion leaves ahead of the reader: it moves the draws on, which written bytes do not show. -/
theorem State.HasAhead.complete {bits : List Bool} (h : s.HasAhead bits) (op : Byte) (code : Result) (d : Byte)
    (trunc : Bool) : (s.complete op code d trunc).HasAhead bits where
  inRange := h.inRange
  written := h.written
  rest := by
    rw [← h.rest, State.restBits, h.written.significantBits_complete]
    rfl

/-- One RDBIT takes the first of the bits ahead (rule R102). -/
theorem State.HasAhead.rdbit {b : Bool} {bits : List Bool} (h : s.HasAhead (b :: bits)) :
    ∃ t, exec .rdbit s = .next t ∧ t.result = .ok ∧ decide (t.arg = 1#32) = b ∧ t.HasAhead bits := by
  obtain ⟨hsig, hbit, hrest⟩ := restBits_cons h.rest
  have hahead : State.HasAhead { advanceReader s with arg := (BitVec.ofBool (currentBit s)).setWidth 32 } bits := by
    refine ⟨?_, ?_, hrest⟩ <;> rw [advanceReader_eq]
    · exact h.inRange
    · exact h.written
  refine ⟨_, exec_of_done (rdbitBody_of_significant h.inRange hsig), rfl, ?_, hahead.complete _ _ _ _⟩
  rw [State.complete_arg, hbit]
  cases b <;> rfl

/-- One RDBIT per bit ahead returns them all (rule R104). -/
theorem State.HasAhead.readBits {bits : List Bool} (h : s.HasAhead bits) :
    ∃ v, readBits bits.length s = some (bits, v) ∧ v.HasAhead [] := by
  induction bits generalizing s with
  | nil => exact ⟨s, rfl, h⟩
  | cons b bits ih =>
    obtain ⟨t, hexec, hok, harg, ht⟩ := h.rdbit
    obtain ⟨v, hread, hv⟩ := ih ht
    refine ⟨v, ?_, hv⟩
    rw [List.length_cons, Machine.readBits, hexec]
    dsimp only
    rw [if_pos hok, hread, Option.map_some, harg]

/-- With no bit ahead RDBIT raises END_OF_STREAM (rule R102). -/
theorem State.HasAhead.endOfStream (h : s.HasAhead []) :
    exec .rdbit s = .next (s.complete 0x21#8 .endOfStream 0x00#8 false) :=
  exec_of_raise (rdbitBody_of_end h.inRange fun hsig => (significant_iff_restBits s).1 hsig h.rest)

/-! ### What BRINIT has ahead of a finished stream -/

theorem packWritten_of_empty (h : s.packLen = 0#32) : s.PackWritten := fun i hi => by
  rw [h] at hi
  exact absurd hi (Nat.not_lt_zero i)

theorem streamBits_of_fresh (hlen : s.packLen = 0#32) (hfree : s.bwFree = 8#4) : s.streamBits = [] := by
  rw [State.streamBits, State.packBits, hlen, hfree]
  rfl

theorem position_of_fresh (hlen : s.packLen = 0#32) (hfree : s.bwFree = 8#4) : s.position = 0 := by
  rw [State.position, hlen, hfree]
  rfl

/-- FINISH after an append to a fresh packer completes, and what BRINIT then has ahead are the bits appended
(rules R94, R98, R101). -/
theorem finish_of_fresh {bits : List Bool} (h : s.Inv) (hlen : s.packLen = 0#32) (hfree : s.bwFree = 8#4)
    (hfin : s.bwFin = false) (hfit : (bits.length + 7) / 8 ≤ s.packCap) :
    finishBody (pushBits s bits) = .done (finishStream (pushBits s bits)) ∧
      (readerInit (finishStream (pushBits s bits))).HasAhead bits := by
  have hpos := position_of_fresh hlen hfree
  have happ := pushBits_appended h (packWritten_of_empty hlen) bits (by rw [hpos]; omega)
  have hend : (pushBits s bits).position = bits.length := by rw [happ.position, hpos, Nat.zero_add]
  have hcap : (pushBits s bits).packCap = s.packCap := by
    obtain ⟨_, _, _, _, _, _, _, he⟩ := pushBits_only s bits
    rw [he]
  have hcap' : (finishStream (pushBits s bits)).packCap = s.packCap := by
    obtain ⟨_, _, _, _, _, _, _, he⟩ := finishStream_only (pushBits s bits)
    rw [he, hcap]
  have hroom : ((pushBits s bits).position + 7) / 8 ≤ (pushBits s bits).packCap := by rwa [hend, hcap]
  obtain ⟨hsig, hplen, -, hwritten, -⟩ := finishStream_spec happ.inv happ.written hroom
  refine ⟨finishBody_fits happ.inv ((pushBits_bwFin s bits).trans hfin) hroom, ?_, hwritten, ?_⟩
  · change (finishStream _).packLen.toNat ≤ (finishStream _).packCap
    rw [hplen, hcap', hend]
    exact hfit
  · rw [readerInit_restBits, hsig, happ.stream, streamBits_of_fresh hlen hfree, List.nil_append]

/-- Settles O21: FINISH and BRINIT leave the bits packed ahead of the reader; by induction on them the RDBITs return
them, and then nothing is ahead. -/
theorem readerInvertsWriter : Obligations.ReaderInvertsWriter := by
  intro s bits hinv hlen hfree hfin hfit
  obtain ⟨hbody, hahead⟩ := finish_of_fresh hinv hlen hfree hfin hfit
  have hstart := (hahead.complete 0x13#8 .ok 0x00#8 false).complete 0x20#8 .ok 0x00#8 false
  obtain ⟨v, hread, hv⟩ := hstart.readBits
  exact ⟨_, _, v, exec_of_done (i := .finish) hbody, rfl, exec_of_done (i := .brinit) rfl, hread, hv.endOfStream⟩

end Sys2Proof.Machine
end

section
/-! The padding bits of the last byte of PACK are never data (rules R100, R103): the commands that write PACK read none
of it, and those that read it read its significant bits alone. -/

namespace Sys2Proof.Machine

/-! ### States alike but for PACK -/

/-- The state with other contents of PACK. -/
def State.withPack (s : State) (p : Memory Byte) : State := { s with pack := p }

section Fields

variable (s : State) (p : Memory Byte)

@[simp] theorem State.withPack_root : (s.withPack p).root = s.root := rfl
@[simp] theorem State.withPack_nodeCnt : (s.withPack p).nodeCnt = s.nodeCnt := rfl
@[simp] theorem State.withPack_symCap : (s.withPack p).symCap = s.symCap := rfl
@[simp] theorem State.withPack_linkAt (read i : Nat) : (s.withPack p).linkAt read i = s.linkAt read i := rfl
@[simp] theorem significant_withPack : significant (s.withPack p) = significant s := rfl
@[simp] theorem bitRead_withPack : bitRead (s.withPack p) = bitRead s := rfl
@[simp] theorem leafCode_withPack (q l : Nat) : leafCode (s.withPack p) q l = leafCode s q l := rfl

end Fields

/-- The update neither reads nor writes PACK. -/
def IgnoresPack (f : State → State) : Prop := ∀ s p, f (s.withPack p) = (f s).withPack p

theorem IgnoresPack.pack_eq {f : State → State} (h : IgnoresPack f) (s : State) : (f s).pack = s.pack := by
  change (f (s.withPack s.pack)).pack = s.pack
  rw [h]
  rfl

/-- `t` is `s` but for byte `k` of PACK. -/
def OnlyByte (k : Nat) (s t : State) : Prop := ∃ p, t = s.withPack p ∧ ∀ j, j ≠ k → p.look j = s.pack.look j

section OnlyByte

variable {k : Nat} {s t : State}

/-- An update that ignores PACK keeps the one byte the only difference. -/
theorem IgnoresPack.onlyByte {f : State → State} (hf : IgnoresPack f) (h : OnlyByte k s t) :
    OnlyByte k (f s) (f t) := by
  obtain ⟨p, rfl, hp⟩ := h
  exact ⟨p, hf s p, by rwa [hf.pack_eq]⟩

theorem OnlyByte.frame (h : OnlyByte k s t) :
    t = { s with pack := t.pack } ∧ ∀ j, j ≠ k → t.pack.look j = s.pack.look j := by
  obtain ⟨p, rfl, hp⟩ := h
  exact ⟨rfl, hp⟩

theorem OnlyByte.ite {s' t' : State} {c : Prop} [Decidable c] (h : OnlyByte k s t) (h' : OnlyByte k s' t') :
    OnlyByte k (if c then s else s') (if c then t else t') := by
  split
  · exact h
  · exact h'

end OnlyByte

/-! ### The frequency table, the tree and the codes ignore PACK -/

theorem foldl_countSymbol_withPack (cs : List Byte) (s : State) (p : Memory Byte) :
    cs.foldl countSymbol (s.withPack p) = (cs.foldl countSymbol s).withPack p := by
  induction cs generalizing s with
  | nil => rfl
  | cons c cs ih => exact ih (countSymbol s c)

theorem countInput_ignoresPack : IgnoresPack countInput := fun s p =>
  foldl_countSymbol_withPack (inputSymbols s 0) s.clearFreq p

theorem writeNode_withPack (i : Nat) (e : NodeLink) (v : Word) (s : State) (p : Memory Byte) :
    (s.withPack p).writeNode i e v = (s.writeNode i e v).withPack p := by
  unfold State.writeNode State.writeWeight State.writeLink
  split <;> rfl

theorem writeNodes_withPack (ws : List NodeWrite) (s : State) (p : Memory Byte) :
    (s.withPack p).writeNodes ws = (s.writeNodes ws).withPack p := by
  induction ws generalizing s with
  | nil => rfl
  | cons w ws ih => rw [State.writeNodes_cons, writeNode_withPack, ih, State.writeNodes_cons]

theorem buildTree_ignoresPack : IgnoresPack buildTree := by
  intro s p
  have hleaves : leafSymbols (s.withPack p) = leafSymbols s := rfl
  by_cases h : leafSymbols s = []
  · rw [buildTree_empty h, buildTree_empty (hleaves.trans h)]
    rfl
  · have hwrites := writeNodes_withPack (buildWrites s) s.invalidateCodes p
    rw [buildTree_eq h, buildTree_eq (h ∘ hleaves.symm.trans)]
    exact congrArg (fun t : State => { t with
      root := BitVec.ofNat 9 (2 * (leafSymbols s).length - 2)
      nodeCnt := BitVec.ofNat 10 (2 * (leafSymbols s).length - 1)
      symCnt := BitVec.ofNat 32 (totalWeight s) }) hwrites

theorem visit_withPack (s : State) (p : Memory Byte) (fuel : Nat) (n : NodeIx) (v : Visited) :
    visit (s.withPack p) fuel n v = visit s fuel n v := by
  induction fuel generalizing n v with
  | zero => rfl
  | succ fuel ih =>
    by_cases hv : n.toNat ∈ v.nodes
    · rw [visit_visited hv, visit_visited hv]
    cases hi : (s.linkAt 0 n.toNat).internal with
    | true =>
      rw [visit_internal hv hi, visit_internal (s := s.withPack p) hv hi]
      simp only [ih, State.withPack_linkAt]
      rfl
    | false =>
      rw [visit_leaf hv hi, visit_leaf (s := s.withPack p) hv hi]
      rfl

theorem validTree_withPack (s : State) (p : Memory Byte) : validTree (s.withPack p) = validTree s := by
  simp only [validTree, visit_withPack, State.withPack_root, State.withPack_nodeCnt]

theorem walk_withPack (tree : State) (fuel : Nat) (n : NodeIx) (q l : Nat) (s : State) (p : Memory Byte) :
    walk (tree.withPack p) fuel n q l (s.withPack p) = (walk tree fuel n q l s).withPack p := by
  induction fuel generalizing n q l s with
  | zero => rfl
  | succ fuel ih =>
    simp only [walk, ih, State.withPack_linkAt, leafCode_withPack]
    split <;> rfl

theorem buildCodes_ignoresPack : IgnoresPack buildCodes := by
  intro s p
  by_cases hnil : s.root = nilIx
  · rw [buildCodes_nil hnil, buildCodes_nil (s := s.withPack p) hnil]
    rfl
  cases hroot : (s.linkAt rootRead s.root.toNat).internal with
  | true =>
    rw [buildCodes_internal hnil hroot, buildCodes_internal (s := s.withPack p) hnil hroot]
    exact walk_withPack s walkDepth s.root 0 0 s.clearCodes p
  | false =>
    rw [buildCodes_leaf hnil hroot, buildCodes_leaf (s := s.withPack p) hnil hroot]
    rfl

/-! ### The packer stores and does not read -/

section Packer

variable {k : Nat} {s t : State}

/-- The same store into two such memories leaves them apart at most where they were. -/
theorem OnlyByte.writePack (h : OnlyByte k s t) (i : Nat) (v : Byte) :
    OnlyByte k (s.writePack i v) (t.writePack i v) := by
  obtain ⟨p, rfl, hp⟩ := h
  refine OnlyByte.ite ⟨p.put i v, rfl, fun j hj => ?_⟩ ⟨p, rfl, hp⟩
  rw [Memory.look_put, Memory.look_put, hp j hj]

theorem OnlyByte.flushByte (h : OnlyByte k s t) : OnlyByte k (flushByte s) (flushByte t) := by
  have hstore := h.writePack s.packLen.toNat s.bwCur
  obtain ⟨p, rfl, -⟩ := h
  exact IgnoresPack.onlyByte
    (f := fun u => { u with packLen := s.packLen + 1#32, bwCur := 0#8, bwFree := 8#4 }) (fun _ _ => rfl) hstore

theorem OnlyByte.appendBit (h : OnlyByte k s t) (b : Bool) : OnlyByte k (appendBit s b) (appendBit t b) := by
  have hfill : OnlyByte k (fillSlot s b) (fillSlot t b) :=
    IgnoresPack.onlyByte (f := (fillSlot · b)) (fun _ _ => rfl) h
  obtain ⟨p, rfl, -⟩ := h
  exact hfill.flushByte.ite hfill

theorem OnlyByte.pushBits (h : OnlyByte k s t) (bits : List Bool) :
    OnlyByte k (pushBits s bits) (pushBits t bits) := by
  induction bits generalizing s t with
  | nil => exact h
  | cons b bits ih => exact ih (h.appendBit b)

theorem OnlyByte.finishStream (h : OnlyByte k s t) : OnlyByte k (finishStream s) (finishStream t) := by
  have hflush := IgnoresPack.onlyByte (f := fun u => { u with trail := s.bwFree.setWidth 3, bwFin := true })
    (fun _ _ => rfl) h.flushByte
  obtain ⟨p, rfl, hp⟩ := h
  exact hflush.ite ⟨p, rfl, hp⟩

end Packer

/-! ### Bodies that end alike -/

/-- The two bodies end alike but for byte `k` of PACK. -/
structure Ended.Alike (k : Nat) (e e' : Ended) : Prop where
  left : OnlyByte k e.left e'.left
  result : e'.result = e.result
  detail : e'.detail = e.detail
  trunc : e'.trunc = e.trunc

section Alike

variable {k : Nat} {s t : State} {e e' d d' : Ended}

theorem OnlyByte.done (h : OnlyByte k s t) : (Ended.done s).Alike k (.done t) := ⟨h, rfl, rfl, rfl⟩

theorem OnlyByte.raise (h : OnlyByte k s t) (code : Result) (detail : Byte) :
    (Ended.raise s code detail).Alike k (.raise t code detail) := ⟨h, rfl, rfl, rfl⟩

theorem Ended.Alike.ite {c : Prop} [Decidable c] (h : d.Alike k d') (h' : e.Alike k e') :
    (if c then d else e).Alike k (if c then d' else e') := by
  split
  · exact h
  · exact h'

/-- What follows a part that ends alike, on its completion and on its raise. -/
theorem Ended.Alike.ifOk {g g' : Ended} (h : e.Alike k e') (hok : d.Alike k d') (hraise : g.Alike k g') :
    (if e.result = .ok then d else g).Alike k (if e'.result = .ok then d' else g') := by
  rw [h.result]
  exact hok.ite hraise

theorem Ended.Alike.completed (h : e.Alike k e') (op : Byte) : OnlyByte k (e.completed op) (e'.completed op) := by
  obtain ⟨left, result, detail, trunc⟩ := h
  rw [Ended.completed, Ended.completed, result, detail, trunc]
  exact IgnoresPack.onlyByte (f := (State.complete · op e.result e.detail e.trunc)) (fun _ _ => rfl) left

theorem OnlyByte.appendBits (h : OnlyByte k s t) (bits : List Bool) :
    (appendBits s bits).Alike k (appendBits t bits) := by
  have hpush := h.pushBits bits
  obtain ⟨p, rfl, hp⟩ := h
  exact hpush.done.ite (OnlyByte.raise ⟨p, rfl, hp⟩ _ _)

theorem OnlyByte.wrbitsBody (h : OnlyByte k s t) (w : Nat) : (wrbitsBody w s).Alike k (wrbitsBody w t) := by
  have happ := h.appendBits (argBits s w)
  have hraise := h.raise
  obtain ⟨p, rfl, -⟩ := h
  exact (hraise _ _).ite ((hraise _ _).ite (happ.ifOk ⟨happ.left, happ.result, happ.detail, rfl⟩ happ))

theorem OnlyByte.putsymBody (h : OnlyByte k s t) (c : Byte) : (putsymBody c s).Alike k (putsymBody c t) := by
  have happ := h.appendBits (codeBits s c)
  have hraise := h.raise
  obtain ⟨p, rfl, -⟩ := h
  exact (hraise _ _).ite ((hraise _ _).ite happ)

theorem OnlyByte.finishBody (h : OnlyByte k s t) : (finishBody s).Alike k (finishBody t) := by
  have hdone := h.finishStream.done
  have hraise := h.raise
  obtain ⟨p, rfl, -⟩ := h
  exact (hraise _ _).ite ((hraise _ _).ite hdone)

theorem OnlyByte.packSymbols (h : OnlyByte k s t) (cs : List Byte) :
    (packSymbols cs s).Alike k (packSymbols cs t) := by
  induction cs generalizing s t with
  | nil => exact h.finishBody
  | cons c cs ih =>
    have hput := ih (h.pushBits (codeBits s c))
    have hraise := h.raise
    obtain ⟨p, rfl, -⟩ := h
    exact hput.ite (hraise _ _)

theorem encodeTree_ignoresPack : IgnoresPack encodeTree := fun s p => by
  rw [encodeTree, countInput_ignoresPack, buildTree_ignoresPack]
  rfl

/-- ENCODE packs from a fresh packer, so what PACK held before is not read (rule R125). -/
theorem OnlyByte.encodeBody (h : OnlyByte k s t) : (encodeBody s).Alike k (encodeBody t) := by
  have htree := encodeTree_ignoresPack.onlyByte h
  have htable := buildCodes_ignoresPack.onlyByte htree
  have hpacked := htable.packSymbols (inputSymbols (buildCodes (encodeTree s)) 1)
  have hempty := IgnoresPack.onlyByte (f := fun u => { u with bwFin := true }) (fun _ _ => rfl) htree
  have hstart := h.raise .lenRange Detail.inLenRange
  obtain ⟨p, rfl, -⟩ := h
  refine hstart.ite ?_
  dsimp only
  rw [encodeTree_ignoresPack, buildCodes_ignoresPack] at *
  generalize encodeTree s = t at *
  generalize buildCodes t = u at *
  exact hempty.done.ite ((htable.raise _ _).ite (hpacked.ifOk hpacked (htable.raise _ _)))

end Alike

/-! ### The reader reads significant bits alone -/

/-- With `p` for PACK the reader finds the same bit at every significant position. -/
def State.SameStream (s : State) (p : Memory Byte) : Prop :=
  ∀ t, OnlyReader s t → significant t = true → currentBit (t.withPack p) = currentBit t

theorem State.SameStream.trans {s t : State} {p : Memory Byte} (h : s.SameStream p) (only : OnlyReader s t) :
    t.SameStream p := fun u hu => h u (only.trans hu)

/-- Another value of the padding bits changes no significant bit (rule R100). -/
theorem sameStream_of_padding {s : State} {v : Byte}
    (hv : ∀ b, s.trail.toNat ≤ b → v.getLsbD b = (s.packAt (s.packLen.toNat - 1)).getLsbD b) :
    s.SameStream (s.pack.put (s.packLen.toNat - 1) v) := by
  intro t only hsig
  obtain ⟨pos, bit, cursor, out, rfl⟩ := only
  rw [significant_iff] at hsig
  dsimp only at hsig
  change ((Memory.look (s.pack.put (s.packLen.toNat - 1) v) pos.toNat).getD _).getLsbD bit.toNat =
    (s.packAt pos.toNat).getLsbD bit.toNat
  rw [Memory.look_put]
  by_cases hpos : pos.toNat = s.packLen.toNat - 1
  · rw [if_pos hpos, hpos]
    exact hv bit.toNat (by omega)
  · rw [if_neg hpos]
    rfl

section Reader

variable {s : State} {p : Memory Byte}

theorem advanceReader_ignoresPack : IgnoresPack advanceReader := fun s p => by
  rw [advanceReader_eq, advanceReader_eq]
  rfl

theorem moveCursor_withPack (s : State) (p : Memory Byte) (n : NodeIx) :
    moveCursor (s.withPack p) n = (moveCursor s n).withPack p := by
  rw [moveCursor, advanceReader_ignoresPack]
  rfl

theorem writeSymOut_withPack (s : State) (p : Memory Byte) (i : Nat) (c : Byte) :
    (s.withPack p).writeSymOut i c = (s.writeSymOut i c).withPack p := by
  rw [State.writeSymOut, State.writeSymOut, apply_ite (State.withPack · p)]
  rfl

theorem emitSymbol_withPack (s : State) (p : Memory Byte) (out : Nat) (c : Byte) :
    emitSymbol (s.withPack p) out c = (emitSymbol s out c).withPack p := by
  rw [emitSymbol, writeSymOut_withPack]
  rfl

/-- What decoding ends with, over other contents of PACK. -/
def decodedOver (p : Memory Byte) : Except Raised (State × Nat) → Except Raised (State × Nat) :=
  Except.map (Prod.map (State.withPack · p) id)

theorem endGeneral_withPack (cur : NodeIx) (out : Nat) :
    endGeneral cur out (s.withPack p) = decodedOver p (endGeneral cur out s) := by
  rw [endGeneral, endGeneral, apply_ite (decodedOver p)]
  rfl

theorem endDegenerate_withPack (out : Nat) :
    endDegenerate out (s.withPack p) = decodedOver p (endDegenerate out s) := by
  rw [endDegenerate, endDegenerate, apply_ite (decodedOver p)]
  rfl

theorem followBit_withPack (h : s.SameStream p) (hsig : significant s = true) (cur : NodeIx) :
    followBit (s.withPack p) cur = followBit s cur := by
  unfold followBit
  rw [h s (.refl s) hsig]
  rfl

/-- By induction on the bits read: each is significant, so it selects the same child (rules R100, R130). -/
theorem decodeGeneral_withPack (h : s.SameStream p) (fuel : Nat) (cur : NodeIx) (out : Nat) :
    decodeGeneral fuel cur out (s.withPack p) = decodedOver p (decodeGeneral fuel cur out s) := by
  induction fuel generalizing s cur out with
  | zero => exact endGeneral_withPack cur out
  | succ fuel ih =>
    by_cases hsig : significant s = true
    · have only := moveCursor_only s (followBit s cur)
      have hread := followBit_withPack h hsig cur
      simp only [decodeGeneral, significant_withPack, hsig, if_true, hread, bitRead_withPack,
        State.withPack_linkAt, State.withPack_symCap, State.withPack_root, moveCursor_withPack, emitSymbol_withPack,
        ih (h.trans only), ih (h.trans (only.trans (emitSymbol_only _ _ _)))]
      rw [apply_ite (decodedOver p), apply_ite (decodedOver p)]
      rfl
    · simp only [decodeGeneral, significant_withPack, hsig]
      exact endGeneral_withPack cur out

/-- As for an Internal root: each bit read is significant (rules R100, R131). -/
theorem decodeDegenerate_withPack (h : s.SameStream p) (c : Byte) (fuel out : Nat) :
    decodeDegenerate c fuel out (s.withPack p) = decodedOver p (decodeDegenerate c fuel out s) := by
  induction fuel generalizing s out with
  | zero => exact endDegenerate_withPack out
  | succ fuel ih =>
    by_cases hsig : significant s = true
    · have only := (advanceReader_only s).trans (writeSymOut_only _ out c)
      simp only [decodeDegenerate, significant_withPack, hsig, if_true, h s (.refl s) hsig, State.withPack_symCap,
        advanceReader_ignoresPack s p, writeSymOut_withPack, ih (h.trans only)]
      rw [apply_ite (decodedOver p), apply_ite (decodedOver p)]
      rfl
    · simp only [decodeDegenerate, significant_withPack, hsig]
      exact endDegenerate_withPack out

theorem decodeStream_withPack (h : s.SameStream p) :
    decodeStream (s.withPack p) = decodedOver p (decodeStream s) := by
  rw [decodeStream, decodeStream, apply_ite (decodedOver p), ← decodeGeneral_withPack h,
    ← decodeDegenerate_withPack h]
  rfl

/-- BRINIT restarts the reader over the same stream (rule R101). -/
theorem State.SameStream.readerInit (h : s.SameStream p) : (readerInit s).SameStream p := by
  rintro t ⟨pos, bit, cursor, out, rfl⟩ hsig
  exact h { s with brPos := pos, brBit := bit, brCursor := cursor, symOut := out } ⟨pos, bit, cursor, out, rfl⟩ hsig

theorem decodeBody_alike {k : Nat} (hp : ∀ j, j ≠ k → p.look j = s.pack.look j) (h : s.SameStream p) :
    (decodeBody s).Alike k (decodeBody (s.withPack p)) := by
  have hsame : OnlyByte k s (s.withPack p) := ⟨p, rfl, hp⟩
  have hfailed := IgnoresPack.onlyByte (f := decodeFailed) (fun _ _ => rfl) hsame
  have hinit := IgnoresPack.onlyByte (f := readerInit) (fun _ _ => rfl) hsame
  have hstream : decodeStream (readerInit (s.withPack p)) = decodedOver p (decodeStream (readerInit s)) :=
    decodeStream_withPack h.readerInit
  refine (hfailed.raise _ _).ite ((hfailed.raise _ _).ite (hinit.done.ite ?_))
  rw [validTree_withPack, hstream]
  refine (hfailed.raise _ _).ite ?_
  cases hd : decodeStream (readerInit s) with
  | error e => exact hfailed.raise _ _
  | ok r =>
    obtain ⟨_, _, _, _, he⟩ := decodeStream_only _ _ _ hd
    exact OnlyByte.done ⟨p, rfl, by rw [he]; exact hp⟩

theorem rdbitBody_alike {k : Nat} (hp : ∀ j, j ≠ k → p.look j = s.pack.look j) (h : s.SameStream p) :
    (rdbitBody s).Alike k (rdbitBody (s.withPack p)) := by
  have hsame : OnlyByte k s (s.withPack p) := ⟨p, rfl, hp⟩
  by_cases hrange : s.packCap < s.packLen.toNat
  · rw [rdbitBody_of_lenRange hrange, rdbitBody_of_lenRange (s := s.withPack p) hrange]
    exact hsame.raise _ _
  have hcap := not_lt.1 hrange
  by_cases hsig : significant s = true
  · rw [rdbitBody_of_significant hcap hsig, rdbitBody_of_significant (s := s.withPack p) hcap hsig,
      h s (.refl s) hsig]
    exact (IgnoresPack.onlyByte (f := fun t => { t with arg := (BitVec.ofBool (currentBit s)).setWidth 32 })
      (fun _ _ => rfl) (advanceReader_ignoresPack.onlyByte hsame)).done
  · rw [rdbitBody_of_end hcap hsig, rdbitBody_of_end (s := s.withPack p) hcap hsig]
    exact hsame.raise _ _

end Reader

/-! ### Every command -/

/-- Every command ends alike over contents of PACK that agree but for byte `k` and at every significant bit. -/
theorem bodyOf_alike {s : State} {p : Memory Byte} {k : Nat} (hp : ∀ j, j ≠ k → p.look j = s.pack.look j)
    (h : s.SameStream p) (i : Instr) : (bodyOf i s).Alike k (bodyOf i (s.withPack p)) := by
  have hsame : OnlyByte k s (s.withPack p) := ⟨p, rfl, hp⟩
  have htotal : totalWeight (s.withPack p) = totalWeight s := rfl
  cases i with
  | nop => exact hsame.done
  | clear => exact (IgnoresPack.onlyByte (f := clearBody) (fun _ _ => rfl) hsame).done
  | bwinit => exact (IgnoresPack.onlyByte (f := packerInit) (fun _ _ => rfl) hsame).done
  | brinit => exact (IgnoresPack.onlyByte (f := readerInit) (fun _ _ => rfl) hsame).done
  | fclr => exact (IgnoresPack.onlyByte (f := State.clearFreq) (fun _ _ => rfl) hsame).done
  | wrbits w => exact hsame.wrbitsBody w.toNat
  | putsym c => exact hsame.putsymBody c
  | finish => exact hsame.finishBody
  | encode => exact hsame.encodeBody
  | rdbit => exact rdbitBody_alike hp h
  | decode => exact decodeBody_alike hp h
  | fadd c =>
    exact (hsame.raise _ _).ite
      (IgnoresPack.onlyByte (f := fun s => s.writeFreq c (incremented s c)) (fun _ _ => rfl) hsame).done
  | fcount => exact (hsame.raise _ _).ite (countInput_ignoresPack.onlyByte hsame).done
  | build =>
    rw [bodyOf, bodyOf, buildBody, buildBody, htotal]
    exact (hsame.raise _ _).ite (buildTree_ignoresPack.onlyByte hsame).done
  | tcheck =>
    rw [bodyOf, bodyOf, tcheckBody, tcheckBody, validTree_withPack]
    exact (hsame.raise _ _).ite hsame.done
  | codes =>
    rw [bodyOf, bodyOf, codesBody, codesBody, validTree_withPack]
    exact (hsame.raise _ _).ite (buildCodes_ignoresPack.onlyByte hsame).done

/-- Settles O46: the reader meets the byte at its significant bits alone, and what a command stores into PACK comes
from elsewhere. -/
theorem paddingBitsAreNeverData : Obligations.PaddingBitsAreNeverData := by
  intro s v _ hv i t u ht hu
  rw [exec_eq] at ht hu
  cases ht
  cases hu
  have halike := bodyOf_alike (fun j hj => Memory.look_put_ne s.pack v hj) (sameStream_of_padding hv) i
  exact (halike.completed i.opcode).frame

end Sys2Proof.Machine
end

section
/-! FCLR, FCOUNT and BUILD: the counts, the nodes BUILD leaves, and which entries each merge takes (rules R105 to
R113). -/

namespace Sys2Proof.Machine

/-! ### The counters -/

/-- Settles O22: the body clears the table, whose every entry is then 0. -/
theorem fclrClearsEveryCounter : Obligations.FclrClearsEveryCounter :=
  fun s => ⟨_, rfl, rfl, fun c => clearFreq_look (s := s) c.isLt⟩

/-- Settles O24: the one check of FCOUNT, then the counting loop from a cleared table. -/
theorem fcountCountsTheInput : Obligations.FcountCountsTheInput := by
  intro s _
  refine ⟨fun h => ?_, fun h => ?_⟩ <;> rw [exec_eq]
  · rw [show bodyOf .fcount s = .raise s .lenRange Detail.inLenRange from if_pos h]
    rfl
  · obtain ⟨f, hf⟩ := countInput_only s
    rw [show bodyOf .fcount s = .done (countInput s) from if_neg (Nat.not_lt.2 h)]
    refine ⟨_, rfl, ?_, fun c => ?_⟩
    · simp only [Ended.completed, Ended.done_left, hf]
      rfl
    · rw [countOf_eq]
      exact countInput_look s c

/-! ### The nodes BUILD leaves -/

/-- The entry a write names stands as the write left it. -/
def State.Holds (t : State) (w : NodeWrite) : Prop :=
  t.nodeLink.look w.index = some w.link ∧ t.nodeWeight.look w.index = some w.weight

/-- A BUILD that completes with OK had a total that fits, and it completes with its tree (rule R112). -/
theorem build_ok {s t : State} (h : exec .build s = .next t) (hok : t.result = .ok) :
    totalWeight s < 2 ^ 32 ∧ t = (buildTree s).complete 0x33#8 .ok 0x00#8 false := by
  by_cases hfit : totalWeight s < 2 ^ 32
  · rw [exec_build_fits hfit] at h
    cases h
    exact ⟨hfit, rfl⟩
  · rw [exec_build_ovf (Nat.not_lt.1 hfit)] at h
    cases h
    cases hok

/-- No write of a BUILD is lost: each names an entry of its own (rule R110). -/
theorem buildTree_holds {s : State} (h : leafSymbols s ≠ []) {w : NodeWrite} (hw : w ∈ buildWrites s) :
    (buildTree s).Holds w := by
  have hk := leafSymbols_length_le s
  have hlt : w.index < 2 * (leafSymbols s).length - 1 :=
    List.mem_range.1 (buildWrites_indices s ▸ List.mem_map_of_mem hw)
  rw [buildTree_eq h]
  exact State.writeNodes_look (by rw [buildWrites_indices]; exact List.nodup_range) hw
    (by simp only [Config.nodeMax]; omega)

/-- The Leaf written at place `j` is that of the `j`-th leaf symbol (rule R110). -/
theorem leaf_mem_buildWrites {s : State} {j c : Nat} (h : (leafSymbols s)[j]? = some c) :
    ⟨j, NodeLink.leaf (BitVec.ofNat 8 c), s.freqAt 2 c⟩ ∈ buildWrites s :=
  List.mem_append_left _ (List.mem_map.2 ⟨(c, j), List.mk_mem_zipIdx_iff_getElem?.2 h, rfl⟩)

/-- No node from 2k−1 on is written (rule R110). -/
theorem buildTree_above {s : State} (h : leafSymbols s ≠ []) {i : Nat}
    (hi : 2 * (leafSymbols s).length - 1 ≤ i) : (buildTree s).SameNode s i := by
  rw [buildTree_eq h]
  refine State.writeNodes_other (s := s.invalidateCodes) fun w hw e => ?_
  have hlt := List.mem_range.1 (buildWrites_indices s ▸ List.mem_map_of_mem hw)
  omega

theorem buildTree_root {s : State} (h : leafSymbols s ≠ []) :
    (buildTree s).root.toNat = 2 * (leafSymbols s).length - 2 := by
  have hk := leafSymbols_length_le s
  rw [buildTree_eq h]
  exact Nat.mod_eq_of_lt (by omega)

theorem buildTree_nodeCnt {s : State} (h : leafSymbols s ≠ []) :
    (buildTree s).nodeCnt.toNat = 2 * (leafSymbols s).length - 1 := by
  have hk := leafSymbols_length_le s
  rw [buildTree_eq h]
  exact Nat.mod_eq_of_lt (by omega)

theorem buildTree_symCnt {s : State} (h : leafSymbols s ≠ []) (ht : totalWeight s < 2 ^ 32) :
    (buildTree s).symCnt.toNat = totalWeight s := by
  rw [buildTree_eq h]
  exact Nat.mod_eq_of_lt ht

/-- Settles O27: the writes of BUILD stand at the indices 0 to 2k−2, and nothing but its registers changes besides. -/
theorem buildAllocatesTheNodes : Obligations.BuildAllocatesTheNodes := by
  intro s ht h
  obtain ⟨link, weight, root, cnt, total, hframe⟩ := buildTree_frame s
  refine ⟨_, exec_build_fits ht, rfl, ?_, buildTree_root h, buildTree_nodeCnt h, buildTree_symCnt h ht,
    fun j c hc => buildTree_holds h (leaf_mem_buildWrites hc), fun i hi => buildTree_above h hi, ?_⟩ <;> rw [hframe]
  · rfl
  · rfl

/-- Settles O29: BUILD leaves the empty tree, or one stored tree with no node and no symbol twice. -/
theorem builtTreePassesTheCheck : Obligations.BuiltTreePassesTheCheck := by
  intro s t u ht hok hu
  obtain ⟨-, rfl⟩ := build_ok ht hok
  have hvalid : validTree ((buildTree s).complete 0x33#8 .ok 0x00#8 false) = 0#8 := by
    by_cases hleaf : leafSymbols s = []
    · exact validTree_of_nil (by rw [buildTree_empty hleaf]; rfl)
    · obtain ⟨T, hT, hroot, hnodes, hsyms⟩ := buildTree_stored hleaf
      exact validTree_of_stored hT hroot (buildTree_nodeCnt_le s)
        (fun n hn => List.mem_range.1 (hnodes.mem_iff.1 hn)) (hnodes.nodup_iff.2 List.nodup_range)
        (hsyms.nodup_iff.2 (leafBytes_nodup s))
  rw [(treeCheckFindsDefects _).1, if_pos hvalid] at hu
  cases hu
  rfl

/-! ### The queue of a BUILD

The queue `mergeLoop` works on is the one the tree it leaves tells of (`State.Queued`), merge after merge. -/

/-- The order of removeMin (rule R107). -/
def Removal (a b : QEntry) : Prop := a.weight < b.weight ∨ (a.weight = b.weight ∧ a.key < b.key)

/-- The `m`-th merge, as the tree `t` shows it: it took the two least entries of the queue, the first as LEFT and the
second as RIGHT, and its weight is their sum (rules R107, R109). -/
def State.MergesLeast (t : State) (k m : Nat) : Prop :=
  ∃ l r wl wr w, t.nodeLink.look (k + m) = some ⟨true, 0#8, l, r⟩ ∧ l ≠ r ∧
    t.Queued k m l.toNat ∧ t.Queued k m r.toNat ∧ t.QueuedBefore k l.toNat r.toNat ∧
    (∀ i, t.Queued k m i → i ≠ l.toNat → i ≠ r.toNat → t.QueuedBefore k r.toNat i) ∧
    t.nodeWeight.look l.toNat = some wl ∧ t.nodeWeight.look r.toNat = some wr ∧
    t.nodeWeight.look (k + m) = some w ∧ w.toNat = wl.toNat + wr.toNat

/-- `q` is the queue when the `m`-th merge of the tree `t` begins: in order, with the weights and keys of its nodes,
and holding the nodes made and not yet taken. The node made last is taken by no merge so far. -/
structure State.HasQueue (t : State) (k m : Nat) (q : List QEntry) : Prop where
  sorted : q.Pairwise Removal
  weight : ∀ e ∈ q, t.nodeWeight.look e.index = some (BitVec.ofNat 32 e.weight)
  fits : (q.map QEntry.weight).sum < 2 ^ 32
  key : ∀ e ∈ q, t.queueKey k e.index = e.key
  queued : ∀ i, i ∈ q.map QEntry.index ↔ t.Queued k m i
  taken : ∀ i, t.TakenBefore k m i → i + 1 < k + m

section Queue

variable {t : State} {k m : Nat} {x y : QEntry} {q : List QEntry}

theorem takenBefore_zero {i : Nat} : ¬t.TakenBefore k 0 i :=
  fun ⟨_, _, hm, _⟩ => Nat.not_lt_zero _ hm

/-- One merge takes its two children and no other node. -/
theorem takenBefore_succ {e : NodeLink} (h : t.nodeLink.look (k + m) = some e) (i : Nat) :
    t.TakenBefore k (m + 1) i ↔ t.TakenBefore k m i ∨ e.left.toNat = i ∨ e.right.toNat = i := by
  constructor
  · rintro ⟨m', e', hm, he', hi⟩
    rcases Nat.lt_succ_iff_lt_or_eq.1 hm with hlt | rfl
    · exact .inl ⟨m', e', hlt, he', hi⟩
    · rw [h] at he'
      cases he'
      exact .inr hi
  · rintro (⟨m', e', hm, he', hi⟩ | hi)
    · exact ⟨m', e', Nat.lt_succ_of_lt hm, he', hi⟩
    · exact ⟨m, e, Nat.lt_succ_self m, h, hi⟩

theorem State.HasQueue.queued_of_mem (h : t.HasQueue k m q) (hx : x ∈ q) : t.Queued k m x.index :=
  (h.queued _).1 (List.mem_map_of_mem hx)

theorem State.HasQueue.weightAt (h : t.HasQueue k m q) (hx : x ∈ q) : (t.weightAt x.index).toNat = x.weight := by
  have hle : x.weight ≤ (q.map QEntry.weight).sum := List.le_sum_of_mem (List.mem_map_of_mem hx)
  rw [State.weightAt, h.weight x hx, Option.getD_some, BitVec.toNat_ofNat,
    Nat.mod_eq_of_lt (hle.trans_lt h.fits)]

/-- The order of the entries is the order of the nodes they stand for. -/
theorem State.HasQueue.queuedBefore (h : t.HasQueue k m q) (hx : x ∈ q) (hy : y ∈ q) (hxy : Removal x y) :
    t.QueuedBefore k x.index y.index := by
  rw [State.QueuedBefore, h.weightAt hx, h.weightAt hy, h.key x hx, h.key y hy]
  exact hxy

/-- Two entries one before the other stand for two nodes. -/
theorem State.HasQueue.index_ne (h : t.HasQueue k m q) (hx : x ∈ q) (hy : y ∈ q) (hxy : Removal x y) :
    x.index ≠ y.index := by
  intro e
  have hb := h.queuedBefore hx hy hxy
  rw [State.QueuedBefore, e] at hb
  omega

/-- The keys of the queue are below that of the node the next merge makes (rule R107). -/
theorem State.HasQueue.key_lt (h : t.HasQueue k m q) (hx : x ∈ q) : x.key < Config.alphabet + m := by
  obtain ⟨hlt, -⟩ := h.queued_of_mem hx
  have hsym := ((t.linkAt 0 x.index).sym).isLt
  rw [← h.key x hx, State.queueKey, Config.alphabet]
  split <;> omega

/-- The write of the merge of `x` and `y` at `next`, its WEIGHT their exact sum (rules R109, R112). -/
def exactMerge (x y : QEntry) (next : Nat) : NodeWrite :=
  ⟨next, NodeLink.inner (BitVec.ofNat 9 x.index) (BitVec.ofNat 9 y.index), BitVec.ofNat 32 (x.weight + y.weight)⟩

/-- The index of an entry is a node index, which LEFT and RIGHT can hold. -/
theorem State.HasQueue.index_toNat (h : t.HasQueue k m q) (hbound : k + m ≤ 511) (hx : x ∈ q) :
    (BitVec.ofNat 9 x.index).toNat = x.index := by
  obtain ⟨hlt, -⟩ := h.queued_of_mem hx
  rw [BitVec.toNat_ofNat, Nat.mod_eq_of_lt (by omega)]

/-- The merge of the two entries at the head is a merge of the two least (rules R107, R109). -/
theorem State.HasQueue.mergesLeast (h : t.HasQueue k m (x :: y :: q)) (hbound : k + m ≤ 511)
    (hw : t.Holds (exactMerge x y (k + m))) : t.MergesLeast k m := by
  have hx : x ∈ x :: y :: q := by simp
  have hy : y ∈ x :: y :: q := by simp
  obtain ⟨hxlt, hylt⟩ := List.pairwise_cons.1 h.sorted
  have hxy := hxlt y (by simp)
  have hsum := h.fits
  simp only [List.map_cons, List.sum_cons] at hsum
  refine ⟨_, _, BitVec.ofNat 32 x.weight, BitVec.ofNat 32 y.weight, BitVec.ofNat 32 (x.weight + y.weight), hw.1,
    fun e => h.index_ne hx hy hxy ?_, ?_⟩
  · rw [← h.index_toNat hbound hx, e, h.index_toNat hbound hy]
  rw [h.index_toNat hbound hx, h.index_toNat hbound hy]
  refine ⟨h.queued_of_mem hx, h.queued_of_mem hy, h.queuedBefore hx hy hxy, fun i hi hix hiy => ?_,
    h.weight x hx, h.weight y hy, hw.2, ?_⟩
  · obtain ⟨z, hz, rfl⟩ := List.mem_map.1 ((h.queued i).2 hi)
    have hzq : z ∈ q := by
      rcases List.mem_cons.1 hz with rfl | hz'
      · exact absurd rfl hix
      · exact (List.mem_cons.1 hz').resolve_left fun e => hiy (e ▸ rfl)
    exact h.queuedBefore hy hz ((List.pairwise_cons.1 hylt).1 z hzq)
  · simp only [BitVec.toNat_ofNat]
    omega

/-- The merge takes the nodes of the two entries at the head. -/
theorem State.HasQueue.taken_succ (h : t.HasQueue k m (x :: y :: q)) (hbound : k + m ≤ 511)
    (hw : t.Holds (exactMerge x y (k + m))) (i : Nat) :
    t.TakenBefore k (m + 1) i ↔ t.TakenBefore k m i ∨ x.index = i ∨ y.index = i := by
  have hiff := takenBefore_succ hw.1 i
  simp only [exactMerge, NodeLink.inner] at hiff
  rwa [h.index_toNat hbound (by simp), h.index_toNat hbound (by simp)] at hiff

/-- After a merge the new node is queued, and of the others those that stood behind the first two. -/
theorem State.HasQueue.queued_succ (h : t.HasQueue k m (x :: y :: q)) (hbound : k + m ≤ 511)
    (hw : t.Holds (exactMerge x y (k + m))) (i : Nat) :
    t.Queued k (m + 1) i ↔ i = k + m ∨ i ∈ q.map QEntry.index := by
  have hx : x ∈ x :: y :: q := by simp
  have hy : y ∈ x :: y :: q := by simp
  obtain ⟨hxlt, hsorted⟩ := List.pairwise_cons.1 h.sorted
  obtain ⟨hylt, -⟩ := List.pairwise_cons.1 hsorted
  rw [State.Queued, h.taken_succ hbound hw, not_or, not_or]
  constructor
  · rintro ⟨hlt, hnot, hix, hiy⟩
    by_cases hi : i = k + m
    · exact .inl hi
    · have hmem := (h.queued i).2 ⟨by omega, hnot⟩
      rw [List.map_cons, List.map_cons, List.mem_cons, List.mem_cons] at hmem
      exact .inr ((hmem.resolve_left (Ne.symm hix)).resolve_left (Ne.symm hiy))
  · rintro (rfl | hi)
    · refine ⟨by omega, fun ht => ?_, (h.queued_of_mem hx).1.ne, (h.queued_of_mem hy).1.ne⟩
      have := h.taken _ ht
      omega
    · obtain ⟨e, he, rfl⟩ := List.mem_map.1 hi
      have heq : e ∈ x :: y :: q := by simp [he]
      obtain ⟨hlt, hnot⟩ := h.queued_of_mem heq
      exact ⟨by omega, hnot, h.index_ne hx heq (hxlt e (by simp [he])), h.index_ne hy heq (hylt e he)⟩

/-- After a merge the queue is the one with the two entries gone and the new node in (rules R107, R112). -/
theorem State.HasQueue.step (h : t.HasQueue k m (x :: y :: q)) (hbound : k + m ≤ 511)
    (hw : t.Holds (exactMerge x y (k + m))) :
    t.HasQueue k (m + 1) (enqueue ⟨x.weight + y.weight, Config.alphabet + m, k + m⟩ q) := by
  have hq : ∀ e ∈ q, e ∈ x :: y :: q := fun e he => by simp [he]
  have hperm := enqueue_perm ⟨x.weight + y.weight, Config.alphabet + m, k + m⟩ q
  have hsorted : q.Pairwise Removal := h.sorted.of_cons.of_cons
  refine ⟨(queueKeepsTheRemovalOrder q _ hsorted fun e he => (h.key_lt (hq e he)).ne).1, fun e he => ?_, ?_,
    fun e he => ?_, fun i => ?_, fun i hi => ?_⟩
  · rcases List.mem_cons.1 (hperm.mem_iff.1 he) with rfl | he
    · exact hw.2
    · exact h.weight e (hq e he)
  · rw [(hperm.map _).sum_eq]
    simpa [Nat.add_assoc] using h.fits
  · rcases List.mem_cons.1 (hperm.mem_iff.1 he) with rfl | he
    · simp only [State.queueKey, Config.alphabet]
      rw [if_neg (by omega), Nat.add_sub_cancel_left]
    · exact h.key e (hq e he)
  · rw [h.queued_succ hbound hw, (hperm.map _).mem_iff, List.map_cons, List.mem_cons]
  · have hlt : i < k + m := by
      rcases (h.taken_succ hbound hw i).1 hi with ht | rfl | rfl
      · exact Nat.lt_of_succ_lt (h.taken i ht)
      · exact (h.queued_of_mem (by simp)).1
      · exact (h.queued_of_mem (by simp)).1
    omega

/-- The one entry left is the node made last, the root (rule R110). -/
theorem State.HasQueue.last (h : t.HasQueue k m [x]) : x.index = k + m - 1 := by
  obtain ⟨hlt, -⟩ := h.queued_of_mem (x := x) (by simp)
  have hmem := (h.queued (k + m - 1)).2 ⟨by omega, fun ht => by have := h.taken _ ht; omega⟩
  exact (by simpa using hmem : k + m - 1 = x.index).symm

/-- Every merge of the loop takes the two least entries, and the last node weighs as much as the whole queue. -/
theorem State.HasQueue.mergeWrites_takesLeast {fuel : Nat} (h : t.HasQueue k m q) (hne : q ≠ [])
    (hfuel : q.length ≤ fuel)
    (hbound : k + m + q.length ≤ 512)
    (hw : ∀ w ∈ mergeWrites (fun _ sum => BitVec.ofNat 32 sum) fuel q (k + m) m, t.Holds w) :
    (∀ m', m ≤ m' → m' + 1 < m + q.length → t.MergesLeast k m') ∧
      t.nodeWeight.look (k + m + q.length - 2) = some (BitVec.ofNat 32 (q.map QEntry.weight).sum) := by
  induction fuel generalizing q m with
  | zero => exact absurd (List.length_eq_zero_iff.1 (Nat.le_zero.1 hfuel)) hne
  | succ fuel ih =>
    match q with
    | [] => exact absurd rfl hne
    | [x] =>
      refine ⟨fun m' hm hm' => absurd hm' (by simp; omega), ?_⟩
      have hlook := h.weight x (by simp)
      rw [h.last] at hlook
      simpa using hlook
    | x :: y :: q =>
      simp only [List.length_cons] at hfuel hbound
      have hfirst : t.Holds (exactMerge x y (k + m)) := hw _ (List.mem_cons_self ..)
      have hlen := enqueue_length ⟨x.weight + y.weight, Config.alphabet + m, k + m⟩ q
      have hperm := (enqueue_perm ⟨x.weight + y.weight, Config.alphabet + m, k + m⟩ q).map QEntry.weight
      obtain ⟨hmerges, hroot⟩ := ih (h.step (by omega) hfirst) (by rw [← List.length_pos_iff]; omega) (by omega)
        (by omega) fun w hmem => hw w (List.mem_cons_of_mem _ hmem)
      refine ⟨fun m' hm hm' => ?_, ?_⟩
      · rcases Nat.eq_or_lt_of_le hm with rfl | hm
        · exact h.mergesLeast (by omega) hfirst
        · exact hmerges m' hm (by rw [List.length_cons, List.length_cons] at hm'; omega)
      · rw [hperm.sum_eq, hlen] at hroot
        simp only [List.map_cons, List.sum_cons, List.length_cons] at hroot ⊢
        rw [← Nat.add_assoc x.weight, ← hroot]
        congr 1
        omega

end Queue

/-! ### The queue of the leaves -/

/-- Entries put into the queue one after the other stand in the order of removeMin, if no key comes twice. -/
theorem foldl_enqueue_sorted {α : Type} (f : α → QEntry) (leaves : List α) {q : List QEntry}
    (hq : q.Pairwise Removal) (hkeys : ((q ++ leaves.map f).map QEntry.key).Nodup) :
    (leaves.foldl (fun q x => enqueue (f x) q) q).Pairwise Removal := by
  induction leaves generalizing q with
  | nil => exact hq
  | cons x leaves ih =>
    have hkeys' : ((enqueue (f x) q ++ leaves.map f).map QEntry.key).Nodup := by
      refine ((((enqueue_perm (f x) q).append_right _).trans ?_).map _).nodup_iff.2 hkeys
      exact List.perm_middle.symm
    refine ih (queueKeepsTheRemovalOrder q (f x) hq fun y hy e => ?_).1 hkeys'
    rw [List.map_append, List.nodup_append] at hkeys
    exact hkeys.2.2 _ (List.mem_map_of_mem hy) _ (by simp) e

theorem leafQueue_sorted (s : State) : (leafQueue s).Pairwise Removal := by
  refine foldl_enqueue_sorted (fun x => ⟨(s.freqAt 3 x.1).toNat, x.1, x.2⟩) (leafSymbols s).zipIdx .nil ?_
  rw [List.nil_append, List.map_map]
  have hkeys : (leafSymbols s).zipIdx.map Prod.fst = leafSymbols s := List.zipIdx_map_fst 0 _
  exact hkeys.symm ▸ leafSymbols_nodup s

/-- An entry of the first queue is that of the leaf symbol at its index. -/
theorem mem_leafQueue {s : State} {e : QEntry} (he : e ∈ leafQueue s) :
    (leafSymbols s)[e.index]? = some e.key ∧ e.weight = (s.freqAt 3 e.key).toNat := by
  obtain ⟨⟨c, j⟩, hx, rfl⟩ := List.mem_map.1 ((leafQueue_perm s).mem_iff.1 he)
  exact ⟨List.mk_mem_zipIdx_iff_getElem?.1 hx, rfl⟩

/-- The merges of a BUILD begin with the queue of its leaves (rule R112). -/
theorem hasQueue_leafQueue {s t : State} (hw : s.FreqWritten) (ht : totalWeight s < 2 ^ 32)
    (hnodes : ∀ w ∈ buildWrites s, t.Holds w) : t.HasQueue (leafSymbols s).length 0 (leafQueue s) := by
  refine ⟨leafQueue_sorted s, fun e he => ?_, by rwa [leafQueue_total hw], fun e he => ?_, fun i => ?_,
    fun i hi => absurd hi takenBefore_zero⟩
  · obtain ⟨hleaf, hweight⟩ := mem_leafQueue he
    have hc := (mem_leafSymbols.1 (List.mem_of_getElem? hleaf)).1
    rw [(hnodes _ (leaf_mem_buildWrites hleaf)).2, hweight, BitVec.ofNat_toNat, BitVec.setWidth_eq,
      freqAt_read (hw _ hc) 2 3]
  · obtain ⟨hleaf, -⟩ := mem_leafQueue he
    have hc := (mem_leafSymbols.1 (List.mem_of_getElem? hleaf)).1
    obtain ⟨hlt, -⟩ := List.getElem?_eq_some_iff.1 hleaf
    rw [State.queueKey, if_pos hlt, linkAt_of_look (hnodes _ (leaf_mem_buildWrites hleaf)).1]
    exact Nat.mod_eq_of_lt hc
  · rw [(leafQueue_indices s).mem_iff, List.mem_range]
    exact ⟨fun hi => ⟨hi, takenBefore_zero⟩, fun hi => hi.1⟩

/-- Settles O28: the loop keeps the queue that the tree it leaves tells of, and its head is what a merge takes. -/
theorem buildKeepsTheWeightInvariant : Obligations.BuildKeepsTheWeightInvariant := by
  intro s t hwritten hleaf hbuild hok
  obtain ⟨ht, rfl⟩ := build_ok hbuild hok
  have hlen := leafQueue_length s
  have hk := leafSymbols_length_le s
  have hnodes : ∀ w ∈ buildWrites s, ((buildTree s).complete 0x33#8 .ok 0x00#8 false).Holds w :=
    fun w hw => buildTree_holds hleaf hw
  obtain ⟨hmerges, hroot⟩ := (hasQueue_leafQueue hwritten ht hnodes).mergeWrites_takesLeast
    (by rw [← List.length_pos_iff, hlen]; exact List.length_pos_iff.2 hleaf) hlen.le (by omega)
    fun w hw => hnodes w (by rw [buildWrites_exact hwritten ht]; exact List.mem_append_right _ hw)
  refine ⟨fun m hm => hmerges m m.zero_le (by omega), BitVec.ofNat 32 (totalWeight s), ?_, Nat.mod_eq_of_lt ht⟩
  rw [leafQueue_total hwritten, hlen] at hroot
  rw [← hroot, State.complete_root, buildTree_root hleaf]
  congr 1
  omega

end Sys2Proof.Machine
end

section
/-! ENCODE of empty input, and what its raises leave (rules R124, R125). -/

namespace Sys2Proof.Machine

variable {s : State}

/-- Every count of empty input is 0 (rule R111). -/
theorem countInput_look_empty (h : s.inLen = 0#32) (c : Byte) :
    (countInput s).freq.look c.toNat = some 0#32 := by
  have hin : inputSymbols s 0 = [] := List.length_eq_zero_iff.1 (by rw [inputSymbols_length, h]; rfl)
  rw [countInput, hin]
  exact clearFreq_look c.isLt

theorem buildCodes_root (s : State) : (buildCodes s).root = s.root := by
  obtain ⟨_, _, _, h⟩ := buildCodes_only s
  rw [h]

/-- Codes of the counted symbols that do not fit raise before anything is packed, be the input written or not. -/
theorem encodeBody_ovf (hlen : s.inLen.toNat ≤ s.symCap) (hne : s.inLen ≠ 0#32)
    (hovf : s.packCap < (s.codedLength (buildCodes (encodeTree s)) + 7) / 8) :
    encodeBody s = .raise (buildCodes (encodeTree s)) .packOvf Detail.none := by
  obtain ⟨_, _, _, _, _, _, _, _, hu⟩ := encodeTable_frame s
  have hcap : (buildCodes (encodeTree s)).packCap = s.packCap := by rw [hu]; rfl
  rw [encodeBody, if_neg (Nat.not_lt.2 hlen)]
  dsimp only
  rw [if_neg (encodeTree_root_ne_nil hne), encodedBits_eq, hcap, if_pos hovf]

/-- Wherever ENCODE meets PACK_OVF, it has built a tree and raises from the code table of it, the packer fresh. -/
theorem encodeBody_packOvf (h : (encodeBody s).result = .packOvf) :
    (encodeTree s).root ≠ nilIx ∧
      encodeBody s = .raise (buildCodes (encodeTree s)) .packOvf Detail.none := by
  unfold encodeBody at h ⊢
  split at h
  · cases h
  next hlen =>
  dsimp only at h ⊢
  split at h
  · cases h
  next hroot =>
  refine ⟨hroot, ?_⟩
  rw [if_neg hlen, if_neg hroot]
  split at h
  · next hovf => rw [if_pos hovf]
  next hfit =>
  split at h
  · next hok => rw [hok] at h; cases h
  · next herr => rw [if_neg hfit, if_neg herr]

/-- Settles O36: the empty tree ends ENCODE before CODES; a PACK_OVF leaves the table, which `encodeTable_frame`
describes. -/
theorem encodeOfNothingAndItsRaises : Obligations.EncodeOfNothingAndItsRaises := by
  intro s
  refine ⟨fun hempty => ⟨_, exec_encode_empty hempty, ?_, ?_⟩, fun hlong => ?_, fun hlen hne hovf => ?_,
    fun t hexec hresult => ?_⟩
  · obtain ⟨_, hf⟩ := countInput_only s
    rw [encodeTree, buildTree_empty (leafSymbols_countInput_nil hempty), hf]
    rfl
  · rw [encodeTree, buildTree_empty (leafSymbols_countInput_nil hempty)]
    exact countInput_look_empty hempty
  · rw [exec_eq, bodyOf, encodeBody_lenRange hlong]
    rfl
  · rw [exec_eq, bodyOf, encodeBody_ovf hlen hne hovf]
    exact ⟨_, rfl, rfl⟩
  · rw [exec_eq, bodyOf] at hexec
    cases hexec
    obtain ⟨hroot, hbody⟩ := encodeBody_packOvf hresult
    rw [hbody]
    refine ⟨rfl, ?_⟩
    rw [← buildCodes_root] at hroot
    obtain ⟨_, _, _, _, _, _, _, _, htable⟩ := encodeTable_frame s
    rw [htable] at hroot ⊢
    exact ⟨fun c => countOf_eq s c ▸ countInput_look s c, rfl, rfl, rfl, rfl, rfl, rfl, rfl, hroot, rfl⟩

end Sys2Proof.Machine
end

section
/-! DECODE: its checks in order, the streams it can finish and those it cannot, and the entries of SYM_OUT it leaves
alone (rules R127 to R133). -/

namespace Sys2Proof.Machine

variable {s t : State}

/-! ### The checks of DECODE -/

theorem decodeBody_of_lenRange (h : s.packCap < s.packLen.toNat) :
    decodeBody s = .raise (decodeFailed s) .lenRange Detail.packLenRange := if_pos h

theorem decodeBody_of_trailNoData (hcap : s.packLen.toNat ≤ s.packCap) (h : s.packLen = 0#32 ∧ s.trail ≠ 0#3) :
    decodeBody s = .raise (decodeFailed s) .malformed Detail.trailNoData := by
  rw [decodeBody, if_neg (Nat.not_lt.2 hcap), if_pos h]

section Checked

variable (hcap : s.packLen.toNat ≤ s.packCap) (hdata : s.packLen ≠ 0#32 ∨ s.trail = 0#3)

include hcap hdata

/-- An invalid tree is not the empty one, which is valid (rule R116). -/
theorem decodeBody_of_invalid (h : validTree s ≠ Detail.none) :
    decodeBody s = .raise (decodeFailed s) .malformed (validTree s) := by
  rw [decodeBody, if_neg (Nat.not_lt.2 hcap), if_neg (not_and_or.2 (hdata.imp_right not_not_intro))]
  dsimp only
  rw [if_neg fun hnil => h (validTree_of_nil hnil), if_pos h]

theorem decodeBody_of_error {code : Result} {detail : Byte} (hne : s.root ≠ nilIx)
    (hvalid : validTree s = Detail.none) (h : decodeStream (readerInit s) = .error (code, detail)) :
    decodeBody s = .raise (decodeFailed s) code detail := by
  rw [decodeBody, if_neg (Nat.not_lt.2 hcap), if_neg (not_and_or.2 (hdata.imp_right not_not_intro))]
  dsimp only
  rw [if_neg hne, if_neg (not_not_intro hvalid), h]

end Checked

theorem decode_reports {u : State} {code : Result} {detail : Byte} (hexec : exec .decode s = .next t)
    (h : decodeBody s = .raise u code detail) : t.result = code ∧ t.detail = detail := by
  rw [exec_of_raise (i := .decode) h] at hexec
  cases hexec
  exact ⟨rfl, rfl⟩

/-- Settles O40: the empty tree ends DECODE with the reader at the start. -/
theorem decodeOfTheEmptyTree : Obligations.DecodeOfTheEmptyTree := by
  intro s hnil hcap hdata
  rw [exec_decode_empty hcap hdata hnil, readerInit, hnil]

/-- Settles O43: the checks one by one, and the one state every raise leaves. -/
theorem whenDecodeRaises : Obligations.WhenDecodeRaises := by
  intro s t hexec
  refine ⟨fun h => decode_reports hexec (decodeBody_of_lenRange h),
    fun hcap h0 ht => decode_reports hexec (decodeBody_of_trailNoData hcap ⟨h0, ht⟩),
    fun hcap hdata h => decode_reports hexec (decodeBody_of_invalid hcap hdata h), fun hraised => ?_⟩
  rw [exec_eq, bodyOf] at hexec
  cases hexec
  rw [(decodeBody_settled s).eq_raise hraised]
  exact ⟨rfl, _, _, _, _, rfl⟩

/-! ### Streams that DECODE finishes -/

/-- DECODE of a stream of a stored tree's codes puts out their symbols and reads to the last bit (rules R129 to
R131). -/
theorem exec_decode_codes {T : CodeTree} (hT : T.StoredIn s.nodeLink) (hroot : T.root = s.root)
    (hcap : s.packLen.toNat ≤ s.packCap) (hdata : s.packLen ≠ 0#32 ∨ s.trail = 0#3) (hne : s.root ≠ nilIx)
    (hvalid : validTree s = Detail.none) {coded : List (List Bool × Byte)} (hp : ∀ x ∈ coded, x ∈ T.codes)
    (hs : s.significantBits = coded.flatMap Prod.fst) (hout : coded.length ≤ s.symCap)
    (hcnt : ∀ n c, T = .leaf n c → coded.length = s.symCnt.toNat) :
    ∃ t, exec .decode s = .next t ∧ t.result = .ok ∧ t.outLen = BitVec.ofNat 32 coded.length ∧
      t.brCursor = s.root ∧ t.readPos = s.significantBits.length ∧
      ∀ i, i < coded.length → t.symOut.look i = coded[i]?.map Prod.snd := by
  have hrest := readerInit_restBits s
  obtain ⟨u, hu, hdec, hcursor⟩ := decodeStream_codes (s := readerInit s) hT hroot hp (hrest.trans hs) rfl hout hcnt
  rw [hrest] at hdec
  refine ⟨_, exec_decode_ok hcap hdata hne hvalid hu, rfl, rfl, hcursor, hdec.readPos.trans ?_, fun i hi => ?_⟩
  · exact Nat.zero_add _
  · refine (hdec.symOut i).trans ?_
    rw [if_pos ⟨i.zero_le, by rw [List.length_map]; omega⟩, List.getElem?_map]
    rfl

/-- Settles O42: the tree is stored, its codes are the paths, and their symbols are put out. -/
theorem decodeFollowsThePaths : Obligations.DecodeFollowsThePaths := by
  intro s coded hcap hdata hvalid hne hw hi hpaths hs hout hsymCap
  obtain ⟨T, hroot, hT, -, -⟩ := stored_of_validTree hvalid hne hw
  have hnode := (CodeTree.length_pos_of_internal hT (hroot ▸ hi)).2
  have hcodes : T.codes = T.paths := by
    cases T with
    | leaf n c => exact absurd rfl (hnode n c)
    | node n l r => rfl
  obtain ⟨t, hexec, hok, hlen, hcursor, hpos, hsyms⟩ := exec_decode_codes hT hroot hcap hdata hne hvalid
    (fun x hx => hcodes ▸ (hT.isPath_iff hroot x.1 x.2).1 (hpaths x hx)) hs hout fun n c e => absurd e (hnode n c)
  refine ⟨t, hexec, hok, ?_, hcursor, hpos, hsyms⟩
  rw [hlen, BitVec.toNat_ofNat, Nat.mod_eq_of_lt (by omega)]

/-- Settles O41: the tree is its one Leaf, whose code is the bit 0. -/
theorem decodeOfASingleLeaf : Obligations.DecodeOfASingleLeaf := by
  intro s e hcap hdata hcnt hroot he hi hs hout
  have hT : (CodeTree.leaf s.root e.sym).StoredIn s.nodeLink := ⟨e, he, hi, rfl⟩
  have hlen : (List.replicate s.symCnt.toNat ([false], e.sym)).length = s.symCnt.toNat := List.length_replicate
  obtain ⟨t, hexec, hok, hout', hcursor, hpos, hsyms⟩ := exec_decode_codes hT rfl hcap hdata
    (root_ne_nil hcnt hroot) (validTree_of_leafRoot hcnt hroot (by rw [linkAt_of_look he, hi]))
    (coded := List.replicate s.symCnt.toNat ([false], e.sym))
    (fun x hx => List.mem_singleton.2 (List.eq_of_mem_replicate hx)) (by
      rw [hs, List.flatMap_replicate, ← List.replicate_one (a := false), List.flatten_replicate_replicate,
        Nat.mul_one])
    (hlen.le.trans hout) fun _ _ _ => hlen
  rw [hlen] at hout' hsyms
  refine ⟨t, hexec, hok, hout'.trans (by simp), hcursor, hpos, fun i h => (hsyms i h).trans ?_⟩
  rw [List.getElem?_replicate, if_pos h]
  rfl

/-! ### Streams that end or overflow -/

theorem decodeStream_of_internal (h : (s.linkAt rootRead s.root.toNat).internal = true) :
    decodeStream s = decodeGeneral (8 * s.packLen.toNat) s.root 0 s := if_pos h

theorem decodeStream_of_leaf (h : (s.linkAt rootRead s.root.toNat).internal = false) :
    decodeStream s =
      decodeDegenerate (s.linkAt rootRead s.root.toNat).sym (8 * s.packLen.toNat) 0 s :=
  if_neg (Bool.not_eq_true _ ▸ h)

theorem restBits_length_le (s : State) : s.restBits.length ≤ 8 * s.packLen.toNat := by
  rw [State.restBits, List.length_drop, significantBits_length]
  omega

theorem decodeGeneral_end (h : s.restBits = []) (fuel : Nat) (cur : NodeIx) (out : Nat) :
    decodeGeneral fuel cur out s = endGeneral cur out s := by
  have hno : ¬ significant s = true := by rw [significant_iff_restBits, h]; simp
  cases fuel with
  | zero => rfl
  | succ fuel => rw [decodeGeneral, if_neg hno]

theorem decodeDegenerate_end (h : s.restBits = []) (c : Byte) (fuel out : Nat) :
    decodeDegenerate c fuel out s = endDegenerate out s := by
  have hno : ¬ significant s = true := by rw [significant_iff_restBits, h]; simp
  cases fuel with
  | zero => rfl
  | succ fuel => rw [decodeDegenerate, if_neg hno]

theorem decodeGeneral_outOvf {fuel : Nat} {cur : NodeIx} (h : significant s = true)
    (hi : (s.linkAt (bitRead s) (followBit s cur).toNat).internal = false) :
    decodeGeneral (fuel + 1) cur s.symCap s = .error (.outOvf, Detail.none) := by
  simp [decodeGeneral, h, hi]

/-- Whole paths at the head of a stream put out their symbols and end at the root (rule R130). -/
theorem decodeGeneral_leadingPaths {T : CodeTree} (hpos : ∀ x ∈ T.paths, x.1 ≠ [])
    {coded : List (List Bool × Byte)} {rest : List Bool} {s : State} (hT : T.StoredIn s.nodeLink)
    (hroot : T.root = s.root) (hp : ∀ x ∈ coded, x ∈ T.paths) (hs : s.restBits = coded.flatMap Prod.fst ++ rest)
    {out : Nat} (hout : out + coded.length ≤ s.symCap) (fuel : Nat) :
    ∃ t, Decoded s t out (coded.flatMap Prod.fst) (coded.map Prod.snd) ∧
      decodeGeneral (fuel + (coded.flatMap Prod.fst).length) s.root out s =
        decodeGeneral fuel s.root (out + coded.length) t := by
  induction coded generalizing s out with
  | nil => exact ⟨s, .refl s out, rfl⟩
  | cons x coded ih =>
    rw [List.flatMap_cons, List.append_assoc] at hs
    rw [List.length_cons] at hout
    have hx := hp x (by simp)
    obtain ⟨t, hdec, -, heq⟩ := decodeGeneral_path hT hx (hpos x hx) hs (by omega : out < s.symCap)
      (fuel + (coded.flatMap Prod.fst).length)
    obtain ⟨u, hdecu, hequ⟩ := ih (s := t) (out := out + 1) (hdec.only.nodeLink ▸ hT)
      (hroot.trans hdec.only.root.symm) (fun y hy => hp y (by simp [hy])) (hdec.restBits hs)
      (by rw [hdec.only.symCap]; omega)
    rw [hdec.only.root] at hequ
    rw [hroot] at heq
    refine ⟨u, hdec.trans hdecu, ?_⟩
    rw [List.flatMap_cons, List.length_append, Nat.add_comm x.1.length, ← Nat.add_assoc, heq, hequ,
      List.length_cons, Nat.add_assoc, Nat.add_comm 1]

/-- Zeros at the head of a single Leaf's stream put out its symbol once each (rule R131). -/
theorem decodeDegenerate_leadingZeros {c : Byte} {n : Nat} {rest : List Bool} {s : State}
    (hs : s.restBits = List.replicate n false ++ rest) {out : Nat} (hout : out + n ≤ s.symCap) (fuel : Nat) :
    ∃ t, Decoded s t out (List.replicate n false) (List.replicate n c) ∧
      decodeDegenerate c (fuel + n) out s = decodeDegenerate c fuel (out + n) t := by
  induction n generalizing s out with
  | zero => exact ⟨s, .refl s out, rfl⟩
  | succ n ih =>
    rw [List.replicate_succ, List.cons_append] at hs
    obtain ⟨hsig, hcur, -⟩ := restBits_cons hs
    have hlt : out < s.symCap := by omega
    have hdec : Decoded s ((advanceReader s).writeSymOut out c) out [false] [c] :=
      Decoded.emit hsig hlt c false ((advanceReader_only s).trans (writeSymOut_only _ out c))
        (by simp [State.readPos]) (by simp [State.writeSymOut_symOut, hlt])
    obtain ⟨u, hdecu, hequ⟩ := ih (hdec.restBits hs) (out := out + 1) (by rw [hdec.only.symCap]; omega)
    refine ⟨u, hdec.trans hdecu, ?_⟩
    rw [← Nat.add_assoc, decodeDegenerate, if_pos hsig, hcur, if_neg (by simp), if_neg (Nat.ne_of_lt hlt), hequ,
      Nat.add_assoc, Nat.add_comm 1]

/-! ### Inside a code -/

/-- What bits lead to before the last of them is an Internal node (rule R72). -/
theorem descend_concat {n m : NodeIx} {bits : List Bool} {b : Bool} (h : s.descend n (bits ++ [b]) = some m) :
    ∃ k, s.descend n bits = some k ∧ (s.linkAt 0 k.toNat).internal = true ∧
      (if b then (s.linkAt 0 k.toNat).right else (s.linkAt 0 k.toNat).left) = m := by
  rw [descend_append] at h
  obtain ⟨k, hk, h⟩ := Option.bind_eq_some_iff.1 h
  rw [State.descend] at h
  split at h
  · next hi => exact ⟨k, hk, hi, Option.some.inj h⟩
  · cases h

namespace CodeTree

theorem nodes_eq_cons (T : CodeTree) : T.nodes = T.root.toNat :: T.nodes.tail := by
  cases T <;> rfl

/-- The first of the bits followed leads to a subtree, which is without the root. -/
theorem StoredIn.descend_cons {T : CodeTree} (h : T.StoredIn s.nodeLink) {b : Bool} {bits : List Bool} {n : NodeIx}
    (hd : s.descend T.root (b :: bits) = some n) :
    ∃ U : CodeTree, U.StoredIn s.nodeLink ∧ s.descend U.root bits = some n ∧ U.nodes ⊆ T.nodes.tail := by
  rw [State.descend] at hd
  cases T with
  | leaf m c =>
    obtain ⟨e, he, hi, -⟩ := h
    simp [root, linkAt_of_look he, hi] at hd
  | node m l r =>
    obtain ⟨e, he, hi, hl, hr, hsl, hsr⟩ := h
    simp only [root, linkAt_of_look he, hi, if_true, hl, hr] at hd
    cases b with
    | false => exact ⟨l, hsl, hd, List.subset_append_left _ _⟩
    | true => exact ⟨r, hsr, hd, List.subset_append_right _ _⟩

theorem StoredIn.descend_mem_nodes {T : CodeTree} (h : T.StoredIn s.nodeLink) {bits : List Bool} {n : NodeIx}
    (hd : s.descend T.root bits = some n) : n.toNat ∈ T.nodes := by
  induction bits generalizing T with
  | nil =>
    cases hd
    exact T.root_mem_nodes
  | cons b bits ih =>
    obtain ⟨U, hU, hd, hsub⟩ := h.descend_cons hd
    exact List.mem_of_mem_tail (hsub (ih hU hd))

/-- All nodes being different, following a bit or more leaves the root for good (rule R116). -/
theorem StoredIn.descend_ne_root {T : CodeTree} (h : T.StoredIn s.nodeLink) (hnodes : T.nodes.Nodup)
    {bits : List Bool} (hne : bits ≠ []) {n : NodeIx} (hd : s.descend T.root bits = some n) : n ≠ T.root := by
  obtain ⟨b, bits, rfl⟩ := List.exists_cons_of_ne_nil hne
  obtain ⟨U, hU, hd, hsub⟩ := h.descend_cons hd
  rw [nodes_eq_cons, List.nodup_cons] at hnodes
  exact fun e => hnodes.1 (e ▸ hsub (hU.descend_mem_nodes hd))

end CodeTree

/-- Every read of a node gives the same in both states. -/
def State.SameLinks (s t : State) : Prop := ∀ read i, t.linkAt read i = s.linkAt read i

theorem readerInit_sameLinks (s : State) : s.SameLinks (readerInit s) := fun _ _ => rfl

theorem State.SameLinks.only {tree : State} (h : tree.SameLinks s) (only : OnlyReader s t) : tree.SameLinks t := by
  obtain ⟨_, _, _, _, rfl⟩ := only
  exact h

section OnPath

variable {tree : State} (hw : tree.TreeWritten)

include hw

/-- The decoder reads a node on a path as it was written (rule R42). -/
theorem linkAt_of_descend (hlinks : tree.SameLinks s) {bits : List Bool} {n : NodeIx}
    (hd : tree.descend tree.root bits = some n) (read : Nat) :
    s.linkAt read n.toNat = tree.linkAt 0 n.toNat :=
  (hlinks read n.toNat).trans (hw.linkAt_read hd read 0)

/-- The decoder's bit takes it to the node the path goes on to (rule R130). -/
theorem followBit_of_descend (hlinks : tree.SameLinks s) {bits : List Bool} {m n : NodeIx}
    (hm : tree.descend tree.root bits = some m)
    (hchild : (if currentBit s then (tree.linkAt 0 m.toNat).right else (tree.linkAt 0 m.toNat).left) = n) :
    followBit s m = n := by
  rw [followBit, linkAt_of_descend hw hlinks hm, hchild]

/-- Bits that lead from the root to an Internal node take the cursor there and put out nothing (rule R130). -/
theorem decodeGeneral_descend (hlinks : tree.SameLinks s) {bits rest : List Bool} {n : NodeIx}
    (hd : tree.descend tree.root bits = some n) (hi : (tree.linkAt 0 n.toNat).internal = true)
    (hs : s.restBits = bits ++ rest) (out fuel : Nat) :
    ∃ t, Decoded s t out bits [] ∧
      decodeGeneral (fuel + bits.length) tree.root out s = decodeGeneral fuel n out t := by
  induction bits using List.reverseRecOn generalizing n rest fuel with
  | nil =>
    cases hd
    exact ⟨s, .refl s out, rfl⟩
  | append_singleton bits b ih =>
    obtain ⟨m, hm, hmi, hchild⟩ := descend_concat hd
    rw [List.append_assoc] at hs
    obtain ⟨t, hdec, heq⟩ := ih hm hmi hs (fuel + 1)
    obtain ⟨hsig, hbit, -⟩ := restBits_cons (hdec.restBits hs)
    have hlinks' := hlinks.only hdec.only
    have hfollow := followBit_of_descend hw hlinks' hm (hbit ▸ hchild)
    refine ⟨moveCursor t n, hdec.trans (.moveCursor hsig n _ b), ?_⟩
    rw [List.length_append, List.length_singleton, ← Nat.add_assoc, Nat.add_right_comm, heq,
      decodeGeneral_internal hsig (by rw [hfollow, linkAt_of_descend hw hlinks' hd, hi]), hfollow]

end OnPath

/-! ### The reports of a stream that cannot be finished -/

section Internal

variable {T : CodeTree} (hT : T.StoredIn s.nodeLink) (hroot : T.root = s.root)
  (hi : (s.linkAt 0 s.root.toNat).internal = true) {coded : List (List Bool × Byte)} {rest : List Bool}
  (hp : ∀ x ∈ coded, s.IsPath x.1 x.2)

include hT hroot hi hp

/-- DECODE of a stream that begins with whole paths comes back to the root after them (rule R130). -/
theorem decodeStream_paths (hs : s.significantBits = coded.flatMap Prod.fst ++ rest)
    (hout : coded.length ≤ s.symCap) :
    ∃ t fuel, OnlyReader (readerInit s) t ∧ t.restBits = rest ∧ rest.length ≤ fuel ∧
      decodeStream (readerInit s) = decodeGeneral fuel s.root coded.length t := by
  have hread : ((readerInit s).linkAt rootRead (readerInit s).root.toNat).internal = true := by
    rw [← hi, ← linkAt_read (hroot ▸ hT.root_written) rootRead 0]
    rfl
  have hrest := (readerInit_restBits s).trans hs
  have hfuel : (readerInit s).restBits.length ≤ 8 * s.packLen.toNat := restBits_length_le _
  rw [hrest, List.length_append] at hfuel
  have hpos : ∀ x ∈ T.paths, x.1 ≠ [] := fun x hx =>
    List.length_pos_iff.1 ((CodeTree.length_pos_of_internal hT (hroot ▸ hi)).1 x hx)
  obtain ⟨t, hdec, heq⟩ := decodeGeneral_leadingPaths (s := readerInit s) hpos hT hroot
    (fun x hx => (hT.isPath_iff hroot x.1 x.2).1 (hp x hx)) hrest (out := 0) (by rw [Nat.zero_add]; exact hout)
    (8 * s.packLen.toNat - (coded.flatMap Prod.fst).length)
  rw [Nat.sub_add_cancel (Nat.le_of_add_right_le hfuel), Nat.zero_add] at heq
  exact ⟨t, _, hdec.only, hdec.restBits hrest, Nat.le_sub_of_add_le' hfuel,
    (decodeStream_of_internal hread).trans heq⟩

/-- A stream that ends at an Internal node other than the root ends inside a path (rule R130). -/
theorem decodeStream_endsMidCode (hnodes : T.nodes.Nodup)
    (hs : s.significantBits = coded.flatMap Prod.fst ++ rest) (hout : coded.length ≤ s.symCap) (hrest : rest ≠ [])
    {n : NodeIx} (hd : s.descend s.root rest = some n) (hn : (s.linkAt 0 n.toNat).internal = true) :
    decodeStream (readerInit s) = .error (.malformed, Detail.endsMidCode) := by
  obtain ⟨t, fuel, only, htrest, hfuel, heq⟩ := decodeStream_paths hT hroot hi hp hs hout
  have hnil : t.restBits = rest ++ [] := htrest.trans (List.append_nil rest).symm
  obtain ⟨u, hdec, hu⟩ := decodeGeneral_descend (hT.treeWritten hroot)
    ((readerInit_sameLinks s).only only) hd hn hnil coded.length (fuel - rest.length)
  have hne : n ≠ u.root := by
    rw [(only.trans hdec.only).root, readerInit_root, ← hroot]
    exact hT.descend_ne_root hnodes hrest (hroot ▸ hd)
  rw [heq, ← Nat.sub_add_cancel hfuel, hu, decodeGeneral_end (hdec.restBits hnil), endGeneral, if_pos hne]

/-- One path more than SYM_OUT has entries overflows it (rule R130). -/
theorem decodeStream_outOvf {x : List Bool × Byte} (hx : s.IsPath x.1 x.2)
    (hs : s.significantBits = coded.flatMap Prod.fst ++ (x.1 ++ rest)) (hout : coded.length = s.symCap) :
    decodeStream (readerInit s) = .error (.outOvf, Detail.none) := by
  obtain ⟨t, fuel, only, htrest, hfuel, heq⟩ := decodeStream_paths hT hroot hi hp hs hout.le
  obtain ⟨bits, c⟩ := x
  obtain ⟨n, hd, hleaf, -⟩ := hx
  obtain rfl | ⟨bits, b, rfl⟩ := bits.eq_nil_or_concat'
  · cases hd
    rw [hleaf] at hi
    cases hi
  obtain ⟨m, hm, hmi, hchild⟩ := descend_concat hd
  have hw := hT.treeWritten hroot
  have hlinks := (readerInit_sameLinks s).only only
  rw [List.append_assoc] at htrest hfuel
  rw [List.length_append] at hfuel
  obtain ⟨u, hdec, hu⟩ := decodeGeneral_descend hw hlinks hm hmi htrest coded.length (fuel - bits.length)
  obtain ⟨hsig, hbit, -⟩ := restBits_cons (hdec.restBits htrest)
  have hlinks' := hlinks.only hdec.only
  have hfollow := followBit_of_descend hw hlinks' hm (hbit ▸ hchild)
  have hcap : coded.length = u.symCap := hout.trans (only.trans hdec.only).symCap.symm
  have hpos : 0 < fuel - bits.length := Nat.sub_pos_of_lt (by simp at hfuel; omega)
  rw [Nat.sub_add_cancel (Nat.le_of_add_right_le hfuel)] at hu
  rw [heq, hu, hcap, ← Nat.sub_add_cancel hpos]
  exact decodeGeneral_outOvf hsig (by rw [hfollow, linkAt_of_descend hw hlinks' hd, hleaf])

end Internal

section Leaf

variable {n : Nat} {rest : List Bool} (hi : (s.linkAt rootRead s.root.toNat).internal = false)
  (hs : s.significantBits = List.replicate n false ++ rest) (hout : n ≤ s.symCap)

include hi hs hout

/-- DECODE of a single Leaf's stream puts out a symbol for each zero it begins with (rule R131). -/
theorem decodeStream_zeros :
    ∃ t c fuel, OnlyReader (readerInit s) t ∧ t.restBits = rest ∧ rest.length ≤ fuel ∧
      decodeStream (readerInit s) = decodeDegenerate c fuel n t := by
  have hrest := (readerInit_restBits s).trans hs
  have hfuel : (readerInit s).restBits.length ≤ 8 * s.packLen.toNat := restBits_length_le _
  rw [hrest, List.length_append, List.length_replicate] at hfuel
  obtain ⟨t, hdec, heq⟩ := decodeDegenerate_leadingZeros (c := (s.linkAt rootRead s.root.toNat).sym) hrest
    (out := 0) (by rw [Nat.zero_add]; exact hout) (8 * s.packLen.toNat - n)
  rw [Nat.sub_add_cancel (Nat.le_of_add_right_le hfuel), Nat.zero_add] at heq
  exact ⟨t, _, _, hdec.only, hdec.restBits hrest, Nat.le_sub_of_add_le' hfuel,
    (decodeStream_of_leaf (s := readerInit s) hi).trans heq⟩

theorem decodeStream_degenOneBit (h : rest.head? = some true) :
    decodeStream (readerInit s) = .error (.malformed, Detail.degenOneBit) := by
  obtain ⟨t, c, fuel, -, htrest, hfuel, heq⟩ := decodeStream_zeros hi hs hout
  obtain ⟨rest, rfl⟩ := List.head?_eq_some_iff.1 h
  obtain ⟨hsig, hbit, -⟩ := restBits_cons htrest
  rw [heq, ← Nat.sub_add_cancel (Nat.le_of_add_left_le hfuel), decodeDegenerate, if_pos hsig, if_pos hbit]

theorem decodeStream_degenCount (hnil : rest = []) (hcnt : n ≠ s.symCnt.toNat) :
    decodeStream (readerInit s) = .error (.malformed, Detail.degenCount) := by
  obtain ⟨t, c, fuel, only, htrest, -, heq⟩ := decodeStream_zeros hi hs hout
  have hsymCnt : t.symCnt = s.symCnt := by
    obtain ⟨_, _, _, _, rfl⟩ := only
    rfl
  rw [heq, decodeDegenerate_end (htrest.trans hnil), endDegenerate, hsymCnt, if_pos hcnt]

/-- One zero more than SYM_OUT has entries overflows it. -/
theorem decodeStream_degenOvf (hcap : n = s.symCap) (h : rest.head? = some false) :
    decodeStream (readerInit s) = .error (.outOvf, Detail.none) := by
  obtain ⟨t, c, fuel, only, htrest, hfuel, heq⟩ := decodeStream_zeros hi hs hout
  obtain ⟨rest, rfl⟩ := List.head?_eq_some_iff.1 h
  obtain ⟨hsig, hbit, -⟩ := restBits_cons htrest
  rw [heq, ← Nat.sub_add_cancel (Nat.le_of_add_left_le hfuel), decodeDegenerate, if_pos hsig, hbit,
    if_neg Bool.false_ne_true, if_pos (hcap.trans only.symCap.symm)]

end Leaf

/-- Settles O44: after the symbols that fit, the stream ends inside a path or at the wrong count, or a bit comes that
no symbol takes. -/
theorem whenTheStreamIsMalformed : Obligations.WhenTheStreamIsMalformed := by
  intro s t hexec hcap hdata hvalid hne hw
  have report {code : Result} {detail : Byte} (h : decodeStream (readerInit s) = .error (code, detail)) :
      t.result = code ∧ t.detail = detail :=
    decode_reports hexec (decodeBody_of_error hcap hdata hne hvalid h)
  obtain ⟨T, hroot, hT, hnodes, -⟩ := stored_of_validTree hvalid hne hw
  refine ⟨fun hi coded rest hp hs => ⟨fun n hout hrest hd hn => ?_, fun hlong => ?_⟩, fun hi n rest hs => ?_⟩
  · exact report (decodeStream_endsMidCode hT hroot hi hp hnodes hs hout hrest hd hn)
  · obtain ⟨a, x, b, rfl, hlen⟩ : ∃ a x b, coded = a ++ x :: b ∧ a.length = s.symCap :=
      ⟨coded.take s.symCap, coded[s.symCap], coded.drop (s.symCap + 1),
        by rw [← List.drop_eq_getElem_cons hlong, List.take_append_drop], List.length_take_of_le hlong.le⟩
    exact report (decodeStream_outOvf hT hroot hi (fun y hy => hp y (by simp [hy])) (hp x (by simp))
      (by simpa using hs) hlen)
  rw [linkAt_read hw.root 0 rootRead] at hi
  refine ⟨fun hout hone => ?_, fun hout hnil hcnt => ?_, fun hlong => ?_⟩
  · exact report (decodeStream_degenOneBit hi hs hout hone)
  · exact report (decodeStream_degenCount hi hs hout hnil hcnt)
  · obtain ⟨k, rfl⟩ := Nat.exists_eq_add_of_lt hlong
    rw [Nat.add_assoc, List.replicate_add, List.replicate_succ, List.append_assoc] at hs
    exact report (decodeStream_degenOvf hi hs le_rfl rfl rfl)

/-! ### The entries DECODE leaves alone -/

/-- How the loops of DECODE end from `s` with `out` symbols put out: with a count within SYM_CAP and the entries of
SYM_OUT from it on unchanged, or with a raise. -/
inductive StreamEnd (s : State) (out : Nat) : Except Raised (State × Nat) → Prop
  | ok (t : State) (n : Nat) (le : out ≤ n) (cap : n ≤ s.symCap)
    (symOut : ∀ j, n ≤ j → t.symOut.look j = s.symOut.look j) : StreamEnd s out (.ok (t, n))
  | raise (code : Result) (detail : Byte) (h : code ≠ .ok) : StreamEnd s out (.error (code, detail))

section StreamEnd

variable {out : Nat} {r : Except Raised (State × Nat)}

/-- From a state with the same SYM_OUT. -/
theorem StreamEnd.move (h : StreamEnd t out r) (hsym : t.symOut = s.symOut) (hcap : t.symCap = s.symCap) :
    StreamEnd s out r := by
  cases h with
  | ok u n le cap symOut => exact .ok u n le (hcap ▸ cap) (hsym ▸ symOut)
  | raise code detail h => exact .raise code detail h

/-- From a state that has one symbol more. -/
theorem StreamEnd.emit (h : StreamEnd t (out + 1) r) {c : Byte} (hout : out < s.symCap)
    (hsym : t.symOut = (s.writeSymOut out c).symOut) (hcap : t.symCap = s.symCap) : StreamEnd s out r := by
  cases h with
  | ok u n le cap symOut =>
    refine .ok u n (Nat.le_of_succ_le le) (hcap ▸ cap) fun j hj => (symOut j hj).trans ?_
    rw [hsym, State.writeSymOut_symOut, if_pos hout, Memory.look_put_ne _ _ (by omega)]
  | raise code detail h => exact .raise code detail h

theorem endGeneral_streamEnd (hout : out ≤ s.symCap) (cur : NodeIx) : StreamEnd s out (endGeneral cur out s) :=
  iteInduction (fun _ => .raise _ _ (by decide)) fun _ => .ok s out le_rfl hout fun _ _ => rfl

theorem endDegenerate_streamEnd (hout : out ≤ s.symCap) : StreamEnd s out (endDegenerate out s) :=
  iteInduction (fun _ => .raise _ _ (by decide)) fun _ => .ok s out le_rfl hout fun _ _ => rfl

theorem decodeGeneral_streamEnd (fuel : Nat) (cur : NodeIx) (hout : out ≤ s.symCap) :
    StreamEnd s out (decodeGeneral fuel cur out s) := by
  induction fuel generalizing cur out s with
  | zero => exact endGeneral_streamEnd hout cur
  | succ fuel ih =>
    have hmove := moveCursor_only s (followBit s cur)
    rw [decodeGeneral]
    split
    · dsimp only
      split
      · exact (ih _ (hmove.symCap ▸ hout)).move (advanceReader_symOut s) hmove.symCap
      · split
        · exact .raise _ _ (by decide)
        · next hne =>
          have hlt : out < s.symCap := Nat.lt_of_le_of_ne hout hne
          have hemit := hmove.trans (emitSymbol_only _ out
            (s.linkAt (bitRead s) (followBit s cur).toNat).sym)
          exact .move (t := moveCursor s (followBit s cur)) (.emit (ih s.root (hemit.symCap ▸ hlt))
            (hmove.symCap ▸ hlt) rfl (hemit.symCap.trans hmove.symCap.symm)) (advanceReader_symOut s) hmove.symCap
    · exact endGeneral_streamEnd hout cur

theorem decodeDegenerate_streamEnd (c : Byte) (fuel : Nat) (hout : out ≤ s.symCap) :
    StreamEnd s out (decodeDegenerate c fuel out s) := by
  induction fuel generalizing out s with
  | zero => exact endDegenerate_streamEnd hout
  | succ fuel ih =>
    have hadv := advanceReader_only s
    rw [decodeDegenerate]
    split
    · split
      · exact .raise _ _ (by decide)
      · split
        · exact .raise _ _ (by decide)
        · next hne =>
          have hlt : out < s.symCap := Nat.lt_of_le_of_ne hout hne
          have hemit := writeSymOut_only (advanceReader s) out c
          exact ((ih ((hadv.trans hemit).symCap ▸ hlt)).emit (hadv.symCap ▸ hlt) rfl hemit.symCap).move
            (advanceReader_symOut s) hadv.symCap
    · exact endDegenerate_streamEnd hout

theorem decodeStream_streamEnd (s : State) : StreamEnd s 0 (decodeStream s) :=
  iteInduction (fun _ => decodeGeneral_streamEnd _ _ (Nat.zero_le _)) fun _ =>
    decodeDegenerate_streamEnd _ _ (Nat.zero_le _)

end StreamEnd

/-- A DECODE that completes with OK leaves SYM_OUT as it was from the count it puts out on. -/
theorem decodeBody_ok (h : (decodeBody s).result = .ok) :
    ∃ n ≤ s.symCap, (decodeBody s).left.outLen = BitVec.ofNat 32 n ∧
      ∀ j, n ≤ j → (decodeBody s).left.symOut.look j = s.symOut.look j := by
  unfold decodeBody at h ⊢
  dsimp only at h ⊢
  split at h
  · cases h
  next hcap =>
  split at h
  · cases h
  next hdata =>
  rw [if_neg hcap, if_neg hdata]
  split at h
  · next hnil =>
    rw [if_pos hnil]
    exact ⟨0, Nat.zero_le _, rfl, fun _ _ => rfl⟩
  next hne =>
  split at h
  · cases h
  next hvalid =>
  rw [if_neg hne, if_neg hvalid]
  have hend := decodeStream_streamEnd (readerInit s)
  generalize decodeStream (readerInit s) = r at h hend
  cases hend with
  | ok u n _ cap symOut => exact ⟨n, cap, rfl, symOut⟩
  | raise code detail hcode => exact absurd h hcode

/-- Settles O45: the frame of the body, and the count is within SYM_CAP and so stands in OUT_LEN. -/
theorem decodeWritesOnlyItsOutput : Obligations.DecodeWritesOnlyItsOutput := by
  intro s t hsymCap hexec
  rw [exec_eq, bodyOf] at hexec
  cases hexec
  refine ⟨?_, fun hok j hj => ?_⟩
  · obtain ⟨pos, bit, cursor, len, out, hleft⟩ := decodeBody_frame s
    refine ⟨pos, bit, cursor, len, out, ?_⟩
    rw [Ended.completed, hleft, (decodeBody_settled s).trunc]
    rfl
  · obtain ⟨n, hcap, hlen, hsyms⟩ := decodeBody_ok hok
    have hn : (BitVec.ofNat 32 n).toNat = n := Nat.mod_eq_of_lt (by omega)
    exact hsyms j (hn ▸ hlen ▸ hj)

end Sys2Proof.Machine
end

section
/-! The results each command can complete with (spec/60_exceptions.md rule R138), read off the checks of its body
in their order. -/

namespace Sys2Proof.Machine

variable {results : List Result}

/-- A check that raises one of the results, before pseudocode that ends with one of them. -/
theorem Ended.check_result_mem {e : Ended} {code : Result} {detail : Byte} {p : Prop} [Decidable p]
    (hcode : code ∈ results) (he : e.result ∈ results) :
    (if p then Ended.raise s code detail else e).result ∈ results := by
  split
  · exact hcode
  · exact he

theorem appendBits_result_mem (hok : .ok ∈ results) (hovf : .packOvf ∈ results) (s : State) (bits : List Bool) :
    (appendBits s bits).result ∈ results := by
  rcases appendBits_cases s bits with ⟨-, e⟩ | ⟨-, e⟩ <;> rw [e]
  · exact hok
  · exact hovf

/-- A width that decodes is not illegal, and TRUNC does not change the result (rules R66, R96). -/
theorem wrbitsBody_result_mem {w : Nat} (hw : w ≤ wrbitsMax) (s : State) :
    (wrbitsBody w s).result ∈ [.ok, .sequence, .packOvf] := by
  rw [wrbitsBody, if_neg (Nat.not_lt.2 hw)]
  refine Ended.check_result_mem (by decide) ?_
  have happend : (appendBits s (argBits s w)).result ∈ [.ok, .sequence, .packOvf] :=
    appendBits_result_mem (by decide) (by decide) s _
  dsimp only
  split <;> exact happend

theorem putsymBody_result_mem (c : Byte) (s : State) :
    (putsymBody c s).result ∈ [.ok, .sequence, .noCode, .packOvf] :=
  Ended.check_result_mem (by decide) (Ended.check_result_mem (by decide)
    (appendBits_result_mem (by decide) (by decide) s _))

/-- Whichever check the packing raises by, ENCODE reports PACK_OVF; its BUILD does not raise (rule R125). -/
theorem encodeBody_result_mem (s : State) : (encodeBody s).result ∈ [.ok, .lenRange, .packOvf] := by
  refine Ended.check_result_mem (by decide) ?_
  dsimp only
  split
  · exact List.mem_cons_self
  refine Ended.check_result_mem (by decide) ?_
  split
  · next hok => exact hok ▸ List.mem_cons_self
  · simp

/-- What the loops of DECODE can raise (rules R130, R131). -/
inductive StreamRaise : Except Raised (State × Nat) → Prop
  | none (t : State) (out : Nat) : StreamRaise (.ok (t, out))
  | malformed (detail : Byte) : StreamRaise (.error (.malformed, detail))
  | outOvf (detail : Byte) : StreamRaise (.error (.outOvf, detail))

theorem endGeneral_streamRaise (cur : NodeIx) (out : Nat) (s : State) : StreamRaise (endGeneral cur out s) :=
  iteInduction (fun _ => .malformed _) fun _ => .none s out

theorem endDegenerate_streamRaise (out : Nat) (s : State) : StreamRaise (endDegenerate out s) :=
  iteInduction (fun _ => .malformed _) fun _ => .none s out

theorem decodeGeneral_streamRaise (fuel : Nat) (cur : NodeIx) (out : Nat) (s : State) :
    StreamRaise (decodeGeneral fuel cur out s) := by
  induction fuel generalizing cur out s with
  | zero => exact endGeneral_streamRaise cur out s
  | succ fuel ih =>
    refine iteInduction (fun _ => ?_) fun _ => endGeneral_streamRaise cur out s
    exact iteInduction (fun _ => ih _ _ _) fun _ => iteInduction (fun _ => .outOvf _) fun _ => ih _ _ _

theorem decodeDegenerate_streamRaise (c : Byte) (fuel out : Nat) (s : State) :
    StreamRaise (decodeDegenerate c fuel out s) := by
  induction fuel generalizing out s with
  | zero => exact endDegenerate_streamRaise out s
  | succ fuel ih =>
    refine iteInduction (fun _ => ?_) fun _ => endDegenerate_streamRaise out s
    exact iteInduction (fun _ => .malformed _) fun _ => iteInduction (fun _ => .outOvf _) fun _ => ih _ _

theorem decodeStream_streamRaise (s : State) : StreamRaise (decodeStream s) :=
  iteInduction (fun _ => decodeGeneral_streamRaise _ _ _ _) fun _ => decodeDegenerate_streamRaise _ _ _ _

theorem decodeBody_result_mem (s : State) :
    (decodeBody s).result ∈ [.ok, .lenRange, .malformed, .outOvf] := by
  refine Ended.check_result_mem (by decide) (Ended.check_result_mem (by decide) ?_)
  dsimp only
  split
  · exact List.mem_cons_self
  refine Ended.check_result_mem (by decide) ?_
  have hstream := decodeStream_streamRaise (readerInit s)
  generalize decodeStream (readerInit s) = r at hstream
  cases hstream <;> simp

/-- The body of a well-formed command ends with a result of its row (rule R138). -/
theorem bodyOf_result_mem {i : Instr} (hi : i.WellFormed) (s : State) :
    (bodyOf i s).result ∈ possibleResults i := by
  cases i with
  | nop | clear | bwinit | brinit | fclr => exact List.mem_cons_self
  | wrbits w => exact wrbitsBody_result_mem hi s
  | putsym c => exact putsymBody_result_mem c s
  | finish | rdbit =>
    exact Ended.check_result_mem (by decide) (Ended.check_result_mem (by decide) List.mem_cons_self)
  | fadd | fcount | tcheck | codes =>
    exact Ended.check_result_mem (by simp [possibleResults]) List.mem_cons_self
  | build =>
    rw [bodyOf, buildBody]
    exact Ended.check_result_mem (by decide) List.mem_cons_self
  | encode => exact encodeBody_result_mem s
  | decode => exact decodeBody_result_mem s

/-- Settles O7: the result of a completion is the result of the command's body. -/
theorem onlyPossibleResults : Obligations.OnlyPossibleResults := by
  intro i s t hi h
  rw [exec_eq] at h
  cases h
  exact bodyOf_result_mem hi s

end Sys2Proof.Machine
end
